-- ==== Sys2Proof/Word.lean ====
section
/-! DEFINITION. The bit-vector types of the engine: what the spec treats as bits. -/

namespace Sys2Proof

/-- One byte of BUF, or one character of a text (20_memory.md R36, R53). -/
abbrev Byte := BitVec 8

/-- The 64-bit command word the host writes to CMD (30_encoding.md R70). -/
abbrev CmdWord := BitVec 64

/-- The cell that stores one V register. A register has W bits, W being 128, 256, 384 or 512
(00_scope.md R5); the cell is as wide as the widest, and its bits W and up are zero (log 14). -/
abbrev VCell := BitVec 512

/-- A register number, 0 to 15: all of them are valid (30_encoding.md R71). -/
abbrev Reg := Fin 16

/-- The 32-bit immediate (30_encoding.md R72). -/
abbrev Imm := BitVec 32

/-- A 16-bit BUF address, or a window length (30_encoding.md R74). -/
abbrev Half := BitVec 16

end Sys2Proof
end

