-- ==== Sys2Proof/Config.lean ====
section
/-! DEFINITION. What an instance of the engine fixes (00_scope.md R5 to R7) and the free values. -/

namespace Sys2Proof

/-- WIDTH, "one of 128, 256, 384, 512" (00_scope.md R5). -/
inductive Width where
  | w128 | w256 | w384 | w512
deriving DecidableEq, Repr

/-- W, the number of bits of a value. -/
def Width.bits : Width → Nat
  | .w128 => 128
  | .w256 => 256
  | .w384 => 384
  | .w512 => 512

/-- DIGMAX, the most decimal digits of a W-bit value (00_scope.md R7). -/
def Width.digMax : Width → Nat
  | .w128 => 39
  | .w256 => 78
  | .w384 => 116
  | .w512 => 155

/-- Which headroom estimate the instance has (46_dec_scale.md R186, OPEN): the spec's default
instance, or another one, of which only property P1 is known (log 7). -/
inductive HeadroomRule where
  | specDefault
  | other
deriving DecidableEq, Repr

/-- The parameters 00_scope.md R7 calls OPEN, except the cell width C, on which no result depends
(R6). "The model takes it as an argument": they stand in State and no step changes them (log 5). -/
structure Params where
  /-- WIDTH (R5). -/
  width : Width
  /-- LZC_OF_ZERO, "0 .. W", "default W" (40_primitives.md R99). -/
  lzcOfZero : Nat
  /-- HEADROOM_OK (46_dec_scale.md R186). -/
  headroom : HeadroomRule
deriving DecidableEq, Repr

/-- The parameters of an instance of width w at the defaults 00_scope.md R7 gives. -/
def Params.defaultFor (w : Width) : Params :=
  { width := w, lzcOfZero := w.bits, headroom := .specDefault }

/-- The legal range of the parameters: LZC_OF_ZERO is "0 .. W" (40_primitives.md R99). -/
def Params.ok (p : Params) : Bool := decide (p.lzcOfZero ≤ p.width.bits)

/-- BUFSIZE (00_scope.md R7). -/
def bufSize : Nat := 65536

/-- The default of CELLBITS (00_scope.md R6); the cell-level algorithms take any C. -/
def defaultCellBits : Nat := 32

/-- FREE VALUE: a BUF byte the rules leave unspecified: the byte at an address that nothing has
written since reset number event (log 3), or that export number event left unspecified (log 11). -/
opaque Config.freeByte (event addr : Nat) : Byte

/-- FREE VALUE: what V[r] holds after the reset number event that the host asserted (log 4). -/
opaque Config.freeV (event r : Nat) : VCell

/-- FREE VALUE: what S[r] holds after the reset number event that the host asserted (log 4). -/
opaque Config.freeScale (event r : Nat) : BitVec 32

/-- FREE VALUE: what an unnamed headroom estimate answers for width W, leading-zero count L and
digit count k, before property P1 is imposed (log 7). -/
opaque Config.freeHeadroom (W L k : Nat) : Bool

end Sys2Proof
end

