-- ==== Sys2Proof/Syntax.lean ====
section
/-! DEFINITION. The 51 commands of BGU-1 (30_encoding.md R76), the twelve formats (R71), the four
fault causes (60_exceptions.md R240) and the pseudo-instructions (30_encoding.md R82). -/

namespace Sys2Proof

/-- The fault causes (60_exceptions.md R240): "There are four, and no others". -/
inductive FaultCause where
  | illegalOpcode
  | reservedNonzero
  | destConflict
  | bufRange
deriving DecidableEq, Repr

/-- The code recorded in FAULT.CAUSE (60_exceptions.md R240). -/
def FaultCause.code : FaultCause → Nat
  | .illegalOpcode => 1
  | .reservedNonzero => 2
  | .destConflict => 3
  | .bufRange => 4

/-- The twelve formats of 30_encoding.md R71. -/
inductive Format where
  | D | DI | DA | DAB | DEAB | DAI | DABI | A | AI | AB | LB | SB
deriving DecidableEq, Repr

/-- A command with its operands: one constructor per row of the opcode table (30_encoding.md R76).
Operands stand in the order of R71's column "assembler operands". -/
inductive Instr where
  -- 41_int_construct.md
  | zero (rd : Reg)
  | one (rd : Reg)
  | ldw (rd : Reg) (imm : Imm)
  | mov (rd ra : Reg)
  -- 42_int_arith.md
  | add (rd ra rb : Reg)
  | sub (rd ra rb : Reg)
  | mul (rd ra rb : Reg)
  | mulw (rd re ra rb : Reg)
  | div (rd re ra rb : Reg)
  -- 43_int_logic_shift_bit_cmp.md
  | and (rd ra rb : Reg)
  | or (rd ra rb : Reg)
  | xor (rd ra rb : Reg)
  | not (rd ra : Reg)
  | shl (rd ra : Reg) (imm : Imm)
  | shr (rd ra : Reg) (imm : Imm)
  | bget (ra : Reg) (imm : Imm)
  | bset (rd ra : Reg) (imm : Imm)
  | bclr (rd ra : Reg) (imm : Imm)
  | eq (ra rb : Reg)
  | lt (ra rb : Reg)
  | msb (ra : Reg)
  | lzc (ra : Reg)
  -- 44_int_raw_text.md
  | ldraw (rd : Reg) (addr : Half)
  | straw (ra : Reg) (addr : Half)
  | ldhex (rd : Reg) (addr len : Half)
  | sthex (ra : Reg) (addr cap : Half)
  | lddec (rd : Reg) (addr len : Half)
  | stdec (ra : Reg) (addr cap : Half)
  -- 45_signed.md
  | neg (rd ra : Reg)
  | abs (rd ra : Reg)
  | slt (ra rb : Reg)
  | ldsdec (rd : Reg) (addr len : Half)
  | stsdec (ra : Reg) (addr cap : Half)
  -- 46_dec_scale.md
  | sset (rd : Reg) (imm : Imm)
  | sget (ra : Reg)
  | dmov (rd ra : Reg)
  | dprec (rd ra : Reg) (imm : Imm)
  | dprecs (rd ra : Reg) (imm : Imm)
  -- 47_dec_arith.md
  | dadd (rd ra rb : Reg)
  | dsub (rd ra rb : Reg)
  | dadds (rd ra rb : Reg)
  | dsubs (rd ra rb : Reg)
  | dmul (rd ra rb : Reg)
  | dmuls (rd ra rb : Reg)
  -- 48_dec_div.md
  | ddivf (rd ra rb : Reg) (imm : Imm)
  | ddivw (rd ra rb : Reg) (imm : Imm)
  | ddivs (rd ra rb : Reg) (imm : Imm)
  -- 49_dec_cmp_text.md
  | deq (ra rb : Reg)
  | dlt (ra rb : Reg)
  | lddcm (rd : Reg) (addr len : Half)
  | stdcm (ra : Reg) (addr cap : Half)
deriving DecidableEq, Repr

/-- The pseudo-instructions of 30_encoding.md R82. -/
inductive Pseudo where
  | addip (ra rb : Reg)
  | subip (ra rb : Reg)
  | ldcells (rd : Reg) (addr : Half)
  | stcells (ra : Reg) (addr : Half)
  | dset (rd : Reg) (word scale : Imm)
deriving DecidableEq, Repr

/-- "Pseudo-instructions, each an exact expansion" (30_encoding.md R82). -/
def Pseudo.expand : Pseudo → List Instr
  | .addip ra rb => [.add ra ra rb]
  | .subip ra rb => [.sub ra ra rb]
  | .ldcells rd addr => [.ldraw rd addr]
  | .stcells ra addr => [.straw ra addr]
  | .dset rd word scale => [.ldw rd word, .sset rd scale]

end Sys2Proof
end

