-- ==== Sys2Proof/WellFormed.lean ====
section
/-! DEFINITION. Which commands have an encoding that decodes to them. Every field is in range by its
type, so one check is left: in format DEAB, "rd = re raises Fault(DEST_CONFLICT)"
(30_encoding.md R79). -/

namespace Sys2Proof

/-- R79: the two destinations of MULW and DIV are different registers. -/
def Instr.destsDiffer : Instr → Bool
  | .mulw rd re _ _ => rd != re
  | .div rd re _ _ => rd != re
  | .zero _ | .one _ | .ldw _ _ | .mov _ _ | .add _ _ _ | .sub _ _ _ | .mul _ _ _
  | .and _ _ _ | .or _ _ _ | .xor _ _ _ | .not _ _ | .shl _ _ _ | .shr _ _ _ | .bget _ _
  | .bset _ _ _ | .bclr _ _ _ | .eq _ _ | .lt _ _ | .msb _ | .lzc _ | .ldraw _ _ | .straw _ _
  | .ldhex _ _ _ | .sthex _ _ _ | .lddec _ _ _ | .stdec _ _ _ | .neg _ _ | .abs _ _ | .slt _ _
  | .ldsdec _ _ _ | .stsdec _ _ _ | .sset _ _ | .sget _ | .dmov _ _ | .dprec _ _ _
  | .dprecs _ _ _ | .dadd _ _ _ | .dsub _ _ _ | .dadds _ _ _ | .dsubs _ _ _ | .dmul _ _ _
  | .dmuls _ _ _ | .ddivf _ _ _ _ | .ddivw _ _ _ _ | .ddivs _ _ _ _ | .deq _ _ | .dlt _ _
  | .lddcm _ _ _ | .stdcm _ _ _ => true

/-- A command the hardware executes rather than rejects at decode. -/
def Instr.wellFormed (i : Instr) : Bool := i.destsDiffer

end Sys2Proof
end

