-- ==== Sys2Proof/Decode.lean ====
section
/-! DEFINITION. The command word (30_encoding.md R70 to R80): its fields, the decoder, total on every
64-bit word, and the encoder. -/

namespace Sys2Proof

/-! ## The fields of a word (R70, R74) -/

def fieldOp (w : CmdWord) : BitVec 8 := w.extractLsb' 56 8
def fieldRd (w : CmdWord) : Reg := (w.extractLsb' 52 4).toFin
def fieldRe (w : CmdWord) : Reg := (w.extractLsb' 48 4).toFin
def fieldRa (w : CmdWord) : Reg := (w.extractLsb' 44 4).toFin
def fieldRb (w : CmdWord) : Reg := (w.extractLsb' 40 4).toFin
def fieldZero (w : CmdWord) : BitVec 8 := w.extractLsb' 32 8
def fieldImm (w : CmdWord) : Imm := w.extractLsb' 0 32

/-- addr = word[15:0] (R74). -/
def immAddr (imm : Imm) : Half := imm.extractLsb' 0 16
/-- len or cap = word[31:16] (R74). -/
def immLen (imm : Imm) : Half := imm.extractLsb' 16 16
/-- The immediate of formats LB and SB (R74). -/
def immOf (addr len : Half) : Imm := len ++ addr

/-- The operand fields of a word, used or not. -/
structure Operands where
  rd : Reg := 0
  re : Reg := 0
  ra : Reg := 0
  rb : Reg := 0
  imm : Imm := 0#32
deriving DecidableEq, Repr

def operandsOf (w : CmdWord) : Operands :=
  { rd := fieldRd w, re := fieldRe w, ra := fieldRa w, rb := fieldRb w, imm := fieldImm w }

/-- The word with the given op and operands and word[39:32] = 0 (R70). -/
def packWord (op : BitVec 8) (o : Operands) : CmdWord :=
  op ++ BitVec.ofFin (w := 4) o.rd ++ BitVec.ofFin (w := 4) o.re ++ BitVec.ofFin (w := 4) o.ra
    ++ BitVec.ofFin (w := 4) o.rb ++ 0#8 ++ o.imm

/-! ## The opcode map (R76) -/

/-- The command an op value selects, with its operands taken from the fields its format uses;
none for the 205 op values that R76 does not list (R77). -/
def instrOf (op : BitVec 8) (o : Operands) : Option Instr :=
  match op.toNat with
  | 0x10 => some (.zero o.rd)
  | 0x11 => some (.one o.rd)
  | 0x12 => some (.ldw o.rd o.imm)
  | 0x13 => some (.mov o.rd o.ra)
  | 0x20 => some (.add o.rd o.ra o.rb)
  | 0x21 => some (.sub o.rd o.ra o.rb)
  | 0x22 => some (.mul o.rd o.ra o.rb)
  | 0x23 => some (.mulw o.rd o.re o.ra o.rb)
  | 0x24 => some (.div o.rd o.re o.ra o.rb)
  | 0x30 => some (.and o.rd o.ra o.rb)
  | 0x31 => some (.or o.rd o.ra o.rb)
  | 0x32 => some (.xor o.rd o.ra o.rb)
  | 0x33 => some (.not o.rd o.ra)
  | 0x34 => some (.shl o.rd o.ra o.imm)
  | 0x35 => some (.shr o.rd o.ra o.imm)
  | 0x36 => some (.bget o.ra o.imm)
  | 0x37 => some (.bset o.rd o.ra o.imm)
  | 0x38 => some (.bclr o.rd o.ra o.imm)
  | 0x40 => some (.eq o.ra o.rb)
  | 0x41 => some (.lt o.ra o.rb)
  | 0x42 => some (.msb o.ra)
  | 0x43 => some (.lzc o.ra)
  | 0x50 => some (.ldraw o.rd (immAddr o.imm))
  | 0x51 => some (.straw o.ra (immAddr o.imm))
  | 0x52 => some (.ldhex o.rd (immAddr o.imm) (immLen o.imm))
  | 0x53 => some (.sthex o.ra (immAddr o.imm) (immLen o.imm))
  | 0x54 => some (.lddec o.rd (immAddr o.imm) (immLen o.imm))
  | 0x55 => some (.stdec o.ra (immAddr o.imm) (immLen o.imm))
  | 0x60 => some (.neg o.rd o.ra)
  | 0x61 => some (.abs o.rd o.ra)
  | 0x62 => some (.slt o.ra o.rb)
  | 0x63 => some (.ldsdec o.rd (immAddr o.imm) (immLen o.imm))
  | 0x64 => some (.stsdec o.ra (immAddr o.imm) (immLen o.imm))
  | 0x70 => some (.sset o.rd o.imm)
  | 0x71 => some (.sget o.ra)
  | 0x72 => some (.dmov o.rd o.ra)
  | 0x73 => some (.dprec o.rd o.ra o.imm)
  | 0x74 => some (.dprecs o.rd o.ra o.imm)
  | 0x80 => some (.dadd o.rd o.ra o.rb)
  | 0x81 => some (.dsub o.rd o.ra o.rb)
  | 0x82 => some (.dadds o.rd o.ra o.rb)
  | 0x83 => some (.dsubs o.rd o.ra o.rb)
  | 0x84 => some (.dmul o.rd o.ra o.rb)
  | 0x85 => some (.dmuls o.rd o.ra o.rb)
  | 0x88 => some (.ddivf o.rd o.ra o.rb o.imm)
  | 0x89 => some (.ddivw o.rd o.ra o.rb o.imm)
  | 0x8A => some (.ddivs o.rd o.ra o.rb o.imm)
  | 0x90 => some (.deq o.ra o.rb)
  | 0x91 => some (.dlt o.ra o.rb)
  | 0x92 => some (.lddcm o.rd (immAddr o.imm) (immLen o.imm))
  | 0x93 => some (.stdcm o.ra (immAddr o.imm) (immLen o.imm))
  | _ => none

/-- The op value of a command (R76). -/
def Instr.opcode : Instr → BitVec 8
  | .zero _ => 0x10#8 | .one _ => 0x11#8 | .ldw _ _ => 0x12#8 | .mov _ _ => 0x13#8
  | .add _ _ _ => 0x20#8 | .sub _ _ _ => 0x21#8 | .mul _ _ _ => 0x22#8
  | .mulw _ _ _ _ => 0x23#8 | .div _ _ _ _ => 0x24#8
  | .and _ _ _ => 0x30#8 | .or _ _ _ => 0x31#8 | .xor _ _ _ => 0x32#8 | .not _ _ => 0x33#8
  | .shl _ _ _ => 0x34#8 | .shr _ _ _ => 0x35#8 | .bget _ _ => 0x36#8
  | .bset _ _ _ => 0x37#8 | .bclr _ _ _ => 0x38#8
  | .eq _ _ => 0x40#8 | .lt _ _ => 0x41#8 | .msb _ => 0x42#8 | .lzc _ => 0x43#8
  | .ldraw _ _ => 0x50#8 | .straw _ _ => 0x51#8 | .ldhex _ _ _ => 0x52#8
  | .sthex _ _ _ => 0x53#8 | .lddec _ _ _ => 0x54#8 | .stdec _ _ _ => 0x55#8
  | .neg _ _ => 0x60#8 | .abs _ _ => 0x61#8 | .slt _ _ => 0x62#8
  | .ldsdec _ _ _ => 0x63#8 | .stsdec _ _ _ => 0x64#8
  | .sset _ _ => 0x70#8 | .sget _ => 0x71#8 | .dmov _ _ => 0x72#8
  | .dprec _ _ _ => 0x73#8 | .dprecs _ _ _ => 0x74#8
  | .dadd _ _ _ => 0x80#8 | .dsub _ _ _ => 0x81#8 | .dadds _ _ _ => 0x82#8
  | .dsubs _ _ _ => 0x83#8 | .dmul _ _ _ => 0x84#8 | .dmuls _ _ _ => 0x85#8
  | .ddivf _ _ _ _ => 0x88#8 | .ddivw _ _ _ _ => 0x89#8 | .ddivs _ _ _ _ => 0x8A#8
  | .deq _ _ => 0x90#8 | .dlt _ _ => 0x91#8 | .lddcm _ _ _ => 0x92#8 | .stdcm _ _ _ => 0x93#8

/-- The format of a command (R76's column "format"). -/
def Instr.format : Instr → Format
  | .zero _ | .one _ => .D
  | .ldw _ _ | .sset _ _ => .DI
  | .mov _ _ | .not _ _ | .neg _ _ | .abs _ _ | .dmov _ _ => .DA
  | .add _ _ _ | .sub _ _ _ | .mul _ _ _ | .and _ _ _ | .or _ _ _ | .xor _ _ _
  | .dadd _ _ _ | .dsub _ _ _ | .dadds _ _ _ | .dsubs _ _ _ | .dmul _ _ _ | .dmuls _ _ _ => .DAB
  | .mulw _ _ _ _ | .div _ _ _ _ => .DEAB
  | .shl _ _ _ | .shr _ _ _ | .bset _ _ _ | .bclr _ _ _ | .dprec _ _ _ | .dprecs _ _ _ => .DAI
  | .ddivf _ _ _ _ | .ddivw _ _ _ _ | .ddivs _ _ _ _ => .DABI
  | .msb _ | .lzc _ | .sget _ => .A
  | .bget _ _ => .AI
  | .eq _ _ | .lt _ _ | .slt _ _ | .deq _ _ | .dlt _ _ => .AB
  | .ldraw _ _ | .ldhex _ _ _ | .lddec _ _ _ | .ldsdec _ _ _ | .lddcm _ _ _ => .LB
  | .straw _ _ | .sthex _ _ _ | .stdec _ _ _ | .stsdec _ _ _ | .stdcm _ _ _ => .SB

/-- The operand fields of a command; a field its format does not use is 0 (R71). -/
def Instr.operands : Instr → Operands
  | .zero rd | .one rd => { rd := rd }
  | .ldw rd imm | .sset rd imm => { rd := rd, imm := imm }
  | .mov rd ra | .not rd ra | .neg rd ra | .abs rd ra | .dmov rd ra => { rd := rd, ra := ra }
  | .add rd ra rb | .sub rd ra rb | .mul rd ra rb | .and rd ra rb | .or rd ra rb | .xor rd ra rb
  | .dadd rd ra rb | .dsub rd ra rb | .dadds rd ra rb | .dsubs rd ra rb | .dmul rd ra rb
  | .dmuls rd ra rb => { rd := rd, ra := ra, rb := rb }
  | .mulw rd re ra rb | .div rd re ra rb => { rd := rd, re := re, ra := ra, rb := rb }
  | .shl rd ra imm | .shr rd ra imm | .bset rd ra imm | .bclr rd ra imm | .dprec rd ra imm
  | .dprecs rd ra imm => { rd := rd, ra := ra, imm := imm }
  | .ddivf rd ra rb imm | .ddivw rd ra rb imm | .ddivs rd ra rb imm =>
    { rd := rd, ra := ra, rb := rb, imm := imm }
  | .msb ra | .lzc ra | .sget ra => { ra := ra }
  | .bget ra imm => { ra := ra, imm := imm }
  | .eq ra rb | .lt ra rb | .slt ra rb | .deq ra rb | .dlt ra rb => { ra := ra, rb := rb }
  | .ldraw rd addr => { rd := rd, imm := immOf addr 0#16 }
  | .straw ra addr => { ra := ra, imm := immOf addr 0#16 }
  | .ldhex rd addr len | .lddec rd addr len | .ldsdec rd addr len | .lddcm rd addr len =>
    { rd := rd, imm := immOf addr len }
  | .sthex ra addr cap | .stdec ra addr cap | .stsdec ra addr cap | .stdcm ra addr cap =>
    { ra := ra, imm := immOf addr cap }

/-! ## Reserved fields (R71, R73, R78) -/

def Format.usesRd : Format → Bool
  | .D | .DI | .DA | .DAB | .DEAB | .DAI | .DABI | .LB => true
  | .A | .AI | .AB | .SB => false

def Format.usesRe : Format → Bool
  | .DEAB => true
  | .D | .DI | .DA | .DAB | .DAI | .DABI | .A | .AI | .AB | .LB | .SB => false

def Format.usesRa : Format → Bool
  | .DA | .DAB | .DEAB | .DAI | .DABI | .A | .AI | .AB | .SB => true
  | .D | .DI | .LB => false

def Format.usesRb : Format → Bool
  | .DAB | .DEAB | .DABI | .AB => true
  | .D | .DI | .DA | .DAI | .A | .AI | .LB | .SB => false

def Format.usesImm : Format → Bool
  | .DI | .DAI | .DABI | .AI | .LB | .SB => true
  | .D | .DA | .DAB | .DEAB | .A | .AB => false

/-- "For LDRAW and STRAW ... word[31:16] must be 0" (R74, R78). -/
def Instr.lenMustBeZero : Instr → Bool
  | .ldraw _ _ | .straw _ _ => true
  | .zero _ | .one _ | .ldw _ _ | .mov _ _ | .add _ _ _ | .sub _ _ _ | .mul _ _ _
  | .mulw _ _ _ _ | .div _ _ _ _ | .and _ _ _ | .or _ _ _ | .xor _ _ _ | .not _ _ | .shl _ _ _
  | .shr _ _ _ | .bget _ _ | .bset _ _ _ | .bclr _ _ _ | .eq _ _ | .lt _ _ | .msb _ | .lzc _
  | .ldhex _ _ _ | .sthex _ _ _ | .lddec _ _ _ | .stdec _ _ _ | .neg _ _ | .abs _ _ | .slt _ _
  | .ldsdec _ _ _ | .stsdec _ _ _ | .sset _ _ | .sget _ | .dmov _ _ | .dprec _ _ _
  | .dprecs _ _ _ | .dadd _ _ _ | .dsub _ _ _ | .dadds _ _ _ | .dsubs _ _ _ | .dmul _ _ _
  | .dmuls _ _ _ | .ddivf _ _ _ _ | .ddivw _ _ _ _ | .ddivs _ _ _ _ | .deq _ _ | .dlt _ _
  | .lddcm _ _ _ | .stdcm _ _ _ => false

/-- R78: word[39:32] is 0 and so is every field the command does not use. -/
def reservedClear (i : Instr) (w : CmdWord) : Bool :=
  decide (fieldZero w = 0#8)
    && (i.format.usesRd || decide (fieldRd w = 0))
    && (i.format.usesRe || decide (fieldRe w = 0))
    && (i.format.usesRa || decide (fieldRa w = 0))
    && (i.format.usesRb || decide (fieldRb w = 0))
    && (i.format.usesImm || decide (fieldImm w = 0#32))
    && (!i.lenMustBeZero || decide (immLen (fieldImm w) = 0#16))

/-! ## The decoder and the encoder -/

/-- What a word is: "every 64-bit word is either one command of rule R76 with its operands or one of
the four faults" (R80); the fourth, the window check, depends on W and is made by the command. -/
inductive Decoded where
  | command (i : Instr)
  | fault (c : FaultCause)
deriving DecidableEq, Repr

/-- Decode steps 2 to 4 of R80, in that order: op lookup, reserved fields, rd = re in DEAB. -/
def decodeWord (w : CmdWord) : Decoded :=
  match instrOf (fieldOp w) (operandsOf w) with
  | none => .fault .illegalOpcode
  | some i =>
    if reservedClear i w then
      if i.destsDiffer then .command i else .fault .destConflict
    else .fault .reservedNonzero

/-- The word of a command (R70, R71, R76). -/
def encode (i : Instr) : CmdWord := packWord i.opcode i.operands

def Decoded.toOption : Decoded → Option Instr
  | .command i => some i
  | .fault _ => none

/-- The instruction the decoder reads from the table's numbering of a command's bits, which is the
64-bit number itself (20_memory.md R54: a command word has no byte order). -/
def decodeTableWord (nbits w : Nat) : Option Instr :=
  (decodeWord (BitVec.ofNat 64 (w % 2 ^ nbits))).toOption

end Sys2Proof
end

