-- ==== Sys2Proof/Machine/State.lean ====
section
/-! DEFINITION. The state of the engine and of its host's pending actions, the reasons a step can
stop, and reset (10_state.md; 60_exceptions.md R252; 70_reset_and_hazards.md R260). -/

namespace Sys2Proof.Machine

/-- BUF: the bytes that hold a known value, as (address, byte) pairs with strictly rising addresses
below 65536. An address that is not listed holds a byte nobody has written since reset (log 3). -/
abbrev Memory := List Host.Cell

/-- The registers of the port the host may read, with the numbers of 10_state.md R35. -/
inductive Port where
  | status | res | fault | fcmd
deriving DecidableEq, Repr

/-- The port numbers of 10_state.md R35 (CMD is number 0). -/
def Port.number : Port → Nat
  | .status => 1
  | .res => 2
  | .fault => 3
  | .fcmd => 4

/-- What the host may do (60_exceptions.md R252), and nothing else: accesses outside this list are
"impossible by construction" (93_implementation_defined.md U9). -/
inductive HostAction where
  /-- Write a 64-bit word to CMD: one command. -/
  | writeCmd (word : CmdWord)
  /-- Read STATUS, RES, FAULT or FCMD. -/
  | readPort (port : Port)
  /-- Read a BUF byte. -/
  | readBuf (addr : Half)
  /-- Write a BUF byte. -/
  | writeBuf (addr : Half) (byte : Byte)
  /-- Assert reset between commands. -/
  | assertReset
deriving DecidableEq, Repr

structure State where
  /-- The instance's parameters (00_scope.md R7), no state of the hardware; no step changes them. -/
  params : Params
  /-- V[0] .. V[15] (10_state.md R20). -/
  v : Vector VCell 16
  /-- S[0] .. S[15] (10_state.md R23). -/
  sc : Vector (BitVec 32) 16
  /-- STATUS (10_state.md R25). -/
  status : BitVec 32
  /-- RES (10_state.md R32). -/
  res : BitVec 32
  /-- FAULT (10_state.md R33); HALTED is its bit 0 (R37). -/
  fault : BitVec 32
  /-- FCMD (10_state.md R34). -/
  fcmd : BitVec 64
  /-- BUF (10_state.md R36). -/
  buf : Memory
  /-- MODEL'S OWN: the number of the last reset, naming the unlisted bytes of BUF (log 3). -/
  bufEpoch : Nat
  /-- MODEL'S OWN: the number of the next event that leaves values unspecified (log 10). -/
  fresh : Nat
  /-- MODEL'S OWN: the host's pending actions, oldest first (log 8). -/
  inbox : List HostAction
  /-- MODEL'S OWN: what the host's reads returned, newest first (log 9). -/
  readback : List (BitVec 64)
deriving DecidableEq, Repr

/-- Reasons to stop with a fault: none. The four faults of 60_exceptions.md R240 are next states with
FAULT and FCMD written (R241), and nothing else faults (R243; log 12). -/
inductive Fault where
deriving DecidableEq, Repr

/-- Reasons to refuse a step. -/
inductive Refusal where
  /-- Raised by exec's arm of an instruction that has no meaning yet; safe. No arm does so. -/
  | notModelled (mnemonic : String)
deriving DecidableEq, Repr

abbrev Result := Host.Outcome State Fault Refusal

/-- An instance with the given parameters right after reset (10_state.md R39). STATUS, RES, FAULT and
FCMD are the spec's; V and S are unspecified there and named 0 here (log 1, log 2); BUF lists no
byte (log 3); the host has nothing pending (log 8). -/
def State.resetWith (p : Params) : State where
  params := p
  v := Vector.replicate 16 0#512
  sc := Vector.replicate 16 0#32
  status := 0#32
  res := 0#32
  fault := 0#32
  fcmd := 0#64
  buf := []
  bufEpoch := 0
  fresh := 1
  inbox := []
  readback := []

/-- The machine right after reset: width 128 (log 5), the other parameters at the spec's defaults. -/
def State.reset : State := State.resetWith (Params.defaultFor .w128)

end Sys2Proof.Machine
end

