-- ==== Sys2Proof/Machine/Flags.lean ====
section
/-! DEFINITION. The flags of STATUS (10_state.md R25) and the words of FAULT (R33). -/

namespace Sys2Proof.Machine

/-- The flags of STATUS (10_state.md R25). -/
inductive Flag where
  | ok | t | neg | inx | dz
deriving DecidableEq, Repr

/-- The bit of STATUS a flag is (10_state.md R25). -/
def Flag.bit : Flag → Nat
  | .ok => 0
  | .t => 1
  | .neg => 2
  | .inx => 3
  | .dz => 4

/-- The STATUS word st with flag f written to b; every other bit stays. -/
def statusWith (st : BitVec 32) (f : Flag) (b : Bool) : BitVec 32 :=
  if b then st ||| BitVec.twoPow 32 f.bit else st &&& ~~~ BitVec.twoPow 32 f.bit

/-- FAULT after a fault of cause c: VALID = 1, CAUSE = the code, the rest 0 (10_state.md R33,
60_exceptions.md R241). -/
def faultWord (c : FaultCause) : BitVec 32 := BitVec.ofNat 32 (16 * c.code + 1)

/-- STATUS.F. -/
def State.flag (s : State) (f : Flag) : Bool := s.status.getLsbD f.bit

/-- HALTED, which is FAULT.VALID (10_state.md R37). -/
def State.halted (s : State) : Bool := s.fault.getLsbD 0

/-- FAULT.CAUSE (10_state.md R33). -/
def State.cause (s : State) : BitVec 4 := s.fault.extractLsb' 4 4

/-- STATUS.F <- b. -/
def State.setFlag (s : State) (f : Flag) (b : Bool) : State := { s with status := statusWith s.status f b }

end Sys2Proof.Machine
end

