-- ==== Sys2Proof/Machine/Values.lean ====
section
/-! DEFINITION. The value functions the command rules call (40_primitives.md R98 to R102, and the
functions of files 42 to 49). A W-bit pattern is given by its unsigned reading u(v), a natural number
below 2^W; W is the first argument. Everything is computed exactly and narrowed at the end. -/

namespace Sys2Proof.Machine

/-- bits_W(x) of an integer: "x mod 2^W (mod with a non-negative result)" (00_scope.md R11). -/
def bitsW (W : Nat) (x : Int) : Nat := (x % ((2 ^ W : Nat) : Int)).toNat

/-- v[W-1], the sign bit of the signed reading (00_scope.md R11). -/
def topBit (W v : Nat) : Bool := v.testBit (W - 1)

/-- s(v), the two's-complement reading (00_scope.md R11). -/
def signedVal (W v : Nat) : Int := if topBit W v then (v : Int) - ((2 ^ W : Nat) : Int) else (v : Int)

/-- msb_W(v): the index of the highest 1 bit, "0 if value is zero" (40_primitives.md R98). -/
def msbW (v : Nat) : Nat := Nat.log2 v

/-- lzc_W(v): W - 1 - msb_W(v), and LZC_OF_ZERO for 0 (40_primitives.md R99). -/
def lzcW (p : Params) (v : Nat) : Nat := if v = 0 then p.lzcOfZero else p.width.bits - 1 - msbW v

/-- neg_W(v) = bits_W(0 - u(v)) (40_primitives.md R100). -/
def negW (W v : Nat) : Nat := bitsW W (0 - (v : Int))

/-- The magnitude abs_W gives (40_primitives.md R100); its sign flag is topBit. -/
def magW (W v : Nat) : Nat := if topBit W v then negW W v else v

/-- apply_sign(n, m) (40_primitives.md R100). -/
def applySign (W : Nat) (n : Bool) (m : Nat) : Nat := if n then negW W m else m

/-! ## Logic, shifts, bits (43_int_logic_shift_bit_cmp.md) -/

/-- NOT: "2^W - 1 - u(V[ra])" (R138). -/
def notW (W v : Nat) : Nat := 2 ^ W - 1 - v

/-- SHL by n bits (R140): 0 for n >= W. -/
def shlW (W v n : Nat) : Nat := if W ≤ n then 0 else v * 2 ^ n % 2 ^ W

/-- SHR by n bits (R141): logical, 0 for n >= W. -/
def shrW (W v n : Nat) : Nat := if W ≤ n then 0 else v / 2 ^ n

/-- The bit at an index, 0 from W on (R143, R144). -/
def bitAt (W v idx : Nat) : Bool := decide (idx < W) && v.testBit idx

/-- v with bit idx set; unchanged for idx >= W (R145). -/
def bitSet (W v idx : Nat) : Nat := if idx < W then v ||| 2 ^ idx else v

/-- v with bit idx cleared; unchanged for idx >= W (R146). -/
def bitClear (W v idx : Nat) : Nat := if idx < W then v &&& (2 ^ W - 1 - 2 ^ idx) else v

/-! ## Division (42_int_arith.md) -/

/-- The quotient of udiv_W (40_primitives.md R102; for a zero divisor 42_int_arith.md R131). -/
def udivQ (a b : Nat) : Nat := if b = 0 then 2 ^ (msbW a + 1) - 1 else a / b

/-- The remainder of udiv_W (40_primitives.md R102; for a zero divisor the dividend, R131). -/
def udivR (a b : Nat) : Nat := if b = 0 then a else a % b

/-! ## Repetition -/

/-- f applied n times, stopping as soon as it changes nothing any more (70_reset_and_hazards.md
R267: "the iteration is a plain recursion on the count e"; log 13). -/
def iterFix {α : Type} [DecidableEq α] (f : α → α) : Nat → α → α
  | 0, x => x
  | n + 1, x => if f x = x then x else iterFix f n (f x)

/-! ## Scale change (46_dec_scale.md) -/

/-- bits_W(u(m) * 10^k), with the shortcut of 70_reset_and_hazards.md R268 for k >= W. -/
def mulPow10 (W m k : Nat) : Nat := if W ≤ k then 0 else m * 10 ^ k % 2 ^ W

/-- u(m) div 10^k, with the shortcut of 70_reset_and_hazards.md R268 (10^W > 2^W > m). -/
def divPow10 (W m k : Nat) : Nat := if W ≤ k then 0 else m / 10 ^ k

/-- Whether u(m) mod 10^k is not 0, with the same shortcut. -/
def modPow10NeZero (W m k : Nat) : Bool := if W ≤ k then decide (m ≠ 0) else decide (m % 10 ^ k ≠ 0)

/-- scale_up(v, k) (R183). -/
def scaleUp (W v k : Nat) : Nat := applySign W (topBit W v) (mulPow10 W (magW W v) k)

/-- The value of scale_down(v, k) (R183): the magnitude is divided. -/
def scaleDown (W v k : Nat) : Nat := applySign W (topBit W v) (divPow10 W (magW W v) k)

/-- The inx of scale_down(v, k) (R183). -/
def scaleDownInx (W v k : Nat) : Bool := modPow10NeZero W (magW W v) k

/-- The most generous estimate that property P1 of R186 allows: the largest magnitude with L leading
zeros, 2^(W-L) - 1, times 10^k stays in the positive signed range. (Only zero has W of them, and no
other magnitude takes W digits more.) -/
def headroomSound (W L k : Nat) : Bool :=
  decide (W ≤ L) || (decide (k < W) && decide ((2 ^ (W - L) - 1) * 10 ^ k ≤ 2 ^ (W - 1) - 1))

/-- HEADROOM_OK(L, k) (R186): the spec's default instance, or any instance with property P1. -/
def headroomOk (p : Params) (L k : Nat) : Bool :=
  decide (k = 0) ||
    match p.headroom with
    | .specDefault => decide ((10 * k + 2) / 3 + 2 ≤ L)
    | .other => headroomSound p.width.bits L k && Config.freeHeadroom p.width.bits L k

/-- Whether the checked scale-up of v by k digits is accepted (R187, 47_dec_arith.md R198). -/
def scaleUpOk (p : Params) (v k : Nat) : Bool :=
  decide (k = 0) || headroomOk p (lzcW p (magW p.width.bits v)) k

/-! ## Decimal multiplication (47_dec_arith.md) -/

/-- Whether an integer fits W-bit two's complement (R203). -/
def fitsSigned (W : Nat) (x : Int) : Bool :=
  decide (-((2 ^ (W - 1) : Nat) : Int) ≤ x) && decide (x ≤ ((2 ^ (W - 1) : Nat) : Int) - 1)

/-- A sum of scales, "reduced modulo 2^32" (10_state.md R23). -/
def scaleSum (a b : Nat) : Nat := (a + b) % 2 ^ 32

/-! ## Decimal division (48_dec_div.md) -/

/-- MAXSAFE = ((2^W - 1) div 5) div 4 (R216). -/
def maxSafe (W : Nat) : Nat := (2 ^ W - 1) / 5 / 4

/-- One pass of DDIVW (R214) on the accumulated quotient and the remainder: divide, accumulate, then
both times ten. -/
def widePass (W mb : Nat) (qr : Nat × Nat) : Nat × Nat :=
  ((qr.1 + udivQ qr.2 mb) % 2 ^ W * 10 % 2 ^ W, udivR qr.2 mb * 10 % 2 ^ W)

/-- The closing divide and accumulate of DDIVW and DDIVS (R214, R217). -/
def wideClose (W mb : Nat) (qr : Nat × Nat) : Nat := (qr.1 + udivQ qr.2 mb) % 2 ^ W

/-- The quotient magnitude of DDIVW (R214) for dividend and divisor magnitudes and e digits. -/
def wideQuotient (W ma mb e : Nat) : Nat := wideClose W mb (iterFix (widePass W mb) e (0, ma))

/-- One pass of DDIVS (R217): as widePass, but none once the accumulated quotient passes MAXSAFE. -/
def checkedPass (W mb : Nat) : Option (Nat × Nat) → Option (Nat × Nat)
  | none => none
  | some qr =>
    if maxSafe W < (qr.1 + udivQ qr.2 mb) % 2 ^ W then none else some (widePass W mb qr)

/-- The quotient magnitude of DDIVS (R217), none where the command refuses. -/
def checkedQuotient (W ma mb e : Nat) : Option Nat :=
  (iterFix (checkedPass W mb) e (some (0, ma))).map (wideClose W mb)

/-- The quotient magnitude of DDIVF (R212): one scale-up, one division. -/
def fastQuotient (W ma mb e : Nat) : Nat := udivQ (mulPow10 W ma e) mb

/-! ## Decimal comparison (49_dec_cmp_text.md) -/

/-- dcmp in the executable form of R225, on the signed readings x, y and the scales. -/
def dcmp (w : Width) (x : Int) (sa : Nat) (y : Int) (sb : Nat) : Ordering :=
  if sa = sb then compare x y
  else if sa < sb then
    if w.digMax ≤ sb - sa then (if x = 0 then compare 0 y else compare x 0)
    else compare (x * ((10 ^ (sb - sa) : Nat) : Int)) y
  else
    if w.digMax ≤ sa - sb then (if y = 0 then compare x 0 else compare 0 y)
    else compare x (y * ((10 ^ (sa - sb) : Nat) : Int))

end Sys2Proof.Machine
end

