-- ==== Sys2Proof/Machine/Operands.lean ====
section
/-! DEFINITION. Reading operands: V and S registers, immediates, BUF bytes and windows
(30_encoding.md R72, R74, R75; 20_memory.md R50, R56). -/

namespace Sys2Proof.Machine

/-- W of this instance. -/
def State.W (s : State) : Nat := s.params.width.bits

/-- u(V[r]), the unsigned reading (00_scope.md R11). -/
def State.u (s : State) (r : Reg) : Nat := (s.v.get r).toNat % 2 ^ s.W

/-- s(V[r]), the signed reading (00_scope.md R11). -/
def State.sg (s : State) (r : Reg) : Int := signedVal s.W (s.u r)

/-- The sign of V[r], abs_W's n (40_primitives.md R100). -/
def State.neg (s : State) (r : Reg) : Bool := topBit s.W (s.u r)

/-- The magnitude of V[r], abs_W's m (40_primitives.md R100). -/
def State.mag (s : State) (r : Reg) : Nat := magW s.W (s.u r)

/-- S[r] (10_state.md R23). -/
def State.scale (s : State) (r : Reg) : Nat := (s.sc.get r).toNat

/-- The listed byte at an address, none where no byte is listed. -/
def Memory.find : Memory → Nat → Option Byte
  | [], _ => none
  | (c, x) :: m, a => if a = c then some x else Memory.find m a

/-- BUF[a]. A byte nobody has written since reset is a free value, stable until written: "it is a
value, not a trap" (70_reset_and_hazards.md R261; log 3). -/
def State.bufByte (s : State) (a : Nat) : Byte :=
  match Memory.find s.buf a with
  | some b => b
  | none => Config.freeByte s.bufEpoch a

/-- MemRead(addr, n) (00_scope.md R13). -/
def State.window (s : State) (addr n : Nat) : List Byte :=
  (List.range n).map fun j => s.bufByte (addr + j)

/-- The window check of 20_memory.md R56: no wrap, and a window of length 0 passes everywhere. -/
def windowFits (addr len : Nat) : Bool := decide (addr + len ≤ bufSize)

end Sys2Proof.Machine
end

