-- ==== Sys2Proof/Machine/Text.lean ====
section
/-! DEFINITION. The digit codec (40_primitives.md R90 to R92, R101) and what the text commands do to a
list of characters (44_int_raw_text.md, 45_signed.md, 49_dec_cmp_text.md). -/

namespace Sys2Proof.Machine

/-! ## Digit codec (R90 to R92) -/

/-- digit_of(c, base), none for OutOfRange (R90; the ASCII codes are 20_memory.md R53's). -/
def digitOf (c : Byte) (base : Nat) : Option Nat :=
  let n := c.toNat
  let d := if 0x30 ≤ n ∧ n ≤ 0x39 then some (n - 0x30)
    else if 0x41 ≤ n ∧ n ≤ 0x5A then some (n - 0x41 + 10)
    else if 0x61 ≤ n ∧ n ≤ 0x7A then some (n - 0x61 + 10)
    else none
  match d with
  | none => none
  | some d => if base ≤ d then none else some d

/-- hex_byte_of(c1, c2) (R91). -/
def hexByteOf (c1 c2 : Byte) : Option Byte :=
  match digitOf c1 16, digitOf c2 16 with
  | some h, some l => some (BitVec.ofNat 8 (16 * h + l))
  | _, _ => none

/-- char_of_digit(d), upper case (R92). -/
def charOfDigit (d : Nat) : Byte := BitVec.ofNat 8 (if d < 10 then 0x30 + d else 0x41 + (d - 10))

/-- hex_pair_of_byte(b) (R92). -/
def hexPairOfByte (b : Byte) : Byte × Byte := (charOfDigit (b.toNat / 16), charOfDigit (b.toNat % 16))

/-! ## Decimal digits (R101) -/

def decDigitsLoop : Nat → Nat → List Nat → List Nat
  | 0, _, acc => acc
  | fuel + 1, x, acc =>
    if x < 10 then x :: acc else decDigitsLoop fuel (x / 10) (x % 10 :: acc)

/-- dec_digits(x), most significant first, the one digit 0 for 0 (R101). The repeated division by 10
ends within log2(x) + 1 rounds. -/
def decDigits (x : Nat) : List Nat := decDigitsLoop (Nat.log2 x + 1) x []

/-- ndig(x) (R101). -/
def ndig (x : Nat) : Nat := (decDigits x).length

/-- The characters of dec_digits(x). -/
def decChars (x : Nat) : List Byte := (decDigits x).map charOfDigit

/-! ## Parsing -/

/-- acc = (acc * base + d) mod M over the characters, none at the first OutOfRange one
(44_int_raw_text.md R158, R160). -/
def parseDigits (base M : Nat) : Nat → List Byte → Option Nat
  | acc, [] => some acc
  | acc, c :: cs =>
    match digitOf c base with
    | none => none
    | some d => parseDigits base M ((acc * base + d) % M) cs

def charMinus : Byte := 0x2D#8
def charPlus : Byte := 0x2B#8
def charPoint : Byte := 0x2E#8
def charZero : Byte := 0x30#8

/-- Whether the string begins with '-' (45_signed.md R173, 49_dec_cmp_text.md R234). -/
def hasMinus : List Byte → Bool
  | [] => false
  | c :: _ => decide (c = charMinus)

/-- The string without one leading sign (45_signed.md R173, 49_dec_cmp_text.md R234). -/
def dropSign : List Byte → List Byte
  | [] => []
  | c :: cs => if c = charMinus ∨ c = charPlus then cs else c :: cs

/-- The loop of LDDCM after the sign (49_dec_cmp_text.md R234): accumulated digits and the scale,
none where a character is not acceptable or a second point stands. -/
def parsePoint (M : Nat) : Nat → Bool → Nat → List Byte → Option (Nat × Nat)
  | acc, _, sc, [] => some (acc, sc)
  | acc, seen, sc, c :: cs =>
    if c = charPoint then
      if seen then none else parsePoint M acc true sc cs
    else
      match digitOf c 10 with
      | none => none
      | some d => parsePoint M ((acc * 10 + d) % M) seen (if seen then sc + 1 else sc) cs

/-! ## Printing -/

/-- The hexadecimal text of v in nd digits, most significant first (44_int_raw_text.md R159). -/
def hexChars (v nd : Nat) : List Byte :=
  (List.range nd).map fun j => charOfDigit (v / 16 ^ (nd - 1 - j) % 16)

/-- '-' if n, then the characters. -/
def signed (n : Bool) (body : List Byte) : List Byte := if n then charMinus :: body else body

/-- The body of STDCM for magnitude m at scale sc (49_dec_cmp_text.md R235). -/
def pointChars (m sc : Nat) : List Byte :=
  let D := decChars m
  let nd := ndig m
  if sc = 0 then D
  else if sc < nd then D.take (nd - sc) ++ charPoint :: D.drop (nd - sc)
  else charZero :: charPoint :: (List.replicate (sc - nd) charZero ++ D)

/-- length(body) as the closed form R235 gives, so that a scale in the billions needs no list:
"max(nd, sc + 1) + (1 if sc > 0 else 0)". -/
def pointLength (m sc : Nat) : Nat := max (ndig m) (sc + 1) + (if 0 < sc then 1 else 0)

/-! ## Raw bytes (20_memory.md R51) -/

/-- le(bytes) (00_scope.md R13). -/
def leValue : List Byte → Nat
  | [] => 0
  | b :: bs => b.toNat + 256 * leValue bs

/-- The n bytes of v, byte j holding bits 8j+7 .. 8j (20_memory.md R51). -/
def leBytes (v n : Nat) : List Byte := (List.range n).map fun j => BitVec.ofNat 8 (v / 256 ^ j)

end Sys2Proof.Machine
end

