-- ==== Sys2Proof/Machine/Ops.lean ====
section
/-! DEFINITION. The shared operations: writing registers and BUF, taking a fault, the frame of a buffer
command, the text exports, and reset. -/

namespace Sys2Proof.Machine

/-! ## Registers -/

/-- V[r] <- bits_W(x) for a natural number x (00_scope.md R13). -/
def State.putV (s : State) (r : Reg) (x : Nat) : State :=
  { s with v := s.v.set r.val (BitVec.ofNat 512 (x % 2 ^ s.W)) r.isLt }

/-- S[r] <- n (00_scope.md R13). -/
def State.putS (s : State) (r : Reg) (n : Nat) : State :=
  { s with sc := s.sc.set r.val (BitVec.ofNat 32 n) r.isLt }

/-- RES <- n (00_scope.md R13). -/
def State.putRes (s : State) (n : Nat) : State := { s with res := BitVec.ofNat 32 n }

/-! ## BUF -/

/-- The bytes as cells from an address on. There is no address 65536 or above (10_state.md R36), and
no command or host action reaches one (20_memory.md R56; 60_exceptions.md R252). -/
def Memory.cells : Nat → List Byte → Memory
  | _, [] => []
  | a, b :: bs => if a < bufSize then (a, b) :: Memory.cells (a + 1) bs else []

/-- MemWrite(addr, n, bytes) (00_scope.md R13): the window's cells are replaced, the cells below and
above it stay. -/
def Memory.putList (m : Memory) (addr : Nat) (bytes : List Byte) : Memory :=
  m.filter (fun c => decide (c.1 < addr)) ++ Memory.cells addr bytes
    ++ m.filter (fun c => decide (addr + bytes.length ≤ c.1))

/-- Addresses strictly rising from lo on, all below 65536. -/
def Memory.wfFrom : Nat → Memory → Bool
  | _, [] => true
  | lo, (a, _) :: m => decide (lo ≤ a) && decide (a < bufSize) && Memory.wfFrom (a + 1) m

/-- The canonical form. An unlisted address holds no listed byte, so no entry can equal it. -/
def Memory.wf (m : Memory) : Bool := Memory.wfFrom 0 m

/-- MemWrite on BUF. -/
def State.putBytes (s : State) (addr : Nat) (bytes : List Byte) : State :=
  { s with buf := Memory.putList s.buf addr bytes }

/-- n bytes that event leaves unspecified, from an address on. -/
def freeBytes (event addr n : Nat) : List Byte :=
  (List.range n).map fun j => Config.freeByte event (addr + j)

/-- BUF[addr .. addr+n-1] <- unspecified (44_int_raw_text.md R161; log 11). -/
def State.putUnspecified (s : State) (addr n : Nat) : State :=
  { s with buf := Memory.putList s.buf addr (freeBytes s.fresh addr n), fresh := s.fresh + 1 }

/-! ## Faults (60_exceptions.md R241) -/

/-- Fault entry: FAULT.VALID <- 1, FAULT.CAUSE <- code, FCMD <- the word, "nothing else". -/
def State.takeFault (s : State) (c : FaultCause) (word : CmdWord) : State :=
  { s with fault := faultWord c, fcmd := word }

/-- A buffer command: the window check of 20_memory.md R56 "before anything else it does after
decode", then the command's own effect. -/
def State.inWindow (s : State) (addr len : Nat) (word : CmdWord) (done : State) : Result :=
  if windowFits addr len then .next done else .next (s.takeFault .bufRange word)

/-! ## Text conventions (44_int_raw_text.md R157) -/

/-- (b): a parse that fails writes STATUS.OK <- 0 and nothing else. -/
def State.parseFailed (s : State) : State := s.setFlag .ok false

/-- A parse of an integer: V[rd] <- the value and OK <- 1, or failure (R157 (b)). -/
def State.parsedInto (s : State) (rd : Reg) : Option Nat → State
  | none => s.parseFailed
  | some x => (s.putV rd x).setFlag .ok true

/-- A parse of a Decimal: V[rd], S[rd] and OK <- 1, or failure (49_dec_cmp_text.md R234). -/
def State.parsedDecInto (s : State) (rd : Reg) : Option (Nat × Nat) → State
  | none => s.parseFailed
  | some xs => ((s.putV rd xs.1).putS rd xs.2).setFlag .ok true

/-- (d): the report of an export: RES <- n and OK <- 1 for n characters written, 0 and 0 for a buffer
too small. -/
def State.exported (s : State) (n : Nat) : State := (s.putRes n).setFlag .ok (decide (0 < n))

/-- A decimal export of total characters (44_int_raw_text.md R161, 45_signed.md R174,
49_dec_cmp_text.md R235): the text and an unspecified rest of the window, or, where cap is too
small, the whole window unspecified. -/
def State.exportText (s : State) (addr cap total : Nat) (text : List Byte) : State :=
  if cap < total then (s.putUnspecified addr cap).exported 0
  else ((s.putBytes addr text).putUnspecified (addr + total) (cap - total)).exported total

/-! ## Reset (70_reset_and_hazards.md R260) -/

/-- The free contents of the V registers after the reset number event, each of W bits (log 4). -/
def freeVFile (W event : Nat) : Vector VCell 16 :=
  Vector.ofFn fun r : Fin 16 => BitVec.ofNat 512 ((Config.freeV event r.val).toNat % 2 ^ W)

/-- The free contents of the S registers after the reset number event (log 4). -/
def freeSFile (event : Nat) : Vector (BitVec 32) 16 :=
  Vector.ofFn fun r : Fin 16 => Config.freeScale event r.val

/-- The host asserts reset: STATUS, RES, FAULT and FCMD are 0, and V, S and BUF hold values nobody
knows, "not required to be the same after two resets" (R261; log 4). -/
def State.assertReset (s : State) : State :=
  { s with
    v := freeVFile s.W s.fresh
    sc := freeSFile s.fresh
    status := 0#32
    res := 0#32
    fault := 0#32
    fcmd := 0#64
    buf := []
    bufEpoch := s.fresh
    fresh := s.fresh + 1 }

end Sys2Proof.Machine
end

