-- ==== Sys2Proof/Machine/Arith.lean ====
section
/-! DEFINITION. Integer arithmetic: ADD, SUB, MUL, MULW, DIV (42_int_arith.md). -/

namespace Sys2Proof.Machine

/-- R121: the sum modulo 2^W. -/
def execAdd (rd ra rb : Reg) (s : State) : Result := .next (s.putV rd (s.u ra + s.u rb))

/-- R122: the difference modulo 2^W. -/
def execSub (rd ra rb : Reg) (s : State) : Result :=
  .next (s.putV rd (bitsW s.W ((s.u ra : Int) - (s.u rb : Int))))

/-- R124: the product modulo 2^W. -/
def execMul (rd ra rb : Reg) (s : State) : Result := .next (s.putV rd (s.u ra * s.u rb))

/-- R125: the product's low half to V[rd], its high half to V[re]; rd = re is Fault(DEST_CONFLICT)
(30_encoding.md R79). -/
def execMulw (rd re ra rb : Reg) (s : State) : Result :=
  if rd = re then .next (s.takeFault .destConflict (encode (.mulw rd re ra rb)))
  else .next ((s.putV rd (s.u ra * s.u rb)).putV re (s.u ra * s.u rb / 2 ^ s.W))

/-- R129 to R131: quotient to V[rd], remainder to V[re], DZ; rd = re is Fault(DEST_CONFLICT)
(30_encoding.md R79). -/
def execDiv (rd re ra rb : Reg) (s : State) : Result :=
  if rd = re then .next (s.takeFault .destConflict (encode (.div rd re ra rb)))
  else
    .next (((s.putV rd (udivQ (s.u ra) (s.u rb))).putV re (udivR (s.u ra) (s.u rb))).setFlag .dz
      (decide (s.u rb = 0)))

end Sys2Proof.Machine
end

