-- ==== Sys2Proof/Machine/Construct.lean ====
section
/-! DEFINITION. Construction: ZERO, ONE, LDW, MOV (41_int_construct.md). -/

namespace Sys2Proof.Machine

/-- R110. -/
def execZero (rd : Reg) (s : State) : Result := .next (s.putV rd 0)

/-- R111. -/
def execOne (rd : Reg) (s : State) : Result := .next (s.putV rd 1)

/-- R112: the immediate, zero-extended. -/
def execLdw (rd : Reg) (imm : Imm) (s : State) : Result := .next (s.putV rd imm.toNat)

/-- R113. -/
def execMov (rd ra : Reg) (s : State) : Result := .next (s.putV rd (s.u ra))

end Sys2Proof.Machine
end

