-- ==== Sys2Proof/Machine/DecArith.lean ====
section
/-! DEFINITION. Decimal add, subtract, multiply: DADD, DSUB, DADDS, DSUBS, DMUL, DMULS
(47_dec_arith.md). -/

namespace Sys2Proof.Machine

/-- The aligned scale t of R195. -/
def State.alignScale (s : State) (ra rb : Reg) : Nat := max (s.scale ra) (s.scale rb)

/-- The operand of register r aligned to scale t (R195). -/
def State.aligned (s : State) (r : Reg) (t : Nat) : Nat := scaleUp s.W (s.u r) (t - s.scale r)

/-- Whether align_checked accepts the operand of register r at scale t (R198). -/
def State.alignOk (s : State) (r : Reg) (t : Nat) : Bool := scaleUpOk s.params (s.u r) (t - s.scale r)

/-- The aligned sum, V and S only (R196). -/
def State.alignedSum (s : State) (rd ra rb : Reg) : State :=
  (s.putV rd (bitsW s.W (signedVal s.W (s.aligned ra (s.alignScale ra rb))
      + signedVal s.W (s.aligned rb (s.alignScale ra rb))))).putS rd (s.alignScale ra rb)

/-- The aligned difference, V and S only (R197). -/
def State.alignedDiff (s : State) (rd ra rb : Reg) : State :=
  (s.putV rd (bitsW s.W (signedVal s.W (s.aligned ra (s.alignScale ra rb))
      - signedVal s.W (s.aligned rb (s.alignScale ra rb))))).putS rd (s.alignScale ra rb)

/-- R196. -/
def execDadd (rd ra rb : Reg) (s : State) : Result := .next (s.alignedSum rd ra rb)

/-- R197. -/
def execDsub (rd ra rb : Reg) (s : State) : Result := .next (s.alignedDiff rd ra rb)

/-- R199. -/
def execDadds (rd ra rb : Reg) (s : State) : Result :=
  if s.alignOk ra (s.alignScale ra rb) && s.alignOk rb (s.alignScale ra rb) then
    .next ((s.alignedSum rd ra rb).setFlag .ok true)
  else .next (s.setFlag .ok false)

/-- R200. -/
def execDsubs (rd ra rb : Reg) (s : State) : Result :=
  if s.alignOk ra (s.alignScale ra rb) && s.alignOk rb (s.alignScale ra rb) then
    .next ((s.alignedDiff rd ra rb).setFlag .ok true)
  else .next (s.setFlag .ok false)

/-- R202. -/
def execDmul (rd ra rb : Reg) (s : State) : Result :=
  .next ((s.putV rd (bitsW s.W (s.sg ra * s.sg rb))).putS rd (scaleSum (s.scale ra) (s.scale rb)))

/-- R203: success iff the exact signed product fits W bits. -/
def execDmuls (rd ra rb : Reg) (s : State) : Result :=
  if fitsSigned s.W (s.sg ra * s.sg rb) then
    .next (((s.putV rd (bitsW s.W (s.sg ra * s.sg rb))).putS rd
      (scaleSum (s.scale ra) (s.scale rb))).setFlag .ok true)
  else .next (s.setFlag .ok false)

end Sys2Proof.Machine
end

