-- ==== Sys2Proof/Machine/DecCmpText.lean ====
section
/-! DEFINITION. Decimal comparison and decimal-with-scale text: DEQ, DLT, LDDCM, STDCM
(49_dec_cmp_text.md). -/

namespace Sys2Proof.Machine

/-- dcmp of the Decimals in two registers (R225). -/
def State.compareDec (s : State) (ra rb : Reg) : Ordering :=
  dcmp s.params.width (s.sg ra) (s.scale ra) (s.sg rb) (s.scale rb)

/-- R226. -/
def execDeq (ra rb : Reg) (s : State) : Result := .next (s.setFlag .t (decide (s.compareDec ra rb = .eq)))

/-- R227. -/
def execDlt (ra rb : Reg) (s : State) : Result := .next (s.setFlag .t (decide (s.compareDec ra rb = .lt)))

/-- R234. -/
def execLddcm (rd : Reg) (addr len : Half) (s : State) : Result :=
  s.inWindow addr.toNat len.toNat (encode (.lddcm rd addr len))
    (s.parsedDecInto rd
      ((parsePoint (2 ^ s.W) 0 false 0 (dropSign (s.window addr.toNat len.toNat))).map fun xs =>
        (applySign s.W (hasMinus (s.window addr.toNat len.toNat)) xs.1, xs.2)))

/-- R235. -/
def execStdcm (ra : Reg) (addr cap : Half) (s : State) : Result :=
  s.inWindow addr.toNat cap.toNat (encode (.stdcm ra addr cap))
    (s.exportText addr.toNat cap.toNat ((s.neg ra).toNat + pointLength (s.mag ra) (s.scale ra))
      (signed (s.neg ra) (pointChars (s.mag ra) (s.scale ra))))

end Sys2Proof.Machine
end

