-- ==== Sys2Proof/Machine/DecDiv.lean ====
section
/-! DEFINITION. Decimal division: DDIVF, DDIVW, DDIVS (48_dec_div.md). -/

namespace Sys2Proof.Machine

/-- e, the decimal digits to generate (R210). -/
def State.divDigits (s : State) (rb : Reg) (imm : Imm) : Nat := scaleSum (s.scale rb) imm.toNat

/-- The writes the three divisions share: V[rd] <- apply_sign(n, q), S[rd] <- sq, DZ (R210, R212,
R214, R217). -/
def State.quotientInto (s : State) (rd ra rb : Reg) (imm : Imm) (q : Nat) : State :=
  ((s.putV rd (applySign s.W (s.neg ra != s.neg rb) q)).putS rd
    (scaleSum (s.scale ra) imm.toNat)).setFlag .dz (decide (s.mag rb = 0))

/-- R212. -/
def execDdivf (rd ra rb : Reg) (imm : Imm) (s : State) : Result :=
  .next (s.quotientInto rd ra rb imm (fastQuotient s.W (s.mag ra) (s.mag rb) (s.divDigits rb imm)))

/-- R214. -/
def execDdivw (rd ra rb : Reg) (imm : Imm) (s : State) : Result :=
  .next (s.quotientInto rd ra rb imm (wideQuotient s.W (s.mag ra) (s.mag rb) (s.divDigits rb imm)))

/-- R217. -/
def execDdivs (rd ra rb : Reg) (imm : Imm) (s : State) : Result :=
  match checkedQuotient s.W (s.mag ra) (s.mag rb) (s.divDigits rb imm) with
  | none => .next (s.setFlag .ok false)
  | some q => .next ((s.quotientInto rd ra rb imm q).setFlag .ok true)

end Sys2Proof.Machine
end

