-- ==== Sys2Proof/Machine/DecScale.lean ====
section
/-! DEFINITION. Decimal scale commands: SSET, SGET, DMOV, DPREC, DPRECS (46_dec_scale.md). -/

namespace Sys2Proof.Machine

/-- R180. -/
def execSset (rd : Reg) (imm : Imm) (s : State) : Result := .next (s.putS rd imm.toNat)

/-- R181. -/
def execSget (ra : Reg) (s : State) : Result := .next (s.putRes (s.scale ra))

/-- R182. -/
def execDmov (rd ra : Reg) (s : State) : Result := .next ((s.putV rd (s.u ra)).putS rd (s.scale ra))

/-- The scale change of R184 and of the success branch of R187: the Decimal of register ra at scale t,
into register rd, with INX. -/
def State.rescale (s : State) (rd ra : Reg) (t : Nat) : State :=
  if s.scale ra < t then
    ((s.putV rd (scaleUp s.W (s.u ra) (t - s.scale ra))).putS rd t).setFlag .inx false
  else if t < s.scale ra then
    ((s.putV rd (scaleDown s.W (s.u ra) (s.scale ra - t))).putS rd t).setFlag .inx
      (scaleDownInx s.W (s.u ra) (s.scale ra - t))
  else ((s.putV rd (s.u ra)).putS rd t).setFlag .inx false

/-- R184. -/
def execDprec (rd ra : Reg) (imm : Imm) (s : State) : Result := .next (s.rescale rd ra imm.toNat)

/-- R187: the scale increase only where the headroom estimate allows it. -/
def execDprecs (rd ra : Reg) (imm : Imm) (s : State) : Result :=
  if s.scale ra < imm.toNat then
    if headroomOk s.params (lzcW s.params (s.mag ra)) (imm.toNat - s.scale ra) then
      .next ((s.rescale rd ra imm.toNat).setFlag .ok true)
    else .next (s.setFlag .ok false)
  else .next ((s.rescale rd ra imm.toNat).setFlag .ok true)

end Sys2Proof.Machine
end

