-- ==== Sys2Proof/Machine/Logic.lean ====
section
/-! DEFINITION. Bitwise, shift, bit access, comparison and introspection commands
(43_int_logic_shift_bit_cmp.md). -/

namespace Sys2Proof.Machine

/-- R135. -/
def execAnd (rd ra rb : Reg) (s : State) : Result := .next (s.putV rd (s.u ra &&& s.u rb))

/-- R136. -/
def execOr (rd ra rb : Reg) (s : State) : Result := .next (s.putV rd (s.u ra ||| s.u rb))

/-- R137. -/
def execXor (rd ra rb : Reg) (s : State) : Result := .next (s.putV rd (s.u ra ^^^ s.u rb))

/-- R138: all W bits are inverted. -/
def execNot (rd ra : Reg) (s : State) : Result := .next (s.putV rd (notW s.W (s.u ra)))

/-- R140. -/
def execShl (rd ra : Reg) (imm : Imm) (s : State) : Result :=
  .next (s.putV rd (shlW s.W (s.u ra) imm.toNat))

/-- R141. -/
def execShr (rd ra : Reg) (imm : Imm) (s : State) : Result :=
  .next (s.putV rd (shrW s.W (s.u ra) imm.toNat))

/-- R144. -/
def execBget (ra : Reg) (imm : Imm) (s : State) : Result :=
  .next (s.setFlag .t (bitAt s.W (s.u ra) imm.toNat))

/-- R145. -/
def execBset (rd ra : Reg) (imm : Imm) (s : State) : Result :=
  .next (s.putV rd (bitSet s.W (s.u ra) imm.toNat))

/-- R146. -/
def execBclr (rd ra : Reg) (imm : Imm) (s : State) : Result :=
  .next (s.putV rd (bitClear s.W (s.u ra) imm.toNat))

/-- R148. -/
def execEq (ra rb : Reg) (s : State) : Result := .next (s.setFlag .t (decide (s.u ra = s.u rb)))

/-- R149: the unsigned order. -/
def execLt (ra rb : Reg) (s : State) : Result := .next (s.setFlag .t (decide (s.u ra < s.u rb)))

/-- R151. -/
def execMsb (ra : Reg) (s : State) : Result := .next (s.putRes (msbW (s.u ra)))

/-- R152. -/
def execLzc (ra : Reg) (s : State) : Result := .next (s.putRes (lzcW s.params (s.u ra)))

end Sys2Proof.Machine
end

