-- ==== Sys2Proof/Machine/RawText.lean ====
section
/-! DEFINITION. Raw bytes and text of the unsigned engine: LDRAW, STRAW, LDHEX, STHEX, LDDEC, STDEC
(44_int_raw_text.md). -/

namespace Sys2Proof.Machine

/-- R155. -/
def execLdraw (rd : Reg) (addr : Half) (s : State) : Result :=
  s.inWindow addr.toNat (s.W / 8) (encode (.ldraw rd addr))
    (s.putV rd (leValue (s.window addr.toNat (s.W / 8))))

/-- R156. -/
def execStraw (ra : Reg) (addr : Half) (s : State) : Result :=
  s.inWindow addr.toNat (s.W / 8) (encode (.straw ra addr))
    (s.putBytes addr.toNat (leBytes (s.u ra) (s.W / 8)))

/-- R158: only the rightmost min(len, W/4) characters are examined. -/
def execLdhex (rd : Reg) (addr len : Half) (s : State) : Result :=
  s.inWindow addr.toNat len.toNat (encode (.ldhex rd addr len))
    (s.parsedInto rd (parseDigits 16 (2 ^ s.W) 0
      ((s.window addr.toNat len.toNat).drop (len.toNat - min len.toNat (s.W / 4)))))

/-- R159: the minimal number of digits, msb/4 + 1; nothing is written to BUF on failure. -/
def execSthex (ra : Reg) (addr cap : Half) (s : State) : Result :=
  s.inWindow addr.toNat cap.toNat (encode (.sthex ra addr cap))
    (if cap.toNat < msbW (s.u ra) / 4 + 1 then s.exported 0
     else (s.putBytes addr.toNat (hexChars (s.u ra) (msbW (s.u ra) / 4 + 1))).exported
       (msbW (s.u ra) / 4 + 1))

/-- R160. -/
def execLddec (rd : Reg) (addr len : Half) (s : State) : Result :=
  s.inWindow addr.toNat len.toNat (encode (.lddec rd addr len))
    (s.parsedInto rd (parseDigits 10 (2 ^ s.W) 0 (s.window addr.toNat len.toNat)))

/-- R161. -/
def execStdec (ra : Reg) (addr cap : Half) (s : State) : Result :=
  s.inWindow addr.toNat cap.toNat (encode (.stdec ra addr cap))
    (s.exportText addr.toNat cap.toNat (ndig (s.u ra)) (decChars (s.u ra)))

end Sys2Proof.Machine
end

