-- ==== Sys2Proof/Machine/Signed.lean ====
section
/-! DEFINITION. The signed interpretation layer: NEG, ABS, SLT, LDSDEC, STSDEC (45_signed.md). -/

namespace Sys2Proof.Machine

/-- R170. -/
def execNeg (rd ra : Reg) (s : State) : Result := .next (s.putV rd (negW s.W (s.u ra)))

/-- R171. -/
def execAbs (rd ra : Reg) (s : State) : Result := .next ((s.putV rd (s.mag ra)).setFlag .neg (s.neg ra))

/-- R172: the signed order. -/
def execSlt (ra rb : Reg) (s : State) : Result := .next (s.setFlag .t (decide (s.sg ra < s.sg rb)))

/-- R173: an optional leading sign, digits, the negation last. -/
def execLdsdec (rd : Reg) (addr len : Half) (s : State) : Result :=
  s.inWindow addr.toNat len.toNat (encode (.ldsdec rd addr len))
    (s.parsedInto rd ((parseDigits 10 (2 ^ s.W) 0 (dropSign (s.window addr.toNat len.toNat))).map
      (applySign s.W (hasMinus (s.window addr.toNat len.toNat)))))

/-- R174: STDEC on the magnitude, with '-' in front of a negative value. -/
def execStsdec (ra : Reg) (addr cap : Half) (s : State) : Result :=
  s.inWindow addr.toNat cap.toNat (encode (.stsdec ra addr cap))
    (s.exportText addr.toNat cap.toNat ((s.neg ra).toNat + ndig (s.mag ra))
      (signed (s.neg ra) (decChars (s.mag ra))))

end Sys2Proof.Machine
end

