-- ==== Sys2Proof/Machine/Dispatch.lean ====
section
/-! DEFINITION. One arm per command (30_encoding.md R76), each one call of its meaning. -/

namespace Sys2Proof.Machine

def exec (i : Instr) (s : State) : Host.Outcome State Fault Refusal :=
  match i with
  | .zero rd => Sys2Proof.Machine.execZero rd s
  | .one rd => Sys2Proof.Machine.execOne rd s
  | .ldw rd imm => Sys2Proof.Machine.execLdw rd imm s
  | .mov rd ra => Sys2Proof.Machine.execMov rd ra s
  | .add rd ra rb => Sys2Proof.Machine.execAdd rd ra rb s
  | .sub rd ra rb => Sys2Proof.Machine.execSub rd ra rb s
  | .mul rd ra rb => Sys2Proof.Machine.execMul rd ra rb s
  | .mulw rd re ra rb => Sys2Proof.Machine.execMulw rd re ra rb s
  | .div rd re ra rb => Sys2Proof.Machine.execDiv rd re ra rb s
  | .and rd ra rb => Sys2Proof.Machine.execAnd rd ra rb s
  | .or rd ra rb => Sys2Proof.Machine.execOr rd ra rb s
  | .xor rd ra rb => Sys2Proof.Machine.execXor rd ra rb s
  | .not rd ra => Sys2Proof.Machine.execNot rd ra s
  | .shl rd ra imm => Sys2Proof.Machine.execShl rd ra imm s
  | .shr rd ra imm => Sys2Proof.Machine.execShr rd ra imm s
  | .bget ra imm => Sys2Proof.Machine.execBget ra imm s
  | .bset rd ra imm => Sys2Proof.Machine.execBset rd ra imm s
  | .bclr rd ra imm => Sys2Proof.Machine.execBclr rd ra imm s
  | .eq ra rb => Sys2Proof.Machine.execEq ra rb s
  | .lt ra rb => Sys2Proof.Machine.execLt ra rb s
  | .msb ra => Sys2Proof.Machine.execMsb ra s
  | .lzc ra => Sys2Proof.Machine.execLzc ra s
  | .ldraw rd addr => Sys2Proof.Machine.execLdraw rd addr s
  | .straw ra addr => Sys2Proof.Machine.execStraw ra addr s
  | .ldhex rd addr len => Sys2Proof.Machine.execLdhex rd addr len s
  | .sthex ra addr cap => Sys2Proof.Machine.execSthex ra addr cap s
  | .lddec rd addr len => Sys2Proof.Machine.execLddec rd addr len s
  | .stdec ra addr cap => Sys2Proof.Machine.execStdec ra addr cap s
  | .neg rd ra => Sys2Proof.Machine.execNeg rd ra s
  | .abs rd ra => Sys2Proof.Machine.execAbs rd ra s
  | .slt ra rb => Sys2Proof.Machine.execSlt ra rb s
  | .ldsdec rd addr len => Sys2Proof.Machine.execLdsdec rd addr len s
  | .stsdec ra addr cap => Sys2Proof.Machine.execStsdec ra addr cap s
  | .sset rd imm => Sys2Proof.Machine.execSset rd imm s
  | .sget ra => Sys2Proof.Machine.execSget ra s
  | .dmov rd ra => Sys2Proof.Machine.execDmov rd ra s
  | .dprec rd ra imm => Sys2Proof.Machine.execDprec rd ra imm s
  | .dprecs rd ra imm => Sys2Proof.Machine.execDprecs rd ra imm s
  | .dadd rd ra rb => Sys2Proof.Machine.execDadd rd ra rb s
  | .dsub rd ra rb => Sys2Proof.Machine.execDsub rd ra rb s
  | .dadds rd ra rb => Sys2Proof.Machine.execDadds rd ra rb s
  | .dsubs rd ra rb => Sys2Proof.Machine.execDsubs rd ra rb s
  | .dmul rd ra rb => Sys2Proof.Machine.execDmul rd ra rb s
  | .dmuls rd ra rb => Sys2Proof.Machine.execDmuls rd ra rb s
  | .ddivf rd ra rb imm => Sys2Proof.Machine.execDdivf rd ra rb imm s
  | .ddivw rd ra rb imm => Sys2Proof.Machine.execDdivw rd ra rb imm s
  | .ddivs rd ra rb imm => Sys2Proof.Machine.execDdivs rd ra rb imm s
  | .deq ra rb => Sys2Proof.Machine.execDeq ra rb s
  | .dlt ra rb => Sys2Proof.Machine.execDlt ra rb s
  | .lddcm rd addr len => Sys2Proof.Machine.execLddcm rd addr len s
  | .stdcm ra addr cap => Sys2Proof.Machine.execStdcm ra addr cap s

end Sys2Proof.Machine
end

