-- ==== Sys2Proof/Machine/HostPort.lean ====
section
/-! DEFINITION. The host's actions between commands (60_exceptions.md R252; 10_state.md R35) and what
the engine does with a command word before it executes it (30_encoding.md R80). -/

namespace Sys2Proof.Machine

/-- The value a port read returns (10_state.md R35). -/
def State.portValue (s : State) : Port → BitVec 64
  | .status => s.status.setWidth 64
  | .res => s.res.setWidth 64
  | .fault => s.fault.setWidth 64
  | .fcmd => s.fcmd

/-- The host reads a port: "returns the register; no side effect" (R252). -/
def State.hostRead (s : State) (p : Port) : State := { s with readback := s.portValue p :: s.readback }

/-- The host reads a BUF byte (R252). -/
def State.hostReadBuf (s : State) (a : Half) : State :=
  { s with readback := (s.bufByte a.toNat).setWidth 64 :: s.readback }

/-- The host writes a BUF byte: "BUF[a] <- the byte; no other effect" (R252). -/
def State.hostWriteBuf (s : State) (a : Half) (b : Byte) : State := s.putBytes a.toNat [b]

/-- What becomes of the state at a step: all of it is done, or a decoded command is to execute. -/
inductive Advance where
  | settled (t : State)
  | run (i : Instr) (t : State)
deriving DecidableEq, Repr

/-- A word written to CMD, steps 1 to 4 of 30_encoding.md R80: discarded while the engine is halted
(60_exceptions.md R242), else decoded, and a fault of the decoder is taken (R241). -/
def State.acceptWord (s : State) (w : CmdWord) : Advance :=
  if s.halted then .settled s
  else
    match decodeWord w with
    | .command i => .run i s
    | .fault c => .settled (s.takeFault c w)

/-- One host action on the state it finds. -/
def State.hostAct (s : State) : HostAction → Advance
  | .writeCmd w => s.acceptWord w
  | .readPort p => .settled (s.hostRead p)
  | .readBuf a => .settled (s.hostReadBuf a)
  | .writeBuf a b => .settled (s.hostWriteBuf a b)
  | .assertReset => .settled s.assertReset

/-- The host's next action, removed from the pending ones; with none pending the engine "waits"
(70_reset_and_hazards.md R260; log 8). -/
def State.advance (s : State) : Advance :=
  match s.inbox with
  | [] => .settled s
  | act :: rest => { s with inbox := rest }.hostAct act

/-- The host has the actions still to do first. -/
def State.withPending (s : State) (acts : List HostAction) : State := { s with inbox := acts ++ s.inbox }

end Sys2Proof.Machine
end

