-- ==== Sys2Proof/Machine/Step.lean ====
section
/-! DEFINITION. One step: the host's next action, and the command it starts, as one atomic step
(00_scope.md R8). -/

namespace Sys2Proof.Machine

def step (s : State) : Host.Outcome State Fault Refusal :=
  match s.advance with
  | .settled t => .next t
  | .run i t => exec i t

/-- s with the word as the host's next action, a write to CMD: there is no other place a command
comes from (10_state.md R24; 20_memory.md R63; log 8). -/
def State.withFetchWord (s : State) (nbits w : Nat) : State :=
  s.withPending [.writeCmd (BitVec.ofNat 64 (w % 2 ^ nbits))]

end Sys2Proof.Machine
end

