-- ==== Sys2Proof/Machine/Cells.lean ====
section
/-! DEFINITION. The cell primitives (40_primitives.md R93 to R97) and the cell-level algorithms the
spec transcribes: ripple add and subtract (42_int_arith.md R123), schoolbook multiply (R126),
restoring division (R130), cellwise logic, cell-split shifts and top-down comparison
(43_int_logic_shift_bit_cmp.md R139, R142, R147), the bit scan (40_primitives.md R98). "Only that
function is architectural" (R126): no command calls them; statements say that they compute the
functions the commands do call. C is the cell width and N the cell count, "no result depends on C"
(00_scope.md R6); a cell is a natural number below 2^C. -/

namespace Sys2Proof.Machine

/-! ## Cells of a value (00_scope.md R10) -/

/-- cell(v, i). -/
def cellOf (C v i : Nat) : Nat := v / 2 ^ (C * i) % 2 ^ C

/-- The N cells of v, "least-significant cell at index 0". -/
def toCells (C N v : Nat) : List Nat := (List.range N).map (cellOf C v)

/-- The value of a list of cells. -/
def ofCells (C : Nat) : List Nat → Nat
  | [] => 0
  | c :: cs => c + 2 ^ C * ofCells C cs

/-! ## Primitives (R93 to R97) -/

/-- R93: the sum cell and the carry out. -/
def cellAdd (C a b cin : Nat) : Nat × Nat := ((a + b + cin) % 2 ^ C, (a + b + cin) / 2 ^ C)

/-- R94: the difference cell and the borrow out. -/
def cellSub (C a b bin : Nat) : Nat × Nat :=
  (bitsW C ((a : Int) - (b : Int) - (bin : Int)), if (a : Int) - (b : Int) - (bin : Int) < 0 then 1 else 0)

/-- R95: (hi, lo) with w = hi * 2^p + lo. -/
def cellSplit (w p : Nat) : Nat × Nat := (w / 2 ^ p, w % 2 ^ p)

/-- R96: (high cell, low cell) of the product. -/
def cellMul (C a b : Nat) : Nat × Nat := (a * b / 2 ^ C, a * b % 2 ^ C)

/-- R97. -/
def cellMsb (w : Nat) : Nat := Nat.log2 w

/-! ## Add and subtract (R123) -/

def rippleAdd (C : Nat) : List Nat → List Nat → Nat → List Nat
  | a :: as, b :: bs, c => (cellAdd C a b c).1 :: rippleAdd C as bs (cellAdd C a b c).2
  | _, _, _ => []

def rippleSub (C : Nat) : List Nat → List Nat → Nat → List Nat
  | a :: as, b :: bs, c => (cellSub C a b c).1 :: rippleSub C as bs (cellSub C a b c).2
  | _, _, _ => []

/-- ADD by cells; the final carry is discarded. -/
def addByCells (C N a b : Nat) : Nat := ofCells C (rippleAdd C (toCells C N a) (toCells C N b) 0)

/-- SUB by cells; the final borrow is discarded. -/
def subByCells (C N a b : Nat) : Nat := ofCells C (rippleSub C (toCells C N a) (toCells C N b) 0)

/-! ## Multiply (R126) -/

/-- The result cells and the deferred second carries. -/
structure MulAcc where
  res : List Nat
  aux : List Nat
deriving DecidableEq, Repr

/-- The body of R126's loop for one pair (i, j). -/
def mulPair (C R a b : Nat) (acc : MulAcc) (ij : Nat × Nat) : MulAcc :=
  let k := ij.1 + ij.2
  if R ≤ k then acc
  else
    let p := cellMul C (cellOf C a ij.1) (cellOf C b ij.2)
    let low := cellAdd C (acc.res.getD k 0) p.2 0
    let res := acc.res.set k low.1
    if k + 1 < R then
      let high := cellAdd C (res.getD (k + 1) 0) p.1 low.2
      { res := res.set (k + 1) high.1
        aux := if k + 2 < R then acc.aux.set (k + 2) (acc.aux.getD (k + 2) 0 + high.2) else acc.aux }
    else { acc with res := res }

/-- The pairs (i, j) of R126's two loops. -/
def cellPairs (N : Nat) : List (Nat × Nat) :=
  (List.range N).flatMap fun i => (List.range N).map fun j => (i, j)

/-- Schoolbook multiply into R cells: N for MUL, 2N for MULW. -/
def mulByCells (C N R a b : Nat) : Nat :=
  let acc := (cellPairs N).foldl (mulPair C R a b) ⟨List.replicate R 0, List.replicate R 0⟩
  (ofCells C acc.res + ofCells C acc.aux) % 2 ^ (R * C)

/-! ## Divide (R130) -/

/-- The loop for positions n-1 down to 0: shifted divisor, quotient, remainder. -/
def restoringLoop : Nat → Nat → Nat → Nat → Nat × Nat
  | 0, _, q, r => (q, r)
  | pos + 1, sd, q, r =>
    if sd ≤ r then restoringLoop pos (sd / 2) (q ||| 2 ^ pos) (r - sd)
    else restoringLoop pos (sd / 2) q r

/-- Restoring bit-by-bit long division. -/
def restoringDiv (W a b : Nat) : Nat × Nat :=
  if msbW a < msbW b then (0, a)
  else restoringLoop (msbW a - msbW b + 1) (b * 2 ^ (msbW a - msbW b) % 2 ^ W) 0 a

/-! ## Logic, shifts, comparison, scan -/

/-- R139: "result cell i is the operation on cell i of each operand". -/
def bitwiseByCells (f : Nat → Nat → Nat) (C N a b : Nat) : Nat :=
  ofCells C (List.zipWith f (toCells C N a) (toCells C N b))

/-- OR into a destination cell; "a destination index outside 0 .. N-1 receives nothing". -/
def orInto (N : Nat) (dst : List Nat) (k x : Nat) : List Nat :=
  if k < N then dst.set k (dst.getD k 0 ||| x) else dst

/-- R142, left. -/
def shlByCells (C N a n : Nat) : Nat :=
  ofCells C ((List.range N).foldl (fun dst i =>
    let s := cellSplit (cellOf C a i) (C - n % C)
    orInto N (orInto N dst (i + n / C) (s.2 * 2 ^ (n % C))) (i + n / C + 1) s.1) (List.replicate N 0))

/-- R142, right. -/
def shrByCells (C N a n : Nat) : Nat :=
  ofCells C ((List.range N).foldl (fun dst i =>
    let s := cellSplit (cellOf C a i) (n % C)
    let dst1 := if n / C ≤ i then orInto N dst (i - n / C) s.1 else dst
    if n / C + 1 ≤ i then orInto N dst1 (i - n / C - 1) (s.2 * 2 ^ (C - n % C)) else dst1)
    (List.replicate N 0))

/-- R147 on the cells below index n, from the top down: (eq, lt). -/
def cmpScan (C a b : Nat) : Nat → Bool × Bool
  | 0 => (true, false)
  | i + 1 =>
    if cellOf C a i = cellOf C b i then cmpScan C a b i
    else (false, decide (cellOf C a i < cellOf C b i))

/-- R98 on the cells below index n, from the top down. -/
def msbScan (C v : Nat) : Nat → Nat
  | 0 => 0
  | i + 1 => if cellOf C v i = 0 then msbScan C v i else i * C + cellMsb (cellOf C v i)

end Sys2Proof.Machine
end

