-- ==== Sys2Proof/Machine/Staged.lean ====
section
/-! DEFINITION. The stepping of a scale change (46_dec_scale.md R185) and the staged comparison
(49_dec_cmp_text.md R228 to R232), "the hardware's way to the result" and "not itself
architectural": no command calls them; statements say that they compute the functions the commands
do call. -/

namespace Sys2Proof.Machine

/-! ## Stepping (R185) -/

/-- Steps of x1000, x100, x10 by R185's case table, each modulo 2^W. -/
def stepUp (W : Nat) : Nat → Nat → Nat
  | 0, m => m
  | 1, m => m * 10 % 2 ^ W
  | 2, m => m * 100 % 2 ^ W
  | k + 3, m => stepUp W k (m * 1000 % 2 ^ W)

/-- Steps of /1000, /100, /10: the quotient, and whether a step's remainder was not zero. -/
def stepDown : Nat → Nat → Nat × Bool
  | 0, m => (m, false)
  | 1, m => (m / 10, decide (m % 10 ≠ 0))
  | 2, m => (m / 100, decide (m % 100 ≠ 0))
  | k + 3, m => ((stepDown k (m / 1000)).1, decide (m % 1000 ≠ 0) || (stepDown k (m / 1000)).2)

/-! ## Staged comparison (R228 to R232) -/

/-- Stage 2's class: negative, zero, positive, ordered -1 < 0 < 1 (R229). -/
def signClass (W v : Nat) : Int := if topBit W v then -1 else if v = 0 then 0 else 1

/-- The lower end of the order-of-magnitude interval (R230). -/
def magLow (m sc : Nat) : Int := ((msbW m * 30102 / 100000 : Nat) : Int) - (sc : Int)

/-- The upper end of the order-of-magnitude interval (R230). -/
def magHigh (m sc : Nat) : Int := (((msbW m + 1) * 30103 / 100000 : Nat) : Int) + 1 - (sc : Int)

/-- Stage 5 for magnitudes with sa > sb: truncate the first to scale sb, the discarded remainder
breaking a tie (R232). -/
def truncCompare (W ma mb k : Nat) : Ordering :=
  if divPow10 W ma k < mb then .lt
  else if mb < divPow10 W ma k then .gt
  else if modPow10NeZero W ma k then .gt else .eq

/-- Stages 3 to 5 on the magnitudes of two nonzero values of one sign (R230 to R232). -/
def magCompare (p : Params) (va sa vb sb : Nat) : Ordering :=
  let W := p.width.bits
  let ma := magW W va
  let mb := magW W vb
  let t := max sa sb
  if magHigh ma sa ≤ magLow mb sb then .lt
  else if magHigh mb sb ≤ magLow ma sa then .gt
  else if scaleUpOk p va (t - sa) && scaleUpOk p vb (t - sb) then
    compare (mulPow10 W ma (t - sa)) (mulPow10 W mb (t - sb))
  else if sb < sa then truncCompare W ma mb (sa - sb)
  else (truncCompare W mb ma (sb - sa)).swap

/-- The five stages on the patterns va, vb at scales sa, sb. -/
def stagedCompare (p : Params) (va sa vb sb : Nat) : Ordering :=
  let W := p.width.bits
  if sa = sb then compare (signedVal W va) (signedVal W vb)
  else if signClass W va ≠ signClass W vb then compare (signClass W va) (signClass W vb)
  else if va = 0 then .eq
  else if topBit W va then (magCompare p va sa vb sb).swap
  else magCompare p va sa vb sb

end Sys2Proof.Machine
end

