-- ==== Sys2Proof/Safety.lean ====
section
/-! DEFINITION. The terms claims are stated in: what a command may write, what stays, the invariant of
the state, and the number a Decimal denotes. -/

namespace Sys2Proof.Machine

/-! ## What a command writes -/

/-- The locations of a "Writes" list (00_scope.md R9): V and S registers, flags, RES, and a run of
BUF bytes. -/
structure Writes where
  v : List Reg := []
  sc : List Reg := []
  flags : List Flag := []
  res : Bool := false
  bufAddr : Nat := 0
  bufLen : Nat := 0
deriving DecidableEq, Repr

/-- From s to t nothing changed except the listed locations: "everything else keeps its value"
(00_scope.md R9). FAULT, FCMD, the parameters, the reserved bits of STATUS and the host's own fields
never are among them. (fresh is the model's own counter, log 10.) -/
def Unchanged (w : Writes) (s t : State) : Prop :=
  t.params = s.params ∧ t.fault = s.fault ∧ t.fcmd = s.fcmd
    ∧ t.inbox = s.inbox ∧ t.readback = s.readback
    ∧ (∀ r : Reg, r ∉ w.v → t.v.get r = s.v.get r)
    ∧ (∀ r : Reg, r ∉ w.sc → t.sc.get r = s.sc.get r)
    ∧ (∀ f : Flag, f ∉ w.flags → t.flag f = s.flag f)
    ∧ (∀ i : Nat, 5 ≤ i → t.status.getLsbD i = s.status.getLsbD i)
    ∧ (w.res = false → t.res = s.res)
    ∧ (∀ a : Nat, ¬(w.bufAddr ≤ a ∧ a < w.bufAddr + w.bufLen) → t.bufByte a = s.bufByte a)

/-- How a command uses BUF (20_memory.md R50). -/
inductive BufUse where
  | untouched
  | reads
  | writes
deriving DecidableEq, Repr

def bufUse : Instr → BufUse
  | .ldraw _ _ | .ldhex _ _ _ | .lddec _ _ _ | .ldsdec _ _ _ | .lddcm _ _ _ => .reads
  | .straw _ _ | .sthex _ _ _ | .stdec _ _ _ | .stsdec _ _ _ | .stdcm _ _ _ => .writes
  | .zero _ | .one _ | .ldw _ _ | .mov _ _ | .add _ _ _ | .sub _ _ _ | .mul _ _ _
  | .mulw _ _ _ _ | .div _ _ _ _ | .and _ _ _ | .or _ _ _ | .xor _ _ _ | .not _ _ | .shl _ _ _
  | .shr _ _ _ | .bget _ _ | .bset _ _ _ | .bclr _ _ _ | .eq _ _ | .lt _ _ | .msb _ | .lzc _
  | .neg _ _ | .abs _ _ | .slt _ _ | .sset _ _ | .sget _ | .dmov _ _ | .dprec _ _ _
  | .dprecs _ _ _ | .dadd _ _ _ | .dsub _ _ _ | .dadds _ _ _ | .dsubs _ _ _ | .dmul _ _ _
  | .dmuls _ _ _ | .ddivf _ _ _ _ | .ddivw _ _ _ _ | .ddivs _ _ _ _ | .deq _ _ | .dlt _ _ =>
    .untouched

/-- The window of a buffer command, its first address and its length (30_encoding.md R74;
20_memory.md R50); none for every other command. -/
def windowOf (W : Nat) : Instr → Option (Nat × Nat)
  | .ldraw _ addr | .straw _ addr => some (addr.toNat, W / 8)
  | .ldhex _ addr len | .lddec _ addr len | .ldsdec _ addr len | .lddcm _ addr len
  | .sthex _ addr len | .stdec _ addr len | .stsdec _ addr len | .stdcm _ addr len =>
    some (addr.toNat, len.toNat)
  | .zero _ | .one _ | .ldw _ _ | .mov _ _ | .add _ _ _ | .sub _ _ _ | .mul _ _ _
  | .mulw _ _ _ _ | .div _ _ _ _ | .and _ _ _ | .or _ _ _ | .xor _ _ _ | .not _ _ | .shl _ _ _
  | .shr _ _ _ | .bget _ _ | .bset _ _ _ | .bclr _ _ _ | .eq _ _ | .lt _ _ | .msb _ | .lzc _
  | .neg _ _ | .abs _ _ | .slt _ _ | .sset _ _ | .sget _ | .dmov _ _ | .dprec _ _ _
  | .dprecs _ _ _ | .dadd _ _ _ | .dsub _ _ _ | .dadds _ _ _ | .dsubs _ _ _ | .dmul _ _ _
  | .dmuls _ _ _ | .ddivf _ _ _ _ | .ddivw _ _ _ _ | .ddivs _ _ _ _ | .deq _ _ | .dlt _ _ => none

/-- The "Writes" list of each command's rule, as it completes without a fault. A command that writes
less in some case (a failed parse, a refused checked command) writes a part of its list. -/
def writesOf (i : Instr) (s : State) : Writes :=
  match i with
  | .zero rd | .one rd | .ldw rd _ | .mov rd _ | .add rd _ _ | .sub rd _ _ | .mul rd _ _
  | .and rd _ _ | .or rd _ _ | .xor rd _ _ | .not rd _ | .shl rd _ _ | .shr rd _ _
  | .bset rd _ _ | .bclr rd _ _ | .neg rd _ | .ldraw rd _ => { v := [rd] }
  | .mulw rd re _ _ => { v := [rd, re] }
  | .div rd re _ _ => { v := [rd, re], flags := [.dz] }
  | .bget _ _ | .eq _ _ | .lt _ _ | .slt _ _ | .deq _ _ | .dlt _ _ => { flags := [.t] }
  | .msb _ | .lzc _ | .sget _ => { res := true }
  | .straw _ addr => { bufAddr := addr.toNat, bufLen := s.W / 8 }
  | .ldhex rd _ _ | .lddec rd _ _ | .ldsdec rd _ _ => { v := [rd], flags := [.ok] }
  | .sthex ra addr _ =>
    { flags := [.ok], res := true, bufAddr := addr.toNat, bufLen := msbW (s.u ra) / 4 + 1 }
  | .stdec _ addr cap | .stsdec _ addr cap | .stdcm _ addr cap =>
    { flags := [.ok], res := true, bufAddr := addr.toNat, bufLen := cap.toNat }
  | .abs rd _ => { v := [rd], flags := [.neg] }
  | .sset rd _ => { sc := [rd] }
  | .dmov rd _ | .dadd rd _ _ | .dsub rd _ _ | .dmul rd _ _ => { v := [rd], sc := [rd] }
  | .dprec rd _ _ => { v := [rd], sc := [rd], flags := [.inx] }
  | .dprecs rd _ _ => { v := [rd], sc := [rd], flags := [.inx, .ok] }
  | .dadds rd _ _ | .dsubs rd _ _ | .dmuls rd _ _ => { v := [rd], sc := [rd], flags := [.ok] }
  | .ddivf rd _ _ _ | .ddivw rd _ _ _ => { v := [rd], sc := [rd], flags := [.dz] }
  | .ddivs rd _ _ _ => { v := [rd], sc := [rd], flags := [.dz, .ok] }
  | .lddcm rd _ _ => { v := [rd], sc := [rd], flags := [.ok] }

/-- The integer and signed commands, those of files 41 to 45 (10_state.md R23). -/
def isIntegerCommand : Instr → Bool
  | .sset _ _ | .sget _ | .dmov _ _ | .dprec _ _ _ | .dprecs _ _ _ | .dadd _ _ _ | .dsub _ _ _
  | .dadds _ _ _ | .dsubs _ _ _ | .dmul _ _ _ | .dmuls _ _ _ | .ddivf _ _ _ _ | .ddivw _ _ _ _
  | .ddivs _ _ _ _ | .deq _ _ | .dlt _ _ | .lddcm _ _ _ | .stdcm _ _ _ => false
  | .zero _ | .one _ | .ldw _ _ | .mov _ _ | .add _ _ _ | .sub _ _ _ | .mul _ _ _
  | .mulw _ _ _ _ | .div _ _ _ _ | .and _ _ _ | .or _ _ _ | .xor _ _ _ | .not _ _ | .shl _ _ _
  | .shr _ _ _ | .bget _ _ | .bset _ _ _ | .bclr _ _ _ | .eq _ _ | .lt _ _ | .msb _ | .lzc _
  | .ldraw _ _ | .straw _ _ | .ldhex _ _ _ | .sthex _ _ _ | .lddec _ _ _ | .stdec _ _ _
  | .neg _ _ | .abs _ _ | .slt _ _ | .ldsdec _ _ _ | .stsdec _ _ _ => true

/-! ## Encodings and faults -/

/-- The "Encoding" clause of a command's rule: the op value of its word, and its format. -/
def EncodedAs (i : Instr) (op : BitVec 8) (f : Format) : Prop := fieldOp (encode i) = op ∧ i.format = f

/-- The 51 op values of the table of 30_encoding.md R76. -/
def listedOps : List Nat :=
  [0x10, 0x11, 0x12, 0x13] ++ [0x20, 0x21, 0x22, 0x23, 0x24]
    ++ [0x30, 0x31, 0x32, 0x33, 0x34, 0x35, 0x36, 0x37, 0x38] ++ [0x40, 0x41, 0x42, 0x43]
    ++ [0x50, 0x51, 0x52, 0x53, 0x54, 0x55] ++ [0x60, 0x61, 0x62, 0x63, 0x64]
    ++ [0x70, 0x71, 0x72, 0x73, 0x74] ++ [0x80, 0x81, 0x82, 0x83, 0x84, 0x85]
    ++ [0x88, 0x89, 0x8A] ++ [0x90, 0x91, 0x92, 0x93]

/-- A bit that must be 0 is not (30_encoding.md R78), for a word whose op selects i. -/
def ReservedSet (i : Instr) (w : CmdWord) : Prop :=
  fieldZero w ≠ 0#8
    ∨ (i.format.usesRd = false ∧ fieldRd w ≠ 0) ∨ (i.format.usesRe = false ∧ fieldRe w ≠ 0)
    ∨ (i.format.usesRa = false ∧ fieldRa w ≠ 0) ∨ (i.format.usesRb = false ∧ fieldRb w ≠ 0)
    ∨ (i.format.usesImm = false ∧ fieldImm w ≠ 0#32)
    ∨ (i.opcode = 0x50#8 ∧ immLen (fieldImm w) ≠ 0#16)
    ∨ (i.opcode = 0x51#8 ∧ immLen (fieldImm w) ≠ 0#16)

/-- From s to t a fault of this code was taken for this word, and nothing else happened
(60_exceptions.md R241): VALID is 1, CAUSE the code, the other bits of FAULT 0. -/
def Faulted (s t : State) (code : Nat) (w : CmdWord) : Prop :=
  t.fault = BitVec.ofNat 32 (16 * code + 1) ∧ t.fcmd = w
    ∧ t.v = s.v ∧ t.sc = s.sc ∧ t.status = s.status ∧ t.res = s.res
    ∧ t.buf = s.buf ∧ t.bufEpoch = s.bufEpoch ∧ t.fresh = s.fresh
    ∧ t.params = s.params ∧ t.inbox = s.inbox ∧ t.readback = s.readback

/-- The flags a command writes, from the column "written by" of 10_state.md R25. -/
def flagsOf : Instr → List Flag
  | .ldhex _ _ _ | .sthex _ _ _ | .lddec _ _ _ | .stdec _ _ _ | .ldsdec _ _ _ | .stsdec _ _ _
  | .lddcm _ _ _ | .stdcm _ _ _ | .dadds _ _ _ | .dsubs _ _ _ | .dmuls _ _ _ => [.ok]
  | .dprecs _ _ _ => [.ok, .inx]
  | .ddivs _ _ _ _ => [.ok, .dz]
  | .eq _ _ | .lt _ _ | .slt _ _ | .deq _ _ | .dlt _ _ | .bget _ _ => [.t]
  | .abs _ _ => [.neg]
  | .dprec _ _ _ => [.inx]
  | .div _ _ _ _ | .ddivf _ _ _ _ | .ddivw _ _ _ _ => [.dz]
  | .zero _ | .one _ | .ldw _ _ | .mov _ _ | .add _ _ _ | .sub _ _ _ | .mul _ _ _
  | .mulw _ _ _ _ | .and _ _ _ | .or _ _ _ | .xor _ _ _ | .not _ _ | .shl _ _ _ | .shr _ _ _
  | .bset _ _ _ | .bclr _ _ _ | .msb _ | .lzc _ | .ldraw _ _ | .straw _ _ | .neg _ _ | .sset _ _
  | .sget _ | .dmov _ _ | .dadd _ _ _ | .dsub _ _ _ | .dmul _ _ _ => []

/-- The checked commands that may refuse and then write OK alone (10_state.md R26). -/
def mayRefuse : Instr → Bool
  | .dprecs _ _ _ | .dadds _ _ _ | .dsubs _ _ _ | .dmuls _ _ _ | .ddivs _ _ _ _ => true
  | .zero _ | .one _ | .ldw _ _ | .mov _ _ | .add _ _ _ | .sub _ _ _ | .mul _ _ _
  | .mulw _ _ _ _ | .div _ _ _ _ | .and _ _ _ | .or _ _ _ | .xor _ _ _ | .not _ _ | .shl _ _ _
  | .shr _ _ _ | .bget _ _ | .bset _ _ _ | .bclr _ _ _ | .eq _ _ | .lt _ _ | .msb _ | .lzc _
  | .ldraw _ _ | .straw _ _ | .ldhex _ _ _ | .sthex _ _ _ | .lddec _ _ _ | .stdec _ _ _
  | .neg _ _ | .abs _ _ | .slt _ _ | .ldsdec _ _ _ | .stsdec _ _ _ | .sset _ _ | .sget _
  | .dmov _ _ | .dprec _ _ _ | .dadd _ _ _ | .dsub _ _ _ | .dmul _ _ _ | .ddivf _ _ _ _
  | .ddivw _ _ _ _ | .deq _ _ | .dlt _ _ | .lddcm _ _ _ | .stdcm _ _ _ => false

/-- The command is not rejected: its destinations differ (30_encoding.md R79) and its window, if it
has one, lies in BUF (20_memory.md R56). -/
def Accepted (i : Instr) (s : State) : Prop :=
  i.destsDiffer = true ∧ ∀ an : Nat × Nat, windowOf s.W i = some an → an.1 + an.2 ≤ 65536

/-! ## Invariants -/

/-- The invariant of the state: every V register has W bits (10_state.md R20), BUF is in its
canonical form, LZC_OF_ZERO is in its range (00_scope.md R7), STATUS[31:5] reads as zero (10_state.md
R25), and the epoch of BUF is an event of the past. -/
structure State.Inv (s : State) : Prop where
  vWidth : ∀ r : Reg, (s.v.get r).toNat < 2 ^ s.W
  bufCanonical : Memory.wf s.buf = true
  paramsOk : s.params.ok = true
  statusReserved : ∀ i : Nat, 5 ≤ i → s.status.getLsbD i = false
  epochPast : s.bufEpoch < s.fresh

/-- FAULT and FCMD tell the truth (10_state.md R33, R34; 60_exceptions.md R240, R241): no fault and no
word, or a cause and the very word that has it. -/
def State.FaultExplained (s : State) : Prop :=
  (s.fault = 0#32 ∧ s.fcmd = 0#64)
    ∨ (∃ c : FaultCause, s.fault = faultWord c ∧ decodeWord s.fcmd = .fault c)
    ∨ (s.fault = faultWord .bufRange ∧ ∃ i : Instr, ∃ an : Nat × Nat,
        decodeWord s.fcmd = .command i ∧ windowOf s.W i = some an ∧ bufSize < an.1 + an.2)

/-! ## Numbers -/

/-- den(v, sc) = s(v) * 10^(-sc) (00_scope.md R12). -/
def denotes (x : Int) (sc : Nat) : ℚ := (x : ℚ) / (10 : ℚ) ^ sc

/-- x lies in the signed range of W bits, -2^(W-1) .. 2^(W-1) - 1 (00_scope.md R11). -/
def InSigned (W : Nat) (x : Int) : Prop := -(2 : Int) ^ (W - 1) ≤ x ∧ x < (2 : Int) ^ (W - 1)

/-- A rational truncated toward zero. -/
def truncToward0 (x : ℚ) : Int := if 0 ≤ x then ⌊x⌋ else ⌈x⌉

/-- One pass of the loop of DDIVW and DDIVS on (q, r), in the order of 48_dec_div.md R214: divide,
accumulate the digit, times ten the remainder, times ten the quotient. -/
def divPass (W mb : Nat) (qr : Nat × Nat) : Nat × Nat :=
  ((qr.1 + udivQ qr.2 mb) % 2 ^ W * 10 % 2 ^ W, udivR qr.2 mb * 10 % 2 ^ W)

/-- The value of the digit at a BUF address in a base, 0 where the character is none. -/
def State.digitAt (s : State) (base a : Nat) : Nat := (digitOf (s.bufByte a) base).getD 0

/-- Whether the characters at addr .. addr+n-1 are digits of a base. -/
def State.allDigits (s : State) (base addr n : Nat) : Prop :=
  ∀ j < n, (digitOf (s.bufByte (addr + j)) base).isSome = true

/-- The number n digit characters at addr .. denote in a base, the first the most significant
(20_memory.md R53). -/
def State.digitsValue (s : State) (base addr n : Nat) : Nat :=
  ∑ j ∈ Finset.range n, s.digitAt base (addr + j) * base ^ (n - 1 - j)

/-- How many of the len characters at addr are a leading sign: 1 or 0 (45_signed.md R173). -/
def State.signLength (s : State) (addr len : Nat) : Nat :=
  if 0 < len ∧ (s.bufByte addr = 0x2D#8 ∨ s.bufByte addr = 0x2B#8) then 1 else 0

/-- 1, or -1 where the len characters at addr begin with '-' (45_signed.md R173). -/
def State.signFactor (s : State) (addr len : Nat) : Int :=
  if 0 < len ∧ s.bufByte addr = 0x2D#8 then -1 else 1

/-- The n characters at addr are digits around one point at index p (49_dec_cmp_text.md R234). -/
def State.pointedDigits (s : State) (addr n p : Nat) : Prop :=
  p < n ∧ s.bufByte (addr + p) = 0x2E#8 ∧ s.allDigits 10 addr p ∧ s.allDigits 10 (addr + p + 1) (n - p - 1)

/-- From s to t, len digits at src were printed at dst as k characters without their leading zeros,
down to one digit, and as "0" where there are none (44_int_raw_text.md R162); ch gives the character
printed for the digit at an address. -/
def PrintsStripped (s t : State) (base : Nat) (ch : Nat → Byte) (src len dst k : Nat) : Prop :=
  (len = 0 → k = 1 ∧ t.bufByte dst = 0x30#8)
    ∧ (0 < len → 1 ≤ k ∧ k ≤ len
      ∧ (∀ j < len - k, s.digitAt base (src + j) = 0)
      ∧ (k = 1 ∨ s.digitAt base (src + (len - k)) ≠ 0)
      ∧ ∀ j < k, t.bufByte (dst + j) = ch (src + (len - k + j)))

/-- How many characters of sign a number of this magnitude takes in canonical form: 1 for a '-' before
a value that is not 0, else none (45_signed.md R174, 49_dec_cmp_text.md R236). -/
def State.minusLength (s : State) (addr len x : Nat) : Nat :=
  if s.signFactor addr len < 0 ∧ x ≠ 0 then 1 else 0

/-- n is the number of decimal digits of x (40_primitives.md R101): no leading zero, one digit for 0. -/
def IsDigitCount (x n : Nat) : Prop := 1 ≤ n ∧ x < 10 ^ n ∧ (n = 1 ∨ 10 ^ (n - 1) ≤ x)

/-- The character of the decimal digit of x at position j of n, most significant first. -/
def digitChar (x n j : Nat) : Byte := BitVec.ofNat 8 (0x30 + x / 10 ^ (n - 1 - j) % 10)

/-- The character at position j of STDCM's body for a magnitude of nd digits at scale sc
(49_dec_cmp_text.md R235). -/
def bodyChar (m nd sc j : Nat) : Byte :=
  if sc = 0 then digitChar m nd j
  else if sc < nd then
    if j < nd - sc then digitChar m nd j
    else if j = nd - sc then 0x2E#8
    else digitChar m nd (j - 1)
  else if j = 1 then 0x2E#8
  else if j < 2 + (sc - nd) then 0x30#8
  else digitChar m nd (j - 2 - (sc - nd))

/-- The length of STDCM's body (49_dec_cmp_text.md R235). -/
def bodyLength (nd sc : Nat) : Nat := max nd (sc + 1) + (if 0 < sc then 1 else 0)

end Sys2Proof.Machine
end

