-- ==== Sys2Proof/Certificates/Slice0/Obligations.lean ====
section
/-! DEFINITION. The statements for the provers. Each docstring names the rule of spec/ it formalises;
"derived" statements rest on inferences of the spec or on choices of the model, as they say. -/

open Sys2Proof Sys2Proof.Machine

/-! ## Encoding and decoding -/

/-- Decoding the word of a well-formed command gives the command back, for every operand value. -/
def Obligations.DecodeOfEncodeIsTheCommand : Prop :=
  ∀ i : Instr, i.wellFormed = true → decodeWord (encode i) = .command i

/-- R78. For a listed op, a bit that must be 0 and is not is RESERVED_NONZERO, cause 2; so a command
has one word, and a word that decodes is the encoding of what it decodes to. -/
def Obligations.ReservedBitsFaultAndEncodingIsUnique : Prop :=
  ∀ (w : CmdWord) (i : Instr), instrOf (fieldOp w) (operandsOf w) = some i →
    (ReservedSet i w → ∀ s : State, s.halted = false →
      ∃ t, step (s.withPending [.writeCmd w]) = .next t ∧ Faulted s t 2 w)
    ∧ (encode i ≠ w → ReservedSet i w)
    ∧ (∀ j : Instr, decodeWord w = .command j → encode j = w)

/-- R77 and R79. The 205 unlisted op values are ILLEGAL_OPCODE, cause 1; equal destinations in MULW
and DIV are DEST_CONFLICT, cause 3. -/
def Obligations.UnlistedOpcodesAndEqualDestinationsFault : Prop :=
  ((List.range 256).filter (fun n => decide (n ∉ listedOps))).length = 205
  ∧ (∀ (w : CmdWord) (s : State), (fieldOp w).toNat ∉ listedOps → s.halted = false →
      ∃ t, step (s.withPending [.writeCmd w]) = .next t ∧ Faulted s t 1 w)
  ∧ (∀ (rd ra rb : Reg) (s : State), s.halted = false →
      (∃ t, step (s.withPending [.writeCmd (encode (.mulw rd rd ra rb))]) = .next t
        ∧ Faulted s t 3 (encode (.mulw rd rd ra rb)))
      ∧ (∃ t, step (s.withPending [.writeCmd (encode (.div rd rd ra rb))]) = .next t
        ∧ Faulted s t 3 (encode (.div rd rd ra rb))))

/-- R80 and R244. The order of the checks of one word: halted, op, reserved fields, destinations,
window, execution. -/
def Obligations.ChecksOfAWordComeInOrder : Prop :=
  ∀ (s : State) (w : CmdWord),
    (s.halted = true → step (s.withPending [.writeCmd w]) = .next s)
    ∧ (s.halted = false →
        ((fieldOp w).toNat ∉ listedOps →
          ∃ t, step (s.withPending [.writeCmd w]) = .next t ∧ Faulted s t 1 w)
        ∧ ((fieldOp w).toNat ∈ listedOps →
            ∃ i : Instr, instrOf (fieldOp w) (operandsOf w) = some i ∧ i.opcode = fieldOp w
              ∧ (ReservedSet i w →
                  ∃ t, step (s.withPending [.writeCmd w]) = .next t ∧ Faulted s t 2 w)
              ∧ (¬ReservedSet i w → i.format = .DEAB → fieldRd w = fieldRe w →
                  ∃ t, step (s.withPending [.writeCmd w]) = .next t ∧ Faulted s t 3 w)
              ∧ (¬ReservedSet i w → (i.format = .DEAB → fieldRd w ≠ fieldRe w) →
                  ((∃ an : Nat × Nat, windowOf s.W i = some an ∧ 65536 < an.1 + an.2) →
                    ∃ t, step (s.withPending [.writeCmd w]) = .next t ∧ Faulted s t 4 w)
                  ∧ ((∀ an : Nat × Nat, windowOf s.W i = some an → an.1 + an.2 ≤ 65536) →
                    step (s.withPending [.writeCmd w]) = exec i s))))

/-- The worked encodings of 30_encoding.md R83, one per format. -/
def Obligations.WorkedEncodingsDecode : Prop :=
  decodeWord 0x1050000000000000#64 = .command (.zero 5)
  ∧ decodeWord 0x12100000FFFFFFFF#64 = .command (.ldw 1 0xFFFFFFFF#32)
  ∧ decodeWord 0x1320100000000000#64 = .command (.mov 2 1)
  ∧ decodeWord 0x2030120000000000#64 = .command (.add 3 1 2)
  ∧ decodeWord 0x2445120000000000#64 = .command (.div 4 5 1 2)
  ∧ decodeWord 0x3430300000000046#64 = .command (.shl 3 3 70#32)
  ∧ decodeWord 0x896012000000000A#64 = .command (.ddivw 6 1 2 10#32)
  ∧ decodeWord 0x4200700000000000#64 = .command (.msb 7)
  ∧ decodeWord 0x360070000000007F#64 = .command (.bget 7 127#32)
  ∧ decodeWord 0x9100120000000000#64 = .command (.dlt 1 2)
  ∧ decodeWord 0x9210000000050100#64 = .command (.lddcm 1 0x0100#16 5#16)
  ∧ decodeWord 0x9300100000400200#64 = .command (.stdcm 1 0x0200#16 64#16)
  ∧ decodeWord 0x5090000000001000#64 = .command (.ldraw 9 0x1000#16)

/-- R90, R92 and hex_byte_of of R91. The digit codec and its inverse functions, for bases 2 to 36. -/
def Obligations.DigitCodecMapsAsciiDigits : Prop :=
  (∀ (c : Byte) (base d : Nat), 2 ≤ base → base ≤ 36 →
    (digitOf c base = some d ↔
      d < base ∧ ((d < 10 ∧ c.toNat = 0x30 + d)
        ∨ (10 ≤ d ∧ (c.toNat = 0x41 + (d - 10) ∨ c.toNat = 0x61 + (d - 10))))))
  ∧ (∀ c1 c2 b : Byte, hexByteOf c1 c2 = some b ↔
      ∃ h l, digitOf c1 16 = some h ∧ digitOf c2 16 = some l ∧ b.toNat = 16 * h + l)
  ∧ (∀ d, d < 36 → (charOfDigit d).toNat = if d < 10 then 0x30 + d else 0x41 + (d - 10))
  ∧ (∀ b : Byte, hexPairOfByte b = (charOfDigit (b.toNat / 16), charOfDigit (b.toNat % 16)))

/-! ## The step -/

/-- A word the host writes while the engine is not halted, and that decodes to a command, is executed
by exec on the state it finds; the model's withFetchWord is such a write. -/
def Obligations.StepRunsTheDecodedCommand : Prop :=
  ∀ (s : State) (w : CmdWord) (i : Instr), s.halted = false → decodeWord w = .command i →
    step (s.withPending [.writeCmd w]) = exec i s
    ∧ step (s.withFetchWord 64 w.toNat) = exec i s
    ∧ ∀ rest : List HostAction,
        step { s with inbox := .writeCmd w :: rest } = exec i { s with inbox := rest }

/-- R241. Whenever a word makes the engine halt, the fault is precise: VALID, CAUSE and FCMD are
written, with the word itself, and nothing else. -/
def Obligations.FaultsArePrecise : Prop :=
  ∀ (s t : State) (w : CmdWord), s.halted = false →
    step (s.withPending [.writeCmd w]) = .next t → t.halted = true →
    ∃ code, 1 ≤ code ∧ code ≤ 4 ∧ Faulted s t code w

/-- A halted engine discards every word, and the host's own accesses still work (60_exceptions.md
R242). That the host's actions are a list and that the values read go to readback are the model's
choices (log 8, log 9). -/
def Obligations.HaltedEngineDiscardsCommands : Prop :=
  ∀ s : State, s.halted = true →
    (∀ w : CmdWord, step (s.withPending [.writeCmd w]) = .next s)
    ∧ (∀ p : Port, step (s.withPending [.readPort p])
        = .next { s with readback := s.portValue p :: s.readback })
    ∧ (∀ a : Half, step (s.withPending [.readBuf a])
        = .next { s with readback := (s.bufByte a.toNat).setWidth 64 :: s.readback })
    ∧ (∀ (a : Half) (b : Byte), ∃ t, step (s.withPending [.writeBuf a b]) = .next t
        ∧ t.bufByte a.toNat = b ∧ t.halted = true
        ∧ Unchanged { bufAddr := a.toNat, bufLen := 1 } s t)

/-- R245. No command clears FAULT, and only a reset leaves the halted state. -/
def Obligations.OnlyResetLeavesHalt : Prop :=
  (∀ (i : Instr) (s t : State), exec i s = .next t → s.halted = true → t.halted = true)
  ∧ (∀ s t : State, s.halted = true → step s = .next t →
      (t.fault = s.fault ∧ t.fcmd = s.fcmd ∧ t.v = s.v ∧ t.sc = s.sc
        ∧ t.status = s.status ∧ t.res = s.res)
      ∨ ∃ rest : List HostAction, s.inbox = .assertReset :: rest)

/-- The host's accesses (60_exceptions.md R252), and the wait with none pending
(70_reset_and_hazards.md R260). That the values read go to readback and that the host's actions are a
list are the model's (log 8, log 9). -/
def Obligations.HostAccessesHaveNoOtherEffect : Prop :=
  ∀ s : State,
    step (s.withPending [.readPort .status]) = .next { s with readback := s.status.setWidth 64 :: s.readback }
    ∧ step (s.withPending [.readPort .res]) = .next { s with readback := s.res.setWidth 64 :: s.readback }
    ∧ step (s.withPending [.readPort .fault]) = .next { s with readback := s.fault.setWidth 64 :: s.readback }
    ∧ step (s.withPending [.readPort .fcmd]) = .next { s with readback := s.fcmd :: s.readback }
    ∧ (∀ a : Half, step (s.withPending [.readBuf a])
        = .next { s with readback := (s.bufByte a.toNat).setWidth 64 :: s.readback })
    ∧ (∀ (a : Half) (b : Byte), ∃ t, step (s.withPending [.writeBuf a b]) = .next t
        ∧ t.bufByte a.toNat = b ∧ Unchanged { bufAddr := a.toNat, bufLen := 1 } s t)
    ∧ (s.inbox = [] → step s = .next s)

/-- R260. Reset as one step: STATUS, RES, FAULT and FCMD are 0, the engine is not halted, and each V
location holds some value of its width. -/
def Obligations.ResetClearsThePortRegisters : Prop :=
  ∀ s : State, ∃ t, step (s.withPending [.assertReset]) = .next t
    ∧ t.status = 0#32 ∧ t.res = 0#32 ∧ t.fault = 0#32 ∧ t.fcmd = 0#64 ∧ t.halted = false
    ∧ (∀ r : Reg, (t.v.get r).toNat < 2 ^ s.W)
    ∧ t.params = s.params ∧ t.inbox = s.inbox ∧ t.readback = s.readback

/-- R39. The reset values the spec gives, for every choice of the parameters. -/
def Obligations.ResetStateHoldsTheSpecValues : Prop :=
  ∀ p : Params,
    (State.resetWith p).status = 0#32 ∧ (State.resetWith p).res = 0#32
    ∧ (State.resetWith p).fault = 0#32 ∧ (State.resetWith p).halted = false
    ∧ (State.resetWith p).fcmd = 0#64
    ∧ maxSafe p.width.bits = (2 ^ p.width.bits - 1) / 5 / 4
    ∧ ∃ q : Params, State.reset = State.resetWith q

/-! ## Invariants and whole-machine rules -/

/-- The invariant holds at reset (the contents of V there are the model's choice, log 1). -/
def Obligations.InvAtReset : Prop :=
  State.reset.Inv ∧ ∀ p : Params, p.ok = true → (State.resetWith p).Inv

/-- Every step keeps the invariant: V registers of W bits, BUF in canonical form, the parameters
legal, STATUS[31:5] zero, the epoch of BUF in the past. -/
def Obligations.EveryStepKeepsInv : Prop :=
  ∀ s t : State, s.Inv → step s = .next t → t.Inv

/-- Every step keeps: FAULT and FCMD describe a fault that the recorded word really has. -/
def Obligations.FaultRegistersTellTheTruth : Prop :=
  State.reset.FaultExplained ∧ ∀ s t : State, s.FaultExplained → step s = .next t → t.FaultExplained

/-- R9. Every command is total, and one that is not rejected writes only its "Writes" list. -/
def Obligations.CommandsWriteOnlyTheirWritesList : Prop :=
  ∀ (i : Instr) (s : State),
    (Accepted i s → ∃ t, exec i s = .next t ∧ Unchanged (writesOf i s) s t)
    ∧ (¬Accepted i s → ∃ t code, (code = 3 ∨ code = 4) ∧ exec i s = .next t ∧ Faulted s t code (encode i))

/-- R26. Who writes a flag, and that each of them writes it every time, but for a refusing checked
command, which writes OK alone. Two states that differ in STATUS only tell: a flag that is written
does not depend on what it was. They also tell that no command reads a flag (R25). -/
def Obligations.FlagsAreWrittenByTheirCommandsOnly : Prop :=
  ∀ (i : Instr) (s t t' : State) (st : BitVec 32), Accepted i s →
    exec i s = .next t → exec i { s with status := st } = .next t' →
    (∀ f : Flag, f ∉ flagsOf i → t.flag f = s.flag f)
    ∧ (∀ f : Flag, f ∈ flagsOf i → t'.flag f = t.flag f
        ∨ (mayRefuse i = true ∧ f ≠ .ok ∧ t.flag .ok = false ∧ t'.flag .ok = false
            ∧ t.flag f = s.flag f ∧ t'.flag f = st.getLsbD f.bit))
    ∧ (Flag.ok ∈ flagsOf i → t.flag .ok = false → t.v = s.v ∧ t.sc = s.sc)
    ∧ t'.v = t.v ∧ t'.sc = t.sc ∧ t'.res = t.res ∧ t'.buf = t.buf
    ∧ t'.fault = t.fault ∧ t'.fcmd = t.fcmd

/-- The integer and signed commands neither read nor write S (a sentence of 10_state.md R23). -/
def Obligations.IntegerCommandsIgnoreScales : Prop :=
  ∀ (i : Instr) (s t : State) (sc' : Vector (BitVec 32) 16), isIntegerCommand i = true →
    exec i s = .next t → t.sc = s.sc ∧ exec i { s with sc := sc' } = .next { t with sc := sc' }

/-- R50. BUF is reached by the ten buffer commands only: LD commands only read their window, ST
commands only write it, and no ST command's result depends on what BUF held. -/
def Obligations.OnlyBufferCommandsReachBuf : Prop :=
  ∀ (i : Instr) (s t t' : State) (m : Memory) (e : Nat),
    exec i s = .next t → exec i { s with buf := m, bufEpoch := e } = .next t' →
    (bufUse i = .untouched → t.buf = s.buf ∧ t' = { t with buf := m, bufEpoch := e })
    ∧ (bufUse i = .reads → t.buf = s.buf ∧ t.bufEpoch = s.bufEpoch
        ∧ ((∀ an : Nat × Nat, windowOf s.W i = some an → ∀ a, an.1 ≤ a → a < an.1 + an.2 →
            State.bufByte { s with buf := m, bufEpoch := e } a = s.bufByte a) →
          t' = { t with buf := m, bufEpoch := e }))
    ∧ (bufUse i = .writes → t'.v = t.v ∧ t'.sc = t.sc ∧ t'.status = t.status ∧ t'.res = t.res
        ∧ t'.fault = t.fault ∧ t'.fcmd = t.fcmd
        ∧ (∀ an : Nat × Nat, windowOf s.W i = some an → ∀ a, ¬(an.1 ≤ a ∧ a < an.1 + an.2) →
            t.bufByte a = s.bufByte a)
        ∧ (∀ a : Nat, t'.bufByte a = t.bufByte a
            ∨ (t.bufByte a = s.bufByte a
              ∧ t'.bufByte a = State.bufByte { s with buf := m, bufEpoch := e } a)))

/-- R56. The window check of every buffer command. -/
def Obligations.WindowsPastTheEndFault : Prop :=
  ∀ (i : Instr) (s : State) (a n : Nat), windowOf s.W i = some (a, n) →
    (65536 < a + n → ∃ t, exec i s = .next t ∧ Faulted s t 4 (encode i))
    ∧ (a + n ≤ 65536 → ∃ t, exec i s = .next t ∧ t.fault = s.fault ∧ t.fcmd = s.fcmd
        ∧ ∀ b : Nat, ¬(a ≤ b ∧ b < a + n) → t.bufByte b = s.bufByte b)
    ∧ (n = 0 → ∃ t, exec i s = .next t ∧ t.fault = s.fault ∧ t.fcmd = s.fcmd
        ∧ ∀ b : Nat, t.bufByte b = s.bufByte b)

/-! ## Construction and integer arithmetic -/

/-- R110 to R113. ZERO, ONE, LDW, MOV. -/
def Obligations.ConstructorsGiveTheirValue : Prop :=
  ∀ (s : State) (rd ra : Reg) (imm : Imm),
    (EncodedAs (.zero rd) 0x10#8 .D
      ∧ ∃ t, exec (.zero rd) s = .next t ∧ t.u rd = 0 ∧ Unchanged { v := [rd] } s t)
    ∧ (EncodedAs (.one rd) 0x11#8 .D
      ∧ ∃ t, exec (.one rd) s = .next t ∧ t.u rd = 1 ∧ Unchanged { v := [rd] } s t)
    ∧ (EncodedAs (.ldw rd imm) 0x12#8 .DI
      ∧ ∃ t, exec (.ldw rd imm) s = .next t ∧ t.u rd = imm.toNat ∧ Unchanged { v := [rd] } s t)
    ∧ (EncodedAs (.mov rd ra) 0x13#8 .DA
      ∧ ∃ t, exec (.mov rd ra) s = .next t ∧ t.u rd = s.u ra ∧ Unchanged { v := [rd] } s t)

/-- R121, R122. ADD and SUB modulo 2^W, and the source's law sub(add(a, b), b) = a. -/
def Obligations.AddAndSubWrap : Prop :=
  ∀ (s : State) (rd ra rb : Reg),
    (EncodedAs (.add rd ra rb) 0x20#8 .DAB
      ∧ ∃ t, exec (.add rd ra rb) s = .next t ∧ t.u rd = (s.u ra + s.u rb) % 2 ^ s.W
        ∧ Unchanged { v := [rd] } s t)
    ∧ (EncodedAs (.sub rd ra rb) 0x21#8 .DAB
      ∧ ∃ t, exec (.sub rd ra rb) s = .next t
        ∧ (t.u rd : Int) = ((s.u ra : Int) - (s.u rb : Int)) % (2 : Int) ^ s.W
        ∧ Unchanged { v := [rd] } s t)
    ∧ (rd ≠ rb → ∃ t t', exec (.add rd ra rb) s = .next t ∧ exec (.sub rd rd rb) t = .next t'
        ∧ t'.u rd = s.u ra)

/-- R124, R125. MUL and MULW, the destination conflict of MULW, and the source's law that mul
distributes over add, on registers x, y, z apart from the operands. -/
def Obligations.MultiplyGivesLowAndHighHalves : Prop :=
  ∀ (s : State) (rd re ra rb : Reg),
    (EncodedAs (.mul rd ra rb) 0x22#8 .DAB
      ∧ ∃ t, exec (.mul rd ra rb) s = .next t ∧ t.u rd = s.u ra * s.u rb % 2 ^ s.W
        ∧ Unchanged { v := [rd] } s t)
    ∧ EncodedAs (.mulw rd re ra rb) 0x23#8 .DEAB
    ∧ (rd ≠ re → ∃ t, exec (.mulw rd re ra rb) s = .next t
        ∧ t.u rd = s.u ra * s.u rb % 2 ^ s.W ∧ t.u re = s.u ra * s.u rb / 2 ^ s.W
        ∧ Unchanged { v := [rd, re] } s t)
    ∧ (rd = re → ∃ t, exec (.mulw rd re ra rb) s = .next t
        ∧ Faulted s t 3 (encode (.mulw rd re ra rb)))
    ∧ (∀ x y z rc : Reg, [x, y, z, ra, rb, rc].Nodup →
        ∃ t1 t2 t3 t4 t5, exec (.add x rb rc) s = .next t1 ∧ exec (.mul x ra x) t1 = .next t2
          ∧ exec (.mul y ra rb) t2 = .next t3 ∧ exec (.mul z ra rc) t3 = .next t4
          ∧ exec (.add y y z) t4 = .next t5 ∧ t5.u x = t5.u y)

/-- R129, R130. DIV leaves what restoring bit-by-bit long division computes, DZ for a zero divisor. -/
def Obligations.DivRunsRestoringDivision : Prop :=
  ∀ (s : State) (rd re ra rb : Reg),
    EncodedAs (.div rd re ra rb) 0x24#8 .DEAB
    ∧ (rd ≠ re → ∃ t, exec (.div rd re ra rb) s = .next t
        ∧ (t.u rd, t.u re) = restoringDiv s.W (s.u ra) (s.u rb)
        ∧ t.flag .dz = decide (s.u rb = 0)
        ∧ Unchanged { v := [rd, re], flags := [.dz] } s t)
    ∧ (rd = re → ∃ t, exec (.div rd re ra rb) s = .next t
        ∧ Faulted s t 3 (encode (.div rd re ra rb)))

/-- The division laws (the inferences of 42_int_arith.md R131 and R132): exact quotient and remainder
for a nonzero divisor, all ones and the dividend for a zero one; and that restoring division
computes the pair the model's commands use (40_primitives.md R102). -/
def Obligations.DivisionLaws : Prop :=
  (∀ (s : State) (rd re ra rb : Reg), rd ≠ re →
    ∃ t, exec (.div rd re ra rb) s = .next t
      ∧ (s.u rb ≠ 0 → s.u ra = t.u rd * s.u rb + t.u re ∧ t.u re < s.u rb ∧ t.flag .dz = false)
      ∧ (s.u rb = 0 → t.u rd = 2 ^ (Nat.log2 (s.u ra) + 1) - 1 ∧ t.u re = s.u ra
          ∧ t.flag .dz = true))
  ∧ (∀ W a b : Nat, a < 2 ^ W → b < 2 ^ W → restoringDiv W a b = (udivQ a b, udivR a b))

/-! ## Logic, shifts, bits, comparison, introspection -/

/-- R135 to R138. AND, OR, XOR, NOT bit by bit, over all W bits. -/
def Obligations.BitwiseCommandsActOnEveryBit : Prop :=
  ∀ (s : State) (rd ra rb : Reg),
    (EncodedAs (.and rd ra rb) 0x30#8 .DAB
      ∧ ∃ t, exec (.and rd ra rb) s = .next t
        ∧ (∀ j < s.W, (t.u rd).testBit j = ((s.u ra).testBit j && (s.u rb).testBit j))
        ∧ Unchanged { v := [rd] } s t)
    ∧ (EncodedAs (.or rd ra rb) 0x31#8 .DAB
      ∧ ∃ t, exec (.or rd ra rb) s = .next t
        ∧ (∀ j < s.W, (t.u rd).testBit j = ((s.u ra).testBit j || (s.u rb).testBit j))
        ∧ Unchanged { v := [rd] } s t)
    ∧ (EncodedAs (.xor rd ra rb) 0x32#8 .DAB
      ∧ ∃ t, exec (.xor rd ra rb) s = .next t
        ∧ (∀ j < s.W, (t.u rd).testBit j = ((s.u ra).testBit j ^^ (s.u rb).testBit j))
        ∧ Unchanged { v := [rd] } s t)
    ∧ (EncodedAs (.not rd ra) 0x33#8 .DA
      ∧ ∃ t, exec (.not rd ra) s = .next t
        ∧ (∀ j < s.W, (t.u rd).testBit j = !(s.u ra).testBit j)
        ∧ t.u rd = 2 ^ s.W - 1 - s.u ra
        ∧ Unchanged { v := [rd] } s t)

/-- R140, R141. SHL and SHR by any count, 0 from W on. -/
def Obligations.ShiftsTruncate : Prop :=
  ∀ (s : State) (rd ra : Reg) (imm : Imm),
    (EncodedAs (.shl rd ra imm) 0x34#8 .DAI
      ∧ ∃ t, exec (.shl rd ra imm) s = .next t
        ∧ t.u rd = (if s.W ≤ imm.toNat then 0 else s.u ra * 2 ^ imm.toNat % 2 ^ s.W)
        ∧ Unchanged { v := [rd] } s t)
    ∧ (EncodedAs (.shr rd ra imm) 0x35#8 .DAI
      ∧ ∃ t, exec (.shr rd ra imm) s = .next t
        ∧ t.u rd = (if s.W ≤ imm.toNat then 0 else s.u ra / 2 ^ imm.toNat)
        ∧ Unchanged { v := [rd] } s t)

/-- R144 to R146. BGET, BSET, BCLR; an index of W or more reads 0 and changes nothing. -/
def Obligations.BitAccessByAbsoluteIndex : Prop :=
  ∀ (s : State) (rd ra : Reg) (imm : Imm),
    (EncodedAs (.bget ra imm) 0x36#8 .AI
      ∧ ∃ t, exec (.bget ra imm) s = .next t
        ∧ t.flag .t = (if imm.toNat < s.W then (s.u ra).testBit imm.toNat else false)
        ∧ Unchanged { flags := [.t] } s t)
    ∧ (EncodedAs (.bset rd ra imm) 0x37#8 .DAI
      ∧ ∃ t, exec (.bset rd ra imm) s = .next t
        ∧ (∀ j < s.W, (t.u rd).testBit j = (if j = imm.toNat then true else (s.u ra).testBit j))
        ∧ Unchanged { v := [rd] } s t)
    ∧ (EncodedAs (.bclr rd ra imm) 0x38#8 .DAI
      ∧ ∃ t, exec (.bclr rd ra imm) s = .next t
        ∧ (∀ j < s.W, (t.u rd).testBit j = (if j = imm.toNat then false else (s.u ra).testBit j))
        ∧ Unchanged { v := [rd] } s t)

/-- R148, R149, R172. EQ, LT and SLT write the truth value to T and nothing else. -/
def Obligations.IntegerComparisonsSetT : Prop :=
  ∀ (s : State) (ra rb : Reg),
    (EncodedAs (.eq ra rb) 0x40#8 .AB
      ∧ ∃ t, exec (.eq ra rb) s = .next t ∧ (t.flag .t = true ↔ s.u ra = s.u rb)
        ∧ Unchanged { flags := [.t] } s t)
    ∧ (EncodedAs (.lt ra rb) 0x41#8 .AB
      ∧ ∃ t, exec (.lt ra rb) s = .next t ∧ (t.flag .t = true ↔ s.u ra < s.u rb)
        ∧ Unchanged { flags := [.t] } s t)
    ∧ (EncodedAs (.slt ra rb) 0x62#8 .AB
      ∧ ∃ t, exec (.slt ra rb) s = .next t ∧ (t.flag .t = true ↔ s.sg ra < s.sg rb)
        ∧ Unchanged { flags := [.t] } s t)

/-- R151, R152. MSB gives the index of the highest 1 bit, 0 for zero; LZC the zeros above it, and the
parameter LZC_OF_ZERO for zero. -/
def Obligations.MsbAndLzcCountBits : Prop :=
  ∀ (s : State) (ra : Reg),
    (EncodedAs (.msb ra) 0x42#8 .A
      ∧ ∃ t, exec (.msb ra) s = .next t
        ∧ (s.u ra = 0 → t.res = 0#32)
        ∧ (s.u ra ≠ 0 → (s.u ra).testBit t.res.toNat = true
            ∧ ∀ j, t.res.toNat < j → (s.u ra).testBit j = false)
        ∧ Unchanged { res := true } s t)
    ∧ (EncodedAs (.lzc ra) 0x43#8 .A
      ∧ ∃ t, exec (.lzc ra) s = .next t
        ∧ (s.u ra = 0 → s.params.ok = true → t.res.toNat = s.params.lzcOfZero)
        ∧ (s.u ra ≠ 0 → t.res.toNat < s.W ∧ (s.u ra).testBit (s.W - 1 - t.res.toNat) = true
            ∧ ∀ j, s.W - 1 - t.res.toNat < j → (s.u ra).testBit j = false)
        ∧ Unchanged { res := true } s t)

/-! ## Raw bytes and text -/

/-- R155, R156. LDRAW and STRAW, little-endian over W/8 bytes. -/
def Obligations.RawBytesAreLittleEndian : Prop :=
  ∀ (s : State) (r : Reg) (addr : Half),
    EncodedAs (.ldraw r addr) 0x50#8 .LB ∧ EncodedAs (.straw r addr) 0x51#8 .SB
    ∧ (65536 < addr.toNat + s.W / 8 →
        (∃ t, exec (.ldraw r addr) s = .next t ∧ Faulted s t 4 (encode (.ldraw r addr)))
        ∧ ∃ t, exec (.straw r addr) s = .next t ∧ Faulted s t 4 (encode (.straw r addr)))
    ∧ (addr.toNat + s.W / 8 ≤ 65536 →
        (∃ t, exec (.ldraw r addr) s = .next t
          ∧ t.u r = ∑ j ∈ Finset.range (s.W / 8), (s.bufByte (addr.toNat + j)).toNat * 256 ^ j
          ∧ Unchanged { v := [r] } s t)
        ∧ ∃ t, exec (.straw r addr) s = .next t
          ∧ (∀ j < s.W / 8, (t.bufByte (addr.toNat + j)).toNat = s.u r / 2 ^ (8 * j) % 256)
          ∧ Unchanged { bufAddr := addr.toNat, bufLen := s.W / 8 } s t)

/-- R158. LDHEX reads the rightmost min(len, W/4) characters. -/
def Obligations.HexTextParses : Prop :=
  ∀ (s : State) (rd : Reg) (addr len : Half),
    EncodedAs (.ldhex rd addr len) 0x52#8 .LB
    ∧ (65536 < addr.toNat + len.toNat →
        ∃ t, exec (.ldhex rd addr len) s = .next t ∧ Faulted s t 4 (encode (.ldhex rd addr len)))
    ∧ (addr.toNat + len.toNat ≤ 65536 → ∀ k, k = min len.toNat (s.W / 4) →
        (s.allDigits 16 (addr.toNat + len.toNat - k) k →
          ∃ t, exec (.ldhex rd addr len) s = .next t ∧ t.flag .ok = true
            ∧ t.u rd = s.digitsValue 16 (addr.toNat + len.toNat - k) k
            ∧ Unchanged { v := [rd], flags := [.ok] } s t)
        ∧ (¬s.allDigits 16 (addr.toNat + len.toNat - k) k →
          ∃ t, exec (.ldhex rd addr len) s = .next t ∧ t.flag .ok = false
            ∧ Unchanged { flags := [.ok] } s t))

/-- R159. STHEX writes the msb/4 + 1 digits, upper case, or nothing. -/
def Obligations.HexTextPrintsMinimalDigits : Prop :=
  ∀ (s : State) (ra : Reg) (addr cap : Half),
    EncodedAs (.sthex ra addr cap) 0x53#8 .SB
    ∧ (65536 < addr.toNat + cap.toNat →
        ∃ t, exec (.sthex ra addr cap) s = .next t ∧ Faulted s t 4 (encode (.sthex ra addr cap)))
    ∧ (addr.toNat + cap.toNat ≤ 65536 → ∀ nd, nd = Nat.log2 (s.u ra) / 4 + 1 →
        (cap.toNat < nd → ∃ t, exec (.sthex ra addr cap) s = .next t
          ∧ t.res = 0#32 ∧ t.flag .ok = false ∧ Unchanged { flags := [.ok], res := true } s t)
        ∧ (nd ≤ cap.toNat → ∃ t, exec (.sthex ra addr cap) s = .next t
          ∧ (∀ j < nd, t.bufByte (addr.toNat + j) = charOfDigit (s.u ra / 16 ^ (nd - 1 - j) % 16))
          ∧ t.res.toNat = nd ∧ t.flag .ok = true
          ∧ Unchanged { flags := [.ok], res := true, bufAddr := addr.toNat, bufLen := nd } s t))

/-- R160. LDDEC: every character a digit, the number modulo 2^W. -/
def Obligations.DecimalTextParses : Prop :=
  ∀ (s : State) (rd : Reg) (addr len : Half),
    EncodedAs (.lddec rd addr len) 0x54#8 .LB
    ∧ (65536 < addr.toNat + len.toNat →
        ∃ t, exec (.lddec rd addr len) s = .next t ∧ Faulted s t 4 (encode (.lddec rd addr len)))
    ∧ (addr.toNat + len.toNat ≤ 65536 →
        (s.allDigits 10 addr.toNat len.toNat →
          ∃ t, exec (.lddec rd addr len) s = .next t ∧ t.flag .ok = true
            ∧ t.u rd = s.digitsValue 10 addr.toNat len.toNat % 2 ^ s.W
            ∧ Unchanged { v := [rd], flags := [.ok] } s t)
        ∧ (¬s.allDigits 10 addr.toNat len.toNat →
          ∃ t, exec (.lddec rd addr len) s = .next t ∧ t.flag .ok = false
            ∧ Unchanged { flags := [.ok] } s t))

/-- R161. STDEC writes the decimal digits without leading zeros, or reports a buffer too small; the
rest of the window is unspecified, so nothing is said of it. -/
def Obligations.DecimalTextPrints : Prop :=
  ∀ (s : State) (ra : Reg) (addr cap : Half),
    EncodedAs (.stdec ra addr cap) 0x55#8 .SB
    ∧ (65536 < addr.toNat + cap.toNat →
        ∃ t, exec (.stdec ra addr cap) s = .next t ∧ Faulted s t 4 (encode (.stdec ra addr cap)))
    ∧ (addr.toNat + cap.toNat ≤ 65536 → ∃ n, IsDigitCount (s.u ra) n
        ∧ (cap.toNat < n → ∃ t, exec (.stdec ra addr cap) s = .next t
          ∧ t.res = 0#32 ∧ t.flag .ok = false
          ∧ Unchanged { flags := [.ok], res := true, bufAddr := addr.toNat, bufLen := cap.toNat } s t)
        ∧ (n ≤ cap.toNat → ∃ t, exec (.stdec ra addr cap) s = .next t
          ∧ (∀ j < n, t.bufByte (addr.toNat + j) = digitChar (s.u ra) n j)
          ∧ t.res.toNat = n ∧ t.flag .ok = true
          ∧ Unchanged { flags := [.ok], res := true, bufAddr := addr.toNat, bufLen := cap.toNat } s t))

/-- The round trips from value to value (44_int_raw_text.md R156 and R162, 45_signed.md R174,
49_dec_cmp_text.md R236): what an export wrote, the parse of the characters it reports restores. -/
def Obligations.ExportThenParseRestoresTheValue : Prop :=
  ∀ (s t : State) (r q : Reg) (addr cap : Half),
    (addr.toNat + s.W / 8 ≤ 65536 → exec (.straw r addr) s = .next t →
      ∃ t', exec (.ldraw q addr) t = .next t' ∧ t'.u q = s.u r)
    ∧ (addr.toNat + cap.toNat ≤ 65536 → exec (.sthex r addr cap) s = .next t → t.flag .ok = true →
      ∃ t', exec (.ldhex q addr (t.res.setWidth 16)) t = .next t' ∧ t'.flag .ok = true
        ∧ t'.u q = s.u r)
    ∧ (addr.toNat + cap.toNat ≤ 65536 → exec (.stdec r addr cap) s = .next t → t.flag .ok = true →
      ∃ t', exec (.lddec q addr (t.res.setWidth 16)) t = .next t' ∧ t'.flag .ok = true
        ∧ t'.u q = s.u r)
    ∧ (addr.toNat + cap.toNat ≤ 65536 → exec (.stsdec r addr cap) s = .next t → t.flag .ok = true →
      ∃ t', exec (.ldsdec q addr (t.res.setWidth 16)) t = .next t' ∧ t'.flag .ok = true
        ∧ t'.u q = s.u r)
    ∧ (addr.toNat + cap.toNat ≤ 65536 → exec (.stdcm r addr cap) s = .next t → t.flag .ok = true →
      ∃ t', exec (.lddcm q addr (t.res.setWidth 16)) t = .next t' ∧ t'.flag .ok = true
        ∧ t'.u q = s.u r ∧ t'.scale q = s.scale r)

/-- The round trips from text to text (the inferences of 44_int_raw_text.md R162, 45_signed.md R174 and
49_dec_cmp_text.md R236), empty strings included: the digits without leading zeros, hex in upper case,
no '+', no '-' before a zero, no point without digits after it, the digits after a point as they are. -/
def Obligations.ParseThenPrintIsCanonical : Prop :=
  ∀ (s t t' : State) (r : Reg) (addr len addr' cap : Half) (i n : Nat),
    addr.toNat + len.toNat ≤ 65536 → addr'.toNat + cap.toNat ≤ 65536 →
    i = s.signLength addr.toNat len.toNat → n = len.toNat - i →
    (s.allDigits 10 addr.toNat len.toNat → s.digitsValue 10 addr.toNat len.toNat < 2 ^ s.W →
      exec (.lddec r addr len) s = .next t → exec (.stdec r addr' cap) t = .next t' →
      t'.flag .ok = true →
      PrintsStripped s t' 10 s.bufByte addr.toNat len.toNat addr'.toNat t'.res.toNat)
    ∧ (s.allDigits 16 addr.toNat len.toNat → len.toNat ≤ s.W / 4 →
      exec (.ldhex r addr len) s = .next t → exec (.sthex r addr' cap) t = .next t' →
      t'.flag .ok = true →
      PrintsStripped s t' 16 (fun a => charOfDigit (s.digitAt 16 a)) addr.toNat len.toNat
        addr'.toNat t'.res.toNat)
    ∧ (∀ x m, s.allDigits 10 (addr.toNat + i) n → x = s.digitsValue 10 (addr.toNat + i) n →
      m = s.minusLength addr.toNat len.toNat x →
      ((InSigned s.W (s.signFactor addr.toNat len.toNat * (x : Int))
          ∧ exec (.ldsdec r addr len) s = .next t ∧ exec (.stsdec r addr' cap) t = .next t')
        ∨ (x < 2 ^ (s.W - 1)
          ∧ exec (.lddcm r addr len) s = .next t ∧ exec (.stdcm r addr' cap) t = .next t')) →
      t'.flag .ok = true →
      ∃ k, t'.res.toNat = m + k ∧ (m = 1 → t'.bufByte addr'.toNat = 0x2D#8)
        ∧ PrintsStripped s t' 10 s.bufByte (addr.toNat + i) n (addr'.toNat + m) k)
    ∧ (∀ p f x m, s.pointedDigits (addr.toNat + i) n p → f = n - p - 1 →
      x = s.digitsValue 10 (addr.toNat + i) p * 10 ^ f
        + s.digitsValue 10 (addr.toNat + i + p + 1) f → x < 2 ^ (s.W - 1) →
      m = s.minusLength addr.toNat len.toNat x →
      exec (.lddcm r addr len) s = .next t → exec (.stdcm r addr' cap) t = .next t' →
      t'.flag .ok = true →
      ∃ k, PrintsStripped s t' 10 s.bufByte (addr.toNat + i) p (addr'.toNat + m) k
        ∧ (m = 1 → t'.bufByte addr'.toNat = 0x2D#8)
        ∧ (f = 0 → t'.res.toNat = m + k)
        ∧ (0 < f → t'.res.toNat = m + k + 1 + f ∧ t'.bufByte (addr'.toNat + m + k) = 0x2E#8
          ∧ ∀ j < f, t'.bufByte (addr'.toNat + m + k + 1 + j)
              = s.bufByte (addr.toNat + i + p + 1 + j)))

/-! ## The signed layer -/

/-- R170, R171. NEG and ABS; the most negative value is its own negation and its own magnitude. -/
def Obligations.NegateAndAbsolute : Prop :=
  ∀ (s : State) (rd ra : Reg),
    (EncodedAs (.neg rd ra) 0x60#8 .DA
      ∧ ∃ t, exec (.neg rd ra) s = .next t
        ∧ (t.u rd : Int) = (0 - (s.u ra : Int)) % (2 : Int) ^ s.W
        ∧ (s.sg ra = -(2 : Int) ^ (s.W - 1) → t.sg rd = s.sg ra)
        ∧ (s.sg ra ≠ -(2 : Int) ^ (s.W - 1) → t.sg rd = -s.sg ra)
        ∧ Unchanged { v := [rd] } s t)
    ∧ (EncodedAs (.abs rd ra) 0x61#8 .DA
      ∧ ∃ t, exec (.abs rd ra) s = .next t
        ∧ t.u rd = (s.sg ra).natAbs ∧ (t.flag .neg = true ↔ s.sg ra < 0)
        ∧ Unchanged { v := [rd], flags := [.neg] } s t)

/-- R173. LDSDEC: an optional leading sign, then digits only. -/
def Obligations.SignedDecimalTextParses : Prop :=
  ∀ (s : State) (rd : Reg) (addr len : Half),
    EncodedAs (.ldsdec rd addr len) 0x63#8 .LB
    ∧ (65536 < addr.toNat + len.toNat →
        ∃ t, exec (.ldsdec rd addr len) s = .next t ∧ Faulted s t 4 (encode (.ldsdec rd addr len)))
    ∧ (addr.toNat + len.toNat ≤ 65536 → ∀ i, i = s.signLength addr.toNat len.toNat →
        (s.allDigits 10 (addr.toNat + i) (len.toNat - i) →
          ∃ t, exec (.ldsdec rd addr len) s = .next t ∧ t.flag .ok = true
            ∧ (t.u rd : Int) = s.signFactor addr.toNat len.toNat
                * (s.digitsValue 10 (addr.toNat + i) (len.toNat - i) : Int) % (2 : Int) ^ s.W
            ∧ Unchanged { v := [rd], flags := [.ok] } s t)
        ∧ (¬s.allDigits 10 (addr.toNat + i) (len.toNat - i) →
          ∃ t, exec (.ldsdec rd addr len) s = .next t ∧ t.flag .ok = false
            ∧ Unchanged { flags := [.ok] } s t))

/-- R174. STSDEC: '-' for a negative value, then the digits of the magnitude. -/
def Obligations.SignedDecimalTextPrints : Prop :=
  ∀ (s : State) (ra : Reg) (addr cap : Half),
    EncodedAs (.stsdec ra addr cap) 0x64#8 .SB
    ∧ (65536 < addr.toNat + cap.toNat →
        ∃ t, exec (.stsdec ra addr cap) s = .next t ∧ Faulted s t 4 (encode (.stsdec ra addr cap)))
    ∧ (addr.toNat + cap.toNat ≤ 65536 → ∃ nd, IsDigitCount (s.sg ra).natAbs nd
        ∧ ∀ n, n = (if s.sg ra < 0 then 1 else 0) →
        (cap.toNat < n + nd → ∃ t, exec (.stsdec ra addr cap) s = .next t
          ∧ t.res = 0#32 ∧ t.flag .ok = false
          ∧ Unchanged { flags := [.ok], res := true, bufAddr := addr.toNat, bufLen := cap.toNat } s t)
        ∧ (n + nd ≤ cap.toNat → ∃ t, exec (.stsdec ra addr cap) s = .next t
          ∧ (s.sg ra < 0 → t.bufByte addr.toNat = 0x2D#8)
          ∧ (∀ j < nd, t.bufByte (addr.toNat + n + j) = digitChar (s.sg ra).natAbs nd j)
          ∧ t.res.toNat = n + nd ∧ t.flag .ok = true
          ∧ Unchanged { flags := [.ok], res := true, bufAddr := addr.toNat, bufLen := cap.toNat } s t))

/-! ## Decimal scale commands -/

/-- R180 to R182. SSET, SGET, DMOV. -/
def Obligations.ScaleAccessAndDecimalCopy : Prop :=
  ∀ (s : State) (rd ra : Reg) (imm : Imm),
    (EncodedAs (.sset rd imm) 0x70#8 .DI
      ∧ ∃ t, exec (.sset rd imm) s = .next t ∧ t.sc.get rd = imm ∧ Unchanged { sc := [rd] } s t)
    ∧ (EncodedAs (.sget ra) 0x71#8 .A
      ∧ ∃ t, exec (.sget ra) s = .next t ∧ t.res = s.sc.get ra ∧ Unchanged { res := true } s t)
    ∧ (EncodedAs (.dmov rd ra) 0x72#8 .DA
      ∧ ∃ t, exec (.dmov rd ra) s = .next t ∧ t.u rd = s.u ra ∧ t.sc.get rd = s.sc.get ra
        ∧ Unchanged { v := [rd], sc := [rd] } s t)

/-- R184, with the value functions of R183. DPREC: times 10^k modulo 2^W, or the magnitude divided by
10^k, truncating toward zero, INX telling whether a nonzero digit went. -/
def Obligations.PrecisionChange : Prop :=
  ∀ (s : State) (rd ra : Reg) (imm : Imm),
    EncodedAs (.dprec rd ra imm) 0x73#8 .DAI
    ∧ ∃ t, exec (.dprec rd ra imm) s = .next t
      ∧ t.sc.get rd = imm
      ∧ (s.scale ra ≤ imm.toNat →
          (t.u rd : Int) = s.sg ra * (10 : Int) ^ (imm.toNat - s.scale ra) % (2 : Int) ^ s.W
          ∧ t.flag .inx = false)
      ∧ (imm.toNat < s.scale ra →
          t.sg rd = Int.tdiv (s.sg ra) ((10 : Int) ^ (s.scale ra - imm.toNat))
          ∧ (t.flag .inx = true ↔ ¬((10 : Int) ^ (s.scale ra - imm.toNat) ∣ s.sg ra)))
      ∧ Unchanged { v := [rd], sc := [rd], flags := [.inx] } s t

/-- R187. DPRECS: the scale increase only where the headroom estimate allows it, and its guarantee:
after OK = 1 of an increase the number denoted is unchanged. -/
def Obligations.CheckedPrecisionChange : Prop :=
  ∀ (s : State) (rd ra : Reg) (imm : Imm),
    EncodedAs (.dprecs rd ra imm) 0x74#8 .DAI
    ∧ (s.scale ra < imm.toNat →
        headroomOk s.params (lzcW s.params (s.sg ra).natAbs) (imm.toNat - s.scale ra) = true →
        ∃ t, exec (.dprecs rd ra imm) s = .next t ∧ t.flag .ok = true ∧ t.flag .inx = false
          ∧ t.sc.get rd = imm ∧ t.sg rd = s.sg ra * (10 : Int) ^ (imm.toNat - s.scale ra)
          ∧ denotes (t.sg rd) (t.scale rd) = denotes (s.sg ra) (s.scale ra)
          ∧ Unchanged { v := [rd], sc := [rd], flags := [.inx, .ok] } s t)
    ∧ (s.scale ra < imm.toNat →
        headroomOk s.params (lzcW s.params (s.sg ra).natAbs) (imm.toNat - s.scale ra) = false →
        ∃ t, exec (.dprecs rd ra imm) s = .next t ∧ t.flag .ok = false
          ∧ Unchanged { flags := [.ok] } s t)
    ∧ (imm.toNat ≤ s.scale ra → ∃ t, exec (.dprecs rd ra imm) s = .next t ∧ t.flag .ok = true
          ∧ t.sc.get rd = imm
          ∧ t.sg rd = Int.tdiv (s.sg ra) ((10 : Int) ^ (s.scale ra - imm.toNat))
          ∧ (t.flag .inx = true ↔ ¬((10 : Int) ^ (s.scale ra - imm.toNat) ∣ s.sg ra))
          ∧ Unchanged { v := [rd], sc := [rd], flags := [.inx, .ok] } s t)

/-- Property P1 of the headroom estimate (46_dec_scale.md R186) and the default's formula. That the
default instance has P1 is an inference of the spec; that there is an unnamed instance, cut down to P1,
is the model's choice (log 7). -/
def Obligations.HeadroomEstimateIsSound : Prop :=
  ∀ p : Params,
    (∀ L, headroomOk p L 0 = true)
    ∧ (∀ L k m, 0 < k → headroomOk p L k = true → m < 2 ^ p.width.bits → lzcW p m = L →
        m * 10 ^ k ≤ 2 ^ (p.width.bits - 1) - 1)
    ∧ (p.headroom = .specDefault → ∀ L k,
        (headroomOk p L k = true ↔ k = 0 ∨ (10 * k + 2) / 3 + 2 ≤ L))

/-! ## Decimal arithmetic -/

/-- R195 to R197. DADD and DSUB at the higher of the two scales. -/
def Obligations.DecimalAddAndSubtract : Prop :=
  ∀ (s : State) (rd ra rb : Reg) (m : Nat), m = max (s.scale ra) (s.scale rb) →
    (EncodedAs (.dadd rd ra rb) 0x80#8 .DAB
      ∧ ∃ t, exec (.dadd rd ra rb) s = .next t ∧ t.scale rd = m
        ∧ (t.u rd : Int) = (s.sg ra * (10 : Int) ^ (m - s.scale ra)
            + s.sg rb * (10 : Int) ^ (m - s.scale rb)) % (2 : Int) ^ s.W
        ∧ Unchanged { v := [rd], sc := [rd] } s t)
    ∧ (EncodedAs (.dsub rd ra rb) 0x81#8 .DAB
      ∧ ∃ t, exec (.dsub rd ra rb) s = .next t ∧ t.scale rd = m
        ∧ (t.u rd : Int) = (s.sg ra * (10 : Int) ^ (m - s.scale ra)
            - s.sg rb * (10 : Int) ^ (m - s.scale rb)) % (2 : Int) ^ s.W
        ∧ Unchanged { v := [rd], sc := [rd] } s t)

/-- R198 to R200. DADDS and DSUBS: refused, with OK alone written, exactly where an operand needs k > 0
more digits than the headroom estimate allows; after OK = 1 the aligned operands are exact, and the
result is exact where it lies in the signed range. -/
def Obligations.CheckedDecimalAddAndSubtract : Prop :=
  ∀ (s : State) (rd ra rb : Reg) (m : Nat), m = max (s.scale ra) (s.scale rb) →
    EncodedAs (.dadds rd ra rb) 0x82#8 .DAB ∧ EncodedAs (.dsubs rd ra rb) 0x83#8 .DAB
    ∧ ((∀ r ∈ [ra, rb], m - s.scale r = 0
          ∨ headroomOk s.params (lzcW s.params (s.sg r).natAbs) (m - s.scale r) = true) →
        (∀ r ∈ [ra, rb], InSigned s.W (s.sg r * (10 : Int) ^ (m - s.scale r)))
        ∧ (∃ t, exec (.dadds rd ra rb) s = .next t ∧ t.flag .ok = true ∧ t.scale rd = m
          ∧ (t.u rd : Int) = (s.sg ra * (10 : Int) ^ (m - s.scale ra)
              + s.sg rb * (10 : Int) ^ (m - s.scale rb)) % (2 : Int) ^ s.W
          ∧ (t.sg rd = s.sg ra * (10 : Int) ^ (m - s.scale ra) + s.sg rb * (10 : Int) ^ (m - s.scale rb)
              ↔ InSigned s.W
                (s.sg ra * (10 : Int) ^ (m - s.scale ra) + s.sg rb * (10 : Int) ^ (m - s.scale rb)))
          ∧ Unchanged { v := [rd], sc := [rd], flags := [.ok] } s t)
        ∧ ∃ t, exec (.dsubs rd ra rb) s = .next t ∧ t.flag .ok = true ∧ t.scale rd = m
          ∧ (t.u rd : Int) = (s.sg ra * (10 : Int) ^ (m - s.scale ra)
              - s.sg rb * (10 : Int) ^ (m - s.scale rb)) % (2 : Int) ^ s.W
          ∧ (t.sg rd = s.sg ra * (10 : Int) ^ (m - s.scale ra) - s.sg rb * (10 : Int) ^ (m - s.scale rb)
              ↔ InSigned s.W
                (s.sg ra * (10 : Int) ^ (m - s.scale ra) - s.sg rb * (10 : Int) ^ (m - s.scale rb)))
          ∧ Unchanged { v := [rd], sc := [rd], flags := [.ok] } s t)
    ∧ ((∃ r ∈ [ra, rb], 0 < m - s.scale r
          ∧ headroomOk s.params (lzcW s.params (s.sg r).natAbs) (m - s.scale r) = false) →
        (∃ t, exec (.dadds rd ra rb) s = .next t ∧ t.flag .ok = false
          ∧ Unchanged { flags := [.ok] } s t)
        ∧ ∃ t, exec (.dsubs rd ra rb) s = .next t ∧ t.flag .ok = false
          ∧ Unchanged { flags := [.ok] } s t)

/-- R202, R203. DMUL wraps; DMULS succeeds exactly where the signed product fits W bits. -/
def Obligations.DecimalMultiply : Prop :=
  ∀ (s : State) (rd ra rb : Reg),
    (EncodedAs (.dmul rd ra rb) 0x84#8 .DAB
      ∧ ∃ t, exec (.dmul rd ra rb) s = .next t
        ∧ (t.u rd : Int) = s.sg ra * s.sg rb % (2 : Int) ^ s.W
        ∧ t.scale rd = (s.scale ra + s.scale rb) % 2 ^ 32
        ∧ Unchanged { v := [rd], sc := [rd] } s t)
    ∧ EncodedAs (.dmuls rd ra rb) 0x85#8 .DAB
    ∧ (InSigned s.W (s.sg ra * s.sg rb) →
        ∃ t, exec (.dmuls rd ra rb) s = .next t ∧ t.flag .ok = true
          ∧ t.sg rd = s.sg ra * s.sg rb
          ∧ t.scale rd = (s.scale ra + s.scale rb) % 2 ^ 32
          ∧ (s.scale ra + s.scale rb < 2 ^ 32 → denotes (t.sg rd) (t.scale rd)
              = denotes (s.sg ra) (s.scale ra) * denotes (s.sg rb) (s.scale rb))
          ∧ Unchanged { v := [rd], sc := [rd], flags := [.ok] } s t)
    ∧ (¬InSigned s.W (s.sg ra * s.sg rb) →
        ∃ t, exec (.dmuls rd ra rb) s = .next t ∧ t.flag .ok = false
          ∧ Unchanged { flags := [.ok] } s t)

/-- The source's test of the checked multiply (47_dec_arith.md R204, an inference of the spec): a
positive value with L leading zeros times 2^j passes for j < L and fails for j = L. Only where 2^j is
a positive value: R204 does not say so, and for the value 1 and j = W - 1 the pattern 2^j reads as
-2^(W-1) and passes. -/
def Obligations.CheckedMultiplyFailsAtTheLeadingZeros : Prop :=
  ∀ (s : State) (rd ra rb : Reg) (L j : Nat), s.u ra ≠ 0 → L + Nat.log2 (s.u ra) + 1 = s.W → 1 ≤ L →
    j < s.W - 1 → s.u rb = 2 ^ j →
    (j < L → ∃ t, exec (.dmuls rd ra rb) s = .next t ∧ t.flag .ok = true
      ∧ t.u rd = s.u ra * 2 ^ j)
    ∧ (j = L → ∃ t, exec (.dmuls rd ra rb) s = .next t ∧ t.flag .ok = false ∧ t.v = s.v)

/-- Where decimal addition, subtraction and multiplication are exact (the inferences of
47_dec_arith.md R196, R199, R203): in terms of the numbers denoted. -/
def Obligations.DecimalResultsDenoteExactly : Prop :=
  ∀ (s t : State) (rd ra rb : Reg) (m : Nat), m = max (s.scale ra) (s.scale rb) →
    (InSigned s.W (s.sg ra * (10 : Int) ^ (m - s.scale ra) + s.sg rb * (10 : Int) ^ (m - s.scale rb)) →
      (exec (.dadd rd ra rb) s = .next t ∨ (exec (.dadds rd ra rb) s = .next t ∧ t.flag .ok = true)) →
      denotes (t.sg rd) (t.scale rd)
        = denotes (s.sg ra) (s.scale ra) + denotes (s.sg rb) (s.scale rb))
    ∧ (InSigned s.W (s.sg ra * (10 : Int) ^ (m - s.scale ra) - s.sg rb * (10 : Int) ^ (m - s.scale rb)) →
      (exec (.dsub rd ra rb) s = .next t ∨ (exec (.dsubs rd ra rb) s = .next t ∧ t.flag .ok = true)) →
      denotes (t.sg rd) (t.scale rd)
        = denotes (s.sg ra) (s.scale ra) - denotes (s.sg rb) (s.scale rb))
    ∧ (s.scale ra + s.scale rb < 2 ^ 32 →
      ((exec (.dmul rd ra rb) s = .next t ∧ InSigned s.W (s.sg ra * s.sg rb))
        ∨ (exec (.dmuls rd ra rb) s = .next t ∧ t.flag .ok = true)) →
      denotes (t.sg rd) (t.scale rd)
        = denotes (s.sg ra) (s.scale ra) * denotes (s.sg rb) (s.scale rb))

/-! ## Decimal division -/

/-- R212, with the setup of R210. DDIVF: one wrapping scale-up of the dividend's magnitude, one
division, the sign put back. -/
def Obligations.FastDivisionScalesThenDivides : Prop :=
  ∀ (s : State) (rd ra rb : Reg) (imm : Imm),
    EncodedAs (.ddivf rd ra rb imm) 0x88#8 .DABI
    ∧ ∀ e q, e = (s.scale rb + imm.toNat) % 2 ^ 32 →
      q = udivQ ((s.sg ra).natAbs * 10 ^ e % 2 ^ s.W) (s.sg rb).natAbs →
      ∃ t, exec (.ddivf rd ra rb imm) s = .next t
        ∧ (t.u rd : Int) = (if decide (s.sg ra < 0) = decide (s.sg rb < 0) then (q : Int) else -(q : Int))
            % (2 : Int) ^ s.W
        ∧ t.scale rd = (s.scale ra + imm.toNat) % 2 ^ 32
        ∧ (t.flag .dz = true ↔ s.sg rb = 0)
        ∧ Unchanged { v := [rd], sc := [rd], flags := [.dz] } s t

/-- R214, with the setup of R210. DDIVW: e passes of divide, accumulate, times ten, and the closing
divide. -/
def Obligations.WideDivisionGeneratesDigits : Prop :=
  ∀ (s : State) (rd ra rb : Reg) (imm : Imm),
    EncodedAs (.ddivw rd ra rb imm) 0x89#8 .DABI
    ∧ ∀ e qr q, e = (s.scale rb + imm.toNat) % 2 ^ 32 →
      qr = (divPass s.W (s.sg rb).natAbs)^[e] (0, (s.sg ra).natAbs) →
      q = (qr.1 + udivQ qr.2 (s.sg rb).natAbs) % 2 ^ s.W →
      ∃ t, exec (.ddivw rd ra rb imm) s = .next t
        ∧ (t.u rd : Int) = (if decide (s.sg ra < 0) = decide (s.sg rb < 0) then (q : Int) else -(q : Int))
            % (2 : Int) ^ s.W
        ∧ t.scale rd = (s.scale ra + imm.toNat) % 2 ^ 32
        ∧ (t.flag .dz = true ↔ s.sg rb = 0)
        ∧ Unchanged { v := [rd], sc := [rd], flags := [.dz] } s t

/-- R217, with the setup of R210. DDIVS: as DDIVW, refused exactly where the quotient of some pass
exceeds MAXSAFE before its multiplication by ten. -/
def Obligations.CheckedDivisionStopsAtMaxsafe : Prop :=
  ∀ (s : State) (rd ra rb : Reg) (imm : Imm) (e : Nat) (at_ : Nat → Nat × Nat),
    e = (s.scale rb + imm.toNat) % 2 ^ 32 →
    (∀ j, at_ j = (divPass s.W (s.sg rb).natAbs)^[j] (0, (s.sg ra).natAbs)) →
    EncodedAs (.ddivs rd ra rb imm) 0x8A#8 .DABI
    ∧ ((∃ j < e, (2 ^ s.W - 1) / 5 / 4 < ((at_ j).1 + udivQ (at_ j).2 (s.sg rb).natAbs) % 2 ^ s.W) →
        ∃ t, exec (.ddivs rd ra rb imm) s = .next t ∧ t.flag .ok = false
          ∧ Unchanged { flags := [.ok] } s t)
    ∧ ((∀ j < e, ((at_ j).1 + udivQ (at_ j).2 (s.sg rb).natAbs) % 2 ^ s.W ≤ (2 ^ s.W - 1) / 5 / 4) →
        ∀ q, q = ((at_ e).1 + udivQ (at_ e).2 (s.sg rb).natAbs) % 2 ^ s.W →
        ∃ t, exec (.ddivs rd ra rb imm) s = .next t ∧ t.flag .ok = true
          ∧ (t.u rd : Int) = (if decide (s.sg ra < 0) = decide (s.sg rb < 0) then (q : Int) else -(q : Int))
              % (2 : Int) ^ s.W
          ∧ t.scale rd = (s.scale ra + imm.toNat) % 2 ^ 32
          ∧ (t.flag .dz = true ↔ s.sg rb = 0)
          ∧ Unchanged { v := [rd], sc := [rd], flags := [.dz, .ok] } s t)

/-- Where the divisions are exact (the inferences of 48_dec_div.md R213, R215, R218): the result is
the quotient of the numbers denoted, truncated toward zero at the result's scale. -/
def Obligations.DivisionsAreExactInTheirRange : Prop :=
  ∀ (s t : State) (rd ra rb : Reg) (imm : Imm) (e : Nat), e = s.scale rb + imm.toNat →
    e < 2 ^ 32 → s.scale ra + imm.toNat < 2 ^ 32 → s.sg rb ≠ 0 →
    ((exec (.ddivf rd ra rb imm) s = .next t
        ∧ (s.sg ra).natAbs * 10 ^ e ≤ 2 ^ (s.W - 1) - 1)
      ∨ ((exec (.ddivw rd ra rb imm) s = .next t
            ∨ (exec (.ddivs rd ra rb imm) s = .next t ∧ t.flag .ok = true))
          ∧ 10 * ((s.sg rb).natAbs - 1) < 2 ^ s.W
          ∧ (s.sg ra).natAbs * 10 ^ e / (s.sg rb).natAbs ≤ 2 ^ (s.W - 1) - 1)) →
    t.scale rd = s.scale ra + imm.toNat
    ∧ t.sg rd = truncToward0 (denotes (s.sg ra) (s.scale ra) / denotes (s.sg rb) (s.scale rb)
        * (10 : ℚ) ^ t.scale rd)

/-! ## Decimal comparison and text -/

/-- R226, R227, with the order of R225. DEQ and DLT compare the rational numbers denoted. -/
def Obligations.DecimalComparisonIsExact : Prop :=
  ∀ (s : State) (ra rb : Reg),
    (EncodedAs (.deq ra rb) 0x90#8 .AB
      ∧ ∃ t, exec (.deq ra rb) s = .next t
        ∧ (t.flag .t = true ↔
            denotes (s.sg ra) (s.scale ra) = denotes (s.sg rb) (s.scale rb))
        ∧ Unchanged { flags := [.t] } s t)
    ∧ (EncodedAs (.dlt ra rb) 0x91#8 .AB
      ∧ ∃ t, exec (.dlt ra rb) s = .next t
        ∧ (t.flag .t = true ↔
            denotes (s.sg ra) (s.scale ra) < denotes (s.sg rb) (s.scale rb))
        ∧ Unchanged { flags := [.t] } s t)

/-- The five stages of the source's comparison compute the order of R225, for every pair of operands,
every width and every headroom estimate (the inference of 49_dec_cmp_text.md R232). -/
def Obligations.StagedComparisonAgrees : Prop :=
  ∀ (p : Params) (va sa vb sb : Nat), va < 2 ^ p.width.bits → vb < 2 ^ p.width.bits →
    (stagedCompare p va sa vb sb = .lt ↔
      denotes (signedVal p.width.bits va) sa < denotes (signedVal p.width.bits vb) sb)
    ∧ (stagedCompare p va sa vb sb = .eq ↔
      denotes (signedVal p.width.bits va) sa = denotes (signedVal p.width.bits vb) sb)

/-- R234. LDDCM: an optional sign, digits with at most one point; the scale is the number of digits
after the point. -/
def Obligations.DecimalWithScaleParses : Prop :=
  ∀ (s : State) (rd : Reg) (addr len : Half),
    EncodedAs (.lddcm rd addr len) 0x92#8 .LB
    ∧ (65536 < addr.toNat + len.toNat →
        ∃ t, exec (.lddcm rd addr len) s = .next t ∧ Faulted s t 4 (encode (.lddcm rd addr len)))
    ∧ (addr.toNat + len.toNat ≤ 65536 →
        ∀ i n, i = s.signLength addr.toNat len.toNat → n = len.toNat - i →
        (s.allDigits 10 (addr.toNat + i) n →
          ∃ t, exec (.lddcm rd addr len) s = .next t ∧ t.flag .ok = true ∧ t.scale rd = 0
            ∧ (t.u rd : Int) = s.signFactor addr.toNat len.toNat
                * (s.digitsValue 10 (addr.toNat + i) n : Int) % (2 : Int) ^ s.W
            ∧ Unchanged { v := [rd], sc := [rd], flags := [.ok] } s t)
        ∧ (∀ p, s.pointedDigits (addr.toNat + i) n p →
          ∃ t, exec (.lddcm rd addr len) s = .next t ∧ t.flag .ok = true ∧ t.scale rd = n - p - 1
            ∧ (t.u rd : Int) = s.signFactor addr.toNat len.toNat
                * ((s.digitsValue 10 (addr.toNat + i) p * 10 ^ (n - p - 1)
                    + s.digitsValue 10 (addr.toNat + i + p + 1) (n - p - 1) : Nat) : Int)
                % (2 : Int) ^ s.W
            ∧ Unchanged { v := [rd], sc := [rd], flags := [.ok] } s t)
        ∧ (¬s.allDigits 10 (addr.toNat + i) n → (∀ p, ¬s.pointedDigits (addr.toNat + i) n p) →
          ∃ t, exec (.lddcm rd addr len) s = .next t ∧ t.flag .ok = false
            ∧ Unchanged { flags := [.ok] } s t))

/-- R235. STDCM: the magnitude's digits with a point at the place the scale says, zeros before it
where the digits do not reach, '-' for a negative value. -/
def Obligations.DecimalWithScalePrints : Prop :=
  ∀ (s : State) (ra : Reg) (addr cap : Half),
    EncodedAs (.stdcm ra addr cap) 0x93#8 .SB
    ∧ (65536 < addr.toNat + cap.toNat →
        ∃ t, exec (.stdcm ra addr cap) s = .next t ∧ Faulted s t 4 (encode (.stdcm ra addr cap)))
    ∧ (addr.toNat + cap.toNat ≤ 65536 → ∃ nd, IsDigitCount (s.sg ra).natAbs nd
        ∧ ∀ n body, n = (if s.sg ra < 0 then 1 else 0) → body = bodyLength nd (s.scale ra) →
        (cap.toNat < n + body → ∃ t, exec (.stdcm ra addr cap) s = .next t
          ∧ t.res = 0#32 ∧ t.flag .ok = false
          ∧ Unchanged { flags := [.ok], res := true, bufAddr := addr.toNat, bufLen := cap.toNat } s t)
        ∧ (n + body ≤ cap.toNat → ∃ t, exec (.stdcm ra addr cap) s = .next t
          ∧ (s.sg ra < 0 → t.bufByte addr.toNat = 0x2D#8)
          ∧ (∀ j < body, t.bufByte (addr.toNat + n + j)
              = bodyChar (s.sg ra).natAbs nd (s.scale ra) j)
          ∧ t.res.toNat = n + body ∧ t.flag .ok = true
          ∧ Unchanged { flags := [.ok], res := true, bufAddr := addr.toNat, bufLen := cap.toNat } s t))

/-! ## The cell-level algorithms -/

/-- Ripple add and subtract, schoolbook multiply and the cellwise logic compute the functions of the
commands, for every cell width (the inferences of 42_int_arith.md R123 and R126 and of
43_int_logic_shift_bit_cmp.md R139). -/
def Obligations.CellArithmeticIsTheCommandsFunction : Prop :=
  ∀ C N a b : Nat, 0 < C → a < 2 ^ (C * N) → b < 2 ^ (C * N) →
    addByCells C N a b = (a + b) % 2 ^ (C * N)
    ∧ (subByCells C N a b : Int) = ((a : Int) - (b : Int)) % (2 : Int) ^ (C * N)
    ∧ mulByCells C N N a b = a * b % 2 ^ (C * N)
    ∧ mulByCells C N (2 * N) a b = a * b
    ∧ bitwiseByCells (fun x y => x &&& y) C N a b = a &&& b
    ∧ bitwiseByCells (fun x y => x ||| y) C N a b = a ||| b
    ∧ bitwiseByCells (fun x y => x ^^^ y) C N a b = a ^^^ b
    ∧ bitwiseByCells (fun x _ => 2 ^ C - 1 - x) C N a a = 2 ^ (C * N) - 1 - a

/-- Cell-split shifts, top-down comparison, the bit scan and the stepping by 10, 100 and 1000 compute
the functions of the commands (the inferences of 43_int_logic_shift_bit_cmp.md R142 and R147,
40_primitives.md R98, 46_dec_scale.md R185). -/
def Obligations.CellShiftsAndScansAreTheCommandsFunction : Prop :=
  (∀ C N a b n : Nat, 0 < C → a < 2 ^ (C * N) → b < 2 ^ (C * N) →
    shlByCells C N a n = a * 2 ^ n % 2 ^ (C * N)
    ∧ shrByCells C N a n = a / 2 ^ n
    ∧ cmpScan C a b N = (decide (a = b), decide (a < b))
    ∧ msbScan C a N = Nat.log2 a)
  ∧ (∀ W k m : Nat, m < 2 ^ W → stepUp W k m = m * 10 ^ k % 2 ^ W)
  ∧ (∀ k m : Nat, stepDown k m = (m / 10 ^ k, decide (m % 10 ^ k ≠ 0)))
end

