-- ==== Sys2Proof/Laws/Encoding.lean ====
section
/-! SUPPORT. The fields of a packed word are the fields packed, and a word is the pack of its fields. -/

namespace Sys2Proof

theorem fieldOp_packWord (op : BitVec 8) (o : Operands) : fieldOp (packWord op o) = op := by
  apply BitVec.eq_of_getLsbD_eq
  intro i hi
  simp only [fieldOp, packWord, BitVec.getLsbD_extractLsb', BitVec.getLsbD_append]
  interval_cases i <;> simp

theorem fieldZero_packWord (op : BitVec 8) (o : Operands) : fieldZero (packWord op o) = 0#8 := by
  apply BitVec.eq_of_getLsbD_eq
  intro i hi
  simp only [fieldZero, packWord, BitVec.getLsbD_extractLsb', BitVec.getLsbD_append]
  interval_cases i <;> simp

theorem fieldImm_packWord (op : BitVec 8) (o : Operands) : fieldImm (packWord op o) = o.imm := by
  apply BitVec.eq_of_getLsbD_eq
  intro i hi
  simp only [fieldImm, packWord, BitVec.getLsbD_extractLsb', BitVec.getLsbD_append]
  simp [hi]

theorem toFin_eq_of_bits {x : BitVec 4} {r : Reg} (h : x = BitVec.ofFin (w := 4) r) : x.toFin = r := by
  rw [h]

theorem fieldRd_packWord (op : BitVec 8) (o : Operands) : fieldRd (packWord op o) = o.rd := by
  apply toFin_eq_of_bits
  apply BitVec.eq_of_getLsbD_eq
  intro i hi
  simp only [packWord, BitVec.getLsbD_extractLsb', BitVec.getLsbD_append]
  interval_cases i <;> simp

theorem fieldRe_packWord (op : BitVec 8) (o : Operands) : fieldRe (packWord op o) = o.re := by
  apply toFin_eq_of_bits
  apply BitVec.eq_of_getLsbD_eq
  intro i hi
  simp only [packWord, BitVec.getLsbD_extractLsb', BitVec.getLsbD_append]
  interval_cases i <;> simp

theorem fieldRa_packWord (op : BitVec 8) (o : Operands) : fieldRa (packWord op o) = o.ra := by
  apply toFin_eq_of_bits
  apply BitVec.eq_of_getLsbD_eq
  intro i hi
  simp only [packWord, BitVec.getLsbD_extractLsb', BitVec.getLsbD_append]
  interval_cases i <;> simp

theorem fieldRb_packWord (op : BitVec 8) (o : Operands) : fieldRb (packWord op o) = o.rb := by
  apply toFin_eq_of_bits
  apply BitVec.eq_of_getLsbD_eq
  intro i hi
  simp only [packWord, BitVec.getLsbD_extractLsb', BitVec.getLsbD_append]
  interval_cases i <;> simp

/-- The operand fields of a packed word. -/
theorem operandsOf_packWord (op : BitVec 8) (o : Operands) : operandsOf (packWord op o) = o := by
  simp [operandsOf, fieldRd_packWord, fieldRe_packWord, fieldRa_packWord, fieldRb_packWord,
    fieldImm_packWord]

/-- A word whose bits 39:32 are zero is the pack of its fields. -/
theorem packWord_fields {w : CmdWord} (h : fieldZero w = 0#8) : packWord (fieldOp w) (operandsOf w) = w := by
  have hz : ∀ i, i < 8 → w.getLsbD (32 + i) = false := fun i hi => by
    have := congrArg (fun x => BitVec.getLsbD x i) h
    simpa [fieldZero, hi] using this
  apply BitVec.eq_of_getLsbD_eq
  intro i hi
  have hf : ∀ x : BitVec 4, BitVec.ofFin (w := 4) x.toFin = x := fun _ => rfl
  simp only [packWord, operandsOf, fieldRd, fieldRe, fieldRa, fieldRb, hf]
  simp only [fieldOp, fieldImm, BitVec.getLsbD_append, BitVec.getLsbD_extractLsb']
  by_cases h1 : i < 32
  · simp [h1]
  · by_cases h2 : i < 40
    · have := hz (i - 32) (by omega)
      rw [show 32 + (i - 32) = i by omega] at this
      simp [h1, show i - 32 < 8 by omega, this]
    · interval_cases i <;> simp

theorem immAddr_immOf (addr len : Half) : immAddr (immOf addr len) = addr := by
  apply BitVec.eq_of_getLsbD_eq
  intro i hi
  simp only [immAddr, immOf, BitVec.getLsbD_extractLsb', BitVec.getLsbD_append]
  simp [hi]

theorem immLen_immOf (addr len : Half) : immLen (immOf addr len) = len := by
  apply BitVec.eq_of_getLsbD_eq
  intro i hi
  simp only [immLen, immOf, BitVec.getLsbD_extractLsb', BitVec.getLsbD_append]
  simp [hi]

theorem immOf_fields (imm : Imm) : immOf (immAddr imm) (immLen imm) = imm := by
  apply BitVec.eq_of_getLsbD_eq
  intro i hi
  simp only [immOf, immAddr, immLen, BitVec.getLsbD_append, BitVec.getLsbD_extractLsb']
  by_cases h : i < 16
  · simp [h]
  · simp [h, show i - 16 < 16 by omega, show 16 + (i - 16) = i by omega]

/-- reservedClear of a packed word, field by field. -/
theorem reservedClear_packWord (i : Instr) (op : BitVec 8) (o : Operands) :
    reservedClear i (packWord op o) =
      ((i.format.usesRd || decide (o.rd = 0)) && (i.format.usesRe || decide (o.re = 0))
        && (i.format.usesRa || decide (o.ra = 0)) && (i.format.usesRb || decide (o.rb = 0))
        && (i.format.usesImm || decide (o.imm = 0#32))
        && (!i.lenMustBeZero || decide (immLen o.imm = 0#16))) := by
  simp only [reservedClear, fieldZero_packWord, fieldRd_packWord, fieldRe_packWord, fieldRa_packWord,
    fieldRb_packWord, fieldImm_packWord, decide_true, Bool.true_and]

end Sys2Proof
end

