-- ==== Sys2Proof/Laws/State.lean ====
section
/-! SUPPORT. One lemma per field of State per update, so that no proof unfolds a record update.
(putV_v, putS_sc and setFlag_status are no simp lemmas: Laws/Registers.lean says what a read gives.) -/

namespace Sys2Proof.Machine.State

variable (s : State)

/-! ## putV -/

@[simp] theorem putV_params (r : Reg) (x : Nat) : (s.putV r x).params = s.params := rfl
theorem putV_v (r : Reg) (x : Nat) : (s.putV r x).v = s.v.set r.val (BitVec.ofNat 512 (x % 2 ^ s.W)) r.isLt := rfl
@[simp] theorem putV_sc (r : Reg) (x : Nat) : (s.putV r x).sc = s.sc := rfl
@[simp] theorem putV_status (r : Reg) (x : Nat) : (s.putV r x).status = s.status := rfl
@[simp] theorem putV_res (r : Reg) (x : Nat) : (s.putV r x).res = s.res := rfl
@[simp] theorem putV_fault (r : Reg) (x : Nat) : (s.putV r x).fault = s.fault := rfl
@[simp] theorem putV_fcmd (r : Reg) (x : Nat) : (s.putV r x).fcmd = s.fcmd := rfl
@[simp] theorem putV_buf (r : Reg) (x : Nat) : (s.putV r x).buf = s.buf := rfl
@[simp] theorem putV_bufEpoch (r : Reg) (x : Nat) : (s.putV r x).bufEpoch = s.bufEpoch := rfl
@[simp] theorem putV_fresh (r : Reg) (x : Nat) : (s.putV r x).fresh = s.fresh := rfl
@[simp] theorem putV_inbox (r : Reg) (x : Nat) : (s.putV r x).inbox = s.inbox := rfl
@[simp] theorem putV_readback (r : Reg) (x : Nat) : (s.putV r x).readback = s.readback := rfl
@[simp] theorem putV_W (r : Reg) (x : Nat) : (s.putV r x).W = s.W := rfl

/-! ## putS -/

@[simp] theorem putS_params (r : Reg) (n : Nat) : (s.putS r n).params = s.params := rfl
@[simp] theorem putS_v (r : Reg) (n : Nat) : (s.putS r n).v = s.v := rfl
theorem putS_sc (r : Reg) (n : Nat) : (s.putS r n).sc = s.sc.set r.val (BitVec.ofNat 32 n) r.isLt := rfl
@[simp] theorem putS_status (r : Reg) (n : Nat) : (s.putS r n).status = s.status := rfl
@[simp] theorem putS_res (r : Reg) (n : Nat) : (s.putS r n).res = s.res := rfl
@[simp] theorem putS_fault (r : Reg) (n : Nat) : (s.putS r n).fault = s.fault := rfl
@[simp] theorem putS_fcmd (r : Reg) (n : Nat) : (s.putS r n).fcmd = s.fcmd := rfl
@[simp] theorem putS_buf (r : Reg) (n : Nat) : (s.putS r n).buf = s.buf := rfl
@[simp] theorem putS_bufEpoch (r : Reg) (n : Nat) : (s.putS r n).bufEpoch = s.bufEpoch := rfl
@[simp] theorem putS_fresh (r : Reg) (n : Nat) : (s.putS r n).fresh = s.fresh := rfl
@[simp] theorem putS_inbox (r : Reg) (n : Nat) : (s.putS r n).inbox = s.inbox := rfl
@[simp] theorem putS_readback (r : Reg) (n : Nat) : (s.putS r n).readback = s.readback := rfl
@[simp] theorem putS_W (r : Reg) (n : Nat) : (s.putS r n).W = s.W := rfl

/-! ## putRes -/

@[simp] theorem putRes_params (n : Nat) : (s.putRes n).params = s.params := rfl
@[simp] theorem putRes_v (n : Nat) : (s.putRes n).v = s.v := rfl
@[simp] theorem putRes_sc (n : Nat) : (s.putRes n).sc = s.sc := rfl
@[simp] theorem putRes_status (n : Nat) : (s.putRes n).status = s.status := rfl
@[simp] theorem putRes_res (n : Nat) : (s.putRes n).res = BitVec.ofNat 32 n := rfl
@[simp] theorem putRes_fault (n : Nat) : (s.putRes n).fault = s.fault := rfl
@[simp] theorem putRes_fcmd (n : Nat) : (s.putRes n).fcmd = s.fcmd := rfl
@[simp] theorem putRes_buf (n : Nat) : (s.putRes n).buf = s.buf := rfl
@[simp] theorem putRes_bufEpoch (n : Nat) : (s.putRes n).bufEpoch = s.bufEpoch := rfl
@[simp] theorem putRes_fresh (n : Nat) : (s.putRes n).fresh = s.fresh := rfl
@[simp] theorem putRes_inbox (n : Nat) : (s.putRes n).inbox = s.inbox := rfl
@[simp] theorem putRes_readback (n : Nat) : (s.putRes n).readback = s.readback := rfl
@[simp] theorem putRes_W (n : Nat) : (s.putRes n).W = s.W := rfl

/-! ## setFlag -/

@[simp] theorem setFlag_params (f : Flag) (b : Bool) : (s.setFlag f b).params = s.params := rfl
@[simp] theorem setFlag_v (f : Flag) (b : Bool) : (s.setFlag f b).v = s.v := rfl
@[simp] theorem setFlag_sc (f : Flag) (b : Bool) : (s.setFlag f b).sc = s.sc := rfl
theorem setFlag_status (f : Flag) (b : Bool) : (s.setFlag f b).status = statusWith s.status f b := rfl
@[simp] theorem setFlag_res (f : Flag) (b : Bool) : (s.setFlag f b).res = s.res := rfl
@[simp] theorem setFlag_fault (f : Flag) (b : Bool) : (s.setFlag f b).fault = s.fault := rfl
@[simp] theorem setFlag_fcmd (f : Flag) (b : Bool) : (s.setFlag f b).fcmd = s.fcmd := rfl
@[simp] theorem setFlag_buf (f : Flag) (b : Bool) : (s.setFlag f b).buf = s.buf := rfl
@[simp] theorem setFlag_bufEpoch (f : Flag) (b : Bool) : (s.setFlag f b).bufEpoch = s.bufEpoch := rfl
@[simp] theorem setFlag_fresh (f : Flag) (b : Bool) : (s.setFlag f b).fresh = s.fresh := rfl
@[simp] theorem setFlag_inbox (f : Flag) (b : Bool) : (s.setFlag f b).inbox = s.inbox := rfl
@[simp] theorem setFlag_readback (f : Flag) (b : Bool) : (s.setFlag f b).readback = s.readback := rfl
@[simp] theorem setFlag_W (f : Flag) (b : Bool) : (s.setFlag f b).W = s.W := rfl

/-! ## putBytes -/

@[simp] theorem putBytes_params (a : Nat) (bs : List Byte) : (s.putBytes a bs).params = s.params := rfl
@[simp] theorem putBytes_v (a : Nat) (bs : List Byte) : (s.putBytes a bs).v = s.v := rfl
@[simp] theorem putBytes_sc (a : Nat) (bs : List Byte) : (s.putBytes a bs).sc = s.sc := rfl
@[simp] theorem putBytes_status (a : Nat) (bs : List Byte) : (s.putBytes a bs).status = s.status := rfl
@[simp] theorem putBytes_res (a : Nat) (bs : List Byte) : (s.putBytes a bs).res = s.res := rfl
@[simp] theorem putBytes_fault (a : Nat) (bs : List Byte) : (s.putBytes a bs).fault = s.fault := rfl
@[simp] theorem putBytes_fcmd (a : Nat) (bs : List Byte) : (s.putBytes a bs).fcmd = s.fcmd := rfl
@[simp] theorem putBytes_buf (a : Nat) (bs : List Byte) : (s.putBytes a bs).buf = Memory.putList s.buf a bs := rfl
@[simp] theorem putBytes_bufEpoch (a : Nat) (bs : List Byte) : (s.putBytes a bs).bufEpoch = s.bufEpoch := rfl
@[simp] theorem putBytes_fresh (a : Nat) (bs : List Byte) : (s.putBytes a bs).fresh = s.fresh := rfl
@[simp] theorem putBytes_inbox (a : Nat) (bs : List Byte) : (s.putBytes a bs).inbox = s.inbox := rfl
@[simp] theorem putBytes_readback (a : Nat) (bs : List Byte) : (s.putBytes a bs).readback = s.readback := rfl
@[simp] theorem putBytes_W (a : Nat) (bs : List Byte) : (s.putBytes a bs).W = s.W := rfl

/-! ## putUnspecified -/

@[simp] theorem putUnspecified_params (a n : Nat) : (s.putUnspecified a n).params = s.params := rfl
@[simp] theorem putUnspecified_v (a n : Nat) : (s.putUnspecified a n).v = s.v := rfl
@[simp] theorem putUnspecified_sc (a n : Nat) : (s.putUnspecified a n).sc = s.sc := rfl
@[simp] theorem putUnspecified_status (a n : Nat) : (s.putUnspecified a n).status = s.status := rfl
@[simp] theorem putUnspecified_res (a n : Nat) : (s.putUnspecified a n).res = s.res := rfl
@[simp] theorem putUnspecified_fault (a n : Nat) : (s.putUnspecified a n).fault = s.fault := rfl
@[simp] theorem putUnspecified_fcmd (a n : Nat) : (s.putUnspecified a n).fcmd = s.fcmd := rfl
@[simp] theorem putUnspecified_buf (a n : Nat) : (s.putUnspecified a n).buf = Memory.putList s.buf a (freeBytes s.fresh a n) := rfl
@[simp] theorem putUnspecified_bufEpoch (a n : Nat) : (s.putUnspecified a n).bufEpoch = s.bufEpoch := rfl
@[simp] theorem putUnspecified_fresh (a n : Nat) : (s.putUnspecified a n).fresh = s.fresh + 1 := rfl
@[simp] theorem putUnspecified_inbox (a n : Nat) : (s.putUnspecified a n).inbox = s.inbox := rfl
@[simp] theorem putUnspecified_readback (a n : Nat) : (s.putUnspecified a n).readback = s.readback := rfl
@[simp] theorem putUnspecified_W (a n : Nat) : (s.putUnspecified a n).W = s.W := rfl

/-! ## takeFault -/

@[simp] theorem takeFault_params (c : FaultCause) (w : CmdWord) : (s.takeFault c w).params = s.params := rfl
@[simp] theorem takeFault_v (c : FaultCause) (w : CmdWord) : (s.takeFault c w).v = s.v := rfl
@[simp] theorem takeFault_sc (c : FaultCause) (w : CmdWord) : (s.takeFault c w).sc = s.sc := rfl
@[simp] theorem takeFault_status (c : FaultCause) (w : CmdWord) : (s.takeFault c w).status = s.status := rfl
@[simp] theorem takeFault_res (c : FaultCause) (w : CmdWord) : (s.takeFault c w).res = s.res := rfl
@[simp] theorem takeFault_fault (c : FaultCause) (w : CmdWord) : (s.takeFault c w).fault = faultWord c := rfl
@[simp] theorem takeFault_fcmd (c : FaultCause) (w : CmdWord) : (s.takeFault c w).fcmd = w := rfl
@[simp] theorem takeFault_buf (c : FaultCause) (w : CmdWord) : (s.takeFault c w).buf = s.buf := rfl
@[simp] theorem takeFault_bufEpoch (c : FaultCause) (w : CmdWord) : (s.takeFault c w).bufEpoch = s.bufEpoch := rfl
@[simp] theorem takeFault_fresh (c : FaultCause) (w : CmdWord) : (s.takeFault c w).fresh = s.fresh := rfl
@[simp] theorem takeFault_inbox (c : FaultCause) (w : CmdWord) : (s.takeFault c w).inbox = s.inbox := rfl
@[simp] theorem takeFault_readback (c : FaultCause) (w : CmdWord) : (s.takeFault c w).readback = s.readback := rfl
@[simp] theorem takeFault_W (c : FaultCause) (w : CmdWord) : (s.takeFault c w).W = s.W := rfl

/-! ## assertReset -/

@[simp] theorem assertReset_params : s.assertReset.params = s.params := rfl
@[simp] theorem assertReset_v : s.assertReset.v = freeVFile s.W s.fresh := rfl
@[simp] theorem assertReset_sc : s.assertReset.sc = freeSFile s.fresh := rfl
@[simp] theorem assertReset_status : s.assertReset.status = 0#32 := rfl
@[simp] theorem assertReset_res : s.assertReset.res = 0#32 := rfl
@[simp] theorem assertReset_fault : s.assertReset.fault = 0#32 := rfl
@[simp] theorem assertReset_fcmd : s.assertReset.fcmd = 0#64 := rfl
@[simp] theorem assertReset_buf : s.assertReset.buf = [] := rfl
@[simp] theorem assertReset_bufEpoch : s.assertReset.bufEpoch = s.fresh := rfl
@[simp] theorem assertReset_fresh : s.assertReset.fresh = s.fresh + 1 := rfl
@[simp] theorem assertReset_inbox : s.assertReset.inbox = s.inbox := rfl
@[simp] theorem assertReset_readback : s.assertReset.readback = s.readback := rfl
@[simp] theorem assertReset_W : s.assertReset.W = s.W := rfl

/-! ## withPending -/

@[simp] theorem withPending_params (l : List HostAction) : (s.withPending l).params = s.params := rfl
@[simp] theorem withPending_v (l : List HostAction) : (s.withPending l).v = s.v := rfl
@[simp] theorem withPending_sc (l : List HostAction) : (s.withPending l).sc = s.sc := rfl
@[simp] theorem withPending_status (l : List HostAction) : (s.withPending l).status = s.status := rfl
@[simp] theorem withPending_res (l : List HostAction) : (s.withPending l).res = s.res := rfl
@[simp] theorem withPending_fault (l : List HostAction) : (s.withPending l).fault = s.fault := rfl
@[simp] theorem withPending_fcmd (l : List HostAction) : (s.withPending l).fcmd = s.fcmd := rfl
@[simp] theorem withPending_buf (l : List HostAction) : (s.withPending l).buf = s.buf := rfl
@[simp] theorem withPending_bufEpoch (l : List HostAction) : (s.withPending l).bufEpoch = s.bufEpoch := rfl
@[simp] theorem withPending_fresh (l : List HostAction) : (s.withPending l).fresh = s.fresh := rfl
@[simp] theorem withPending_inbox (l : List HostAction) : (s.withPending l).inbox = l ++ s.inbox := rfl
@[simp] theorem withPending_readback (l : List HostAction) : (s.withPending l).readback = s.readback := rfl
@[simp] theorem withPending_W (l : List HostAction) : (s.withPending l).W = s.W := rfl

/-! ## hostRead -/

@[simp] theorem hostRead_params (p : Port) : (s.hostRead p).params = s.params := rfl
@[simp] theorem hostRead_v (p : Port) : (s.hostRead p).v = s.v := rfl
@[simp] theorem hostRead_sc (p : Port) : (s.hostRead p).sc = s.sc := rfl
@[simp] theorem hostRead_status (p : Port) : (s.hostRead p).status = s.status := rfl
@[simp] theorem hostRead_res (p : Port) : (s.hostRead p).res = s.res := rfl
@[simp] theorem hostRead_fault (p : Port) : (s.hostRead p).fault = s.fault := rfl
@[simp] theorem hostRead_fcmd (p : Port) : (s.hostRead p).fcmd = s.fcmd := rfl
@[simp] theorem hostRead_buf (p : Port) : (s.hostRead p).buf = s.buf := rfl
@[simp] theorem hostRead_bufEpoch (p : Port) : (s.hostRead p).bufEpoch = s.bufEpoch := rfl
@[simp] theorem hostRead_fresh (p : Port) : (s.hostRead p).fresh = s.fresh := rfl
@[simp] theorem hostRead_inbox (p : Port) : (s.hostRead p).inbox = s.inbox := rfl
@[simp] theorem hostRead_readback (p : Port) : (s.hostRead p).readback = s.portValue p :: s.readback := rfl
@[simp] theorem hostRead_W (p : Port) : (s.hostRead p).W = s.W := rfl

/-! ## hostReadBuf -/

@[simp] theorem hostReadBuf_params (a : Half) : (s.hostReadBuf a).params = s.params := rfl
@[simp] theorem hostReadBuf_v (a : Half) : (s.hostReadBuf a).v = s.v := rfl
@[simp] theorem hostReadBuf_sc (a : Half) : (s.hostReadBuf a).sc = s.sc := rfl
@[simp] theorem hostReadBuf_status (a : Half) : (s.hostReadBuf a).status = s.status := rfl
@[simp] theorem hostReadBuf_res (a : Half) : (s.hostReadBuf a).res = s.res := rfl
@[simp] theorem hostReadBuf_fault (a : Half) : (s.hostReadBuf a).fault = s.fault := rfl
@[simp] theorem hostReadBuf_fcmd (a : Half) : (s.hostReadBuf a).fcmd = s.fcmd := rfl
@[simp] theorem hostReadBuf_buf (a : Half) : (s.hostReadBuf a).buf = s.buf := rfl
@[simp] theorem hostReadBuf_bufEpoch (a : Half) : (s.hostReadBuf a).bufEpoch = s.bufEpoch := rfl
@[simp] theorem hostReadBuf_fresh (a : Half) : (s.hostReadBuf a).fresh = s.fresh := rfl
@[simp] theorem hostReadBuf_inbox (a : Half) : (s.hostReadBuf a).inbox = s.inbox := rfl
@[simp] theorem hostReadBuf_readback (a : Half) : (s.hostReadBuf a).readback = (s.bufByte a.toNat).setWidth 64 :: s.readback := rfl
@[simp] theorem hostReadBuf_W (a : Half) : (s.hostReadBuf a).W = s.W := rfl

end Sys2Proof.Machine.State
end

