-- ==== Sys2Proof/Laws/Memory.lean ====
section
/-! SUPPORT. BUF: reading after a write, and the canonical form. -/

namespace Sys2Proof.Machine

theorem Memory.find_append (m n : Memory) (a : Nat) :
    Memory.find (m ++ n) a = (Memory.find m a).or (Memory.find n a) := by
  induction m with
  | nil => simp [Memory.find]
  | cons c m ih =>
    obtain ⟨c, x⟩ := c
    by_cases h : a = c <;> simp [Memory.find, h, ih]

theorem Memory.find_filter (p : Nat → Bool) (m : Memory) (a : Nat) :
    Memory.find (m.filter fun c => p c.1) a = if p a then Memory.find m a else none := by
  induction m with
  | nil => simp [Memory.find]
  | cons c m ih =>
    obtain ⟨c, x⟩ := c
    by_cases hp : p c = true <;> by_cases h : a = c
    · subst h; simp [Memory.find, hp]
    · simp [Memory.find, hp, h, ih]
    · subst h; simp [hp, ih]
    · simp [Memory.find, hp, h, ih]

/-- The cells of a run of bytes: byte a - addr at address a. -/
theorem Memory.find_cells (bs : List Byte) (addr a : Nat) :
    Memory.find (Memory.cells addr bs) a =
      if addr ≤ a ∧ a < bufSize then bs[a - addr]? else none := by
  induction bs generalizing addr with
  | nil => simp [Memory.cells, Memory.find]
  | cons b bs ih =>
    unfold Memory.cells
    by_cases hb : addr < bufSize
    · by_cases ha : a = addr
      · subst ha; simp [Memory.find, hb]
      · simp only [hb, if_true, Memory.find, ha, if_false, ih]
        by_cases hc : addr + 1 ≤ a
        · have h1 : addr ≤ a := by omega
          have h2 : a - addr = (a - (addr + 1)) + 1 := by omega
          simp [hc, h1, h2]
        · have h1 : ¬ addr ≤ a := by omega
          simp [hc, h1]
    · have : ¬ (addr ≤ a ∧ a < bufSize) := by omega
      simp [hb, Memory.find, this]

/-- Everything MemWrite does to the listed bytes, for a window inside BUF. -/
theorem Memory.find_putList (m : Memory) (addr : Nat) (bs : List Byte) (a : Nat)
    (h : addr + bs.length ≤ bufSize) :
    Memory.find (Memory.putList m addr bs) a =
      if addr ≤ a ∧ a < addr + bs.length then bs[a - addr]? else Memory.find m a := by
  unfold Memory.putList
  rw [Memory.find_append, Memory.find_append,
    Memory.find_filter (fun c => decide (c < addr)),
    Memory.find_filter (fun c => decide (addr + bs.length ≤ c)), Memory.find_cells]
  by_cases h1 : a < addr
  · have h2 : ¬ addr ≤ a := by omega
    have h3 : ¬ addr + bs.length ≤ a := by omega
    simp [h1, h2, h3]
  · by_cases h2 : addr + bs.length ≤ a
    · have h3 : ¬ a < addr + bs.length := by omega
      have h4 : bs[a - addr]? = none := by simp; omega
      simp [h1, h2, h3, h4]
    · have h3 : addr ≤ a ∧ a < addr + bs.length := by omega
      have h4 : addr ≤ a ∧ a < bufSize := by omega
      have h5 : a - addr < bs.length := by omega
      simp [h1, h2, h3, h4, h5]

theorem Memory.wfFrom_mono {lo lo' : Nat} (h : lo' ≤ lo) :
    ∀ {m : Memory}, Memory.wfFrom lo m = true → Memory.wfFrom lo' m = true
  | [], _ => rfl
  | (a, x) :: m, hm => by
    simp only [Memory.wfFrom, Bool.and_eq_true, decide_eq_true_eq] at hm ⊢
    exact ⟨⟨by omega, hm.1.2⟩, hm.2⟩

/-- A filter keeps the canonical form, and all its addresses stay past a bound they satisfy. -/
theorem Memory.wfFrom_filter (p : Nat → Bool) (lo lo' : Nat) (hlo : lo' ≤ lo ∨ ∀ a, p a = true → lo' ≤ a) :
    ∀ {m : Memory}, Memory.wfFrom lo m = true →
      Memory.wfFrom lo' (m.filter fun c => p c.1) = true := by
  intro m
  induction m generalizing lo lo' with
  | nil => intro _; rfl
  | cons c m ih =>
    obtain ⟨a, x⟩ := c
    intro hm
    simp only [Memory.wfFrom, Bool.and_eq_true, decide_eq_true_eq] at hm
    by_cases hp : p a = true
    · have : lo' ≤ a := by rcases hlo with h | h; omega; exact h a hp
      simp only [List.filter_cons, hp, if_true, Memory.wfFrom, Bool.and_eq_true, decide_eq_true_eq]
      exact ⟨⟨this, hm.1.2⟩, ih (a + 1) (a + 1) (Or.inl le_rfl) hm.2⟩
    · simp only [List.filter_cons, hp]
      refine ih (a + 1) lo' ?_ hm.2
      rcases hlo with h | h
      · left; omega
      · right; exact h

/-- Two canonical lists, the addresses of the first all below mid, make one. -/
theorem Memory.wfFrom_append (lo mid : Nat) (n : Memory) (hn : Memory.wfFrom mid n = true)
    (hlo : lo ≤ mid) :
    ∀ {m : Memory}, Memory.wfFrom lo m = true → (∀ c ∈ m, c.1 < mid) →
      Memory.wfFrom lo (m ++ n) = true := by
  intro m
  induction m generalizing lo with
  | nil => intro _ _; exact Memory.wfFrom_mono hlo hn
  | cons c m ih =>
    obtain ⟨a, x⟩ := c
    intro hm hlt
    simp only [List.cons_append, Memory.wfFrom, Bool.and_eq_true, decide_eq_true_eq] at hm ⊢
    have ha : a < mid := hlt (a, x) (by simp)
    exact ⟨hm.1, ih (a + 1) (by omega) hm.2 fun c hc => hlt c (by simp [hc])⟩

theorem Memory.wfFrom_cells (bs : List Byte) (addr : Nat) :
    Memory.wfFrom addr (Memory.cells addr bs) = true := by
  induction bs generalizing addr with
  | nil => rfl
  | cons b bs ih =>
    unfold Memory.cells
    by_cases hb : addr < bufSize
    · simp [hb, Memory.wfFrom, ih]
    · simp [hb, Memory.wfFrom]

theorem Memory.cells_lt (bs : List Byte) (addr : Nat) :
    ∀ c ∈ Memory.cells addr bs, c.1 < addr + bs.length := by
  induction bs generalizing addr with
  | nil => intro c hc; simp [Memory.cells] at hc
  | cons b bs ih =>
    intro c hc
    unfold Memory.cells at hc
    by_cases hb : addr < bufSize
    · simp only [hb, if_true, List.mem_cons] at hc
      rcases hc with rfl | hc
      · simp
      · have := ih (addr + 1) c hc
        simp only [List.length_cons]; omega
    · simp [hb] at hc

/-- Every write keeps the canonical form. -/
theorem Memory.wf_putList {m : Memory} (addr : Nat) (bs : List Byte) (h : Memory.wf m = true) :
    Memory.wf (Memory.putList m addr bs) = true := by
  have below : Memory.wfFrom 0 (m.filter fun c => decide (c.1 < addr)) = true :=
    Memory.wfFrom_filter (fun a => decide (a < addr)) 0 0 (Or.inl le_rfl) h
  have above : Memory.wfFrom (addr + bs.length)
      (m.filter fun c => decide (addr + bs.length ≤ c.1)) = true :=
    Memory.wfFrom_filter (fun a => decide (addr + bs.length ≤ a)) 0 _ (Or.inr (by simp)) h
  have window := Memory.wfFrom_append addr (addr + bs.length) _ above (by omega)
    (Memory.wfFrom_cells bs addr) (Memory.cells_lt bs addr)
  unfold Memory.wf Memory.putList
  rw [List.append_assoc]
  exact Memory.wfFrom_append 0 addr _ window (by omega) below (by simp)

theorem Memory.wf_nil : Memory.wf [] = true := rfl

/-! ## The byte read -/

theorem State.bufByte_congr {s t : State} (hb : t.buf = s.buf) (he : t.bufEpoch = s.bufEpoch) (a : Nat) :
    t.bufByte a = s.bufByte a := by
  simp [State.bufByte, hb, he]

/-- Inside the window a byte reads as written, outside as before. -/
theorem State.bufByte_putBytes (s : State) (addr : Nat) (bs : List Byte) (a : Nat)
    (h : addr + bs.length ≤ bufSize) :
    (s.putBytes addr bs).bufByte a =
      if h : addr ≤ a ∧ a < addr + bs.length then bs[a - addr]'(by omega) else s.bufByte a := by
  simp only [State.bufByte, State.putBytes_buf, State.putBytes_bufEpoch,
    Memory.find_putList _ _ _ _ h]
  by_cases hc : addr ≤ a ∧ a < addr + bs.length
  · have : a - addr < bs.length := by omega
    simp [hc, this]
  · simp [hc]

theorem freeBytes_length (e a n : Nat) : (freeBytes e a n).length = n := by simp [freeBytes]

/-- An unspecified window: outside it a byte reads as before. -/
theorem State.bufByte_putUnspecified_outside (s : State) (addr n a : Nat) (h : addr + n ≤ bufSize)
    (ha : ¬(addr ≤ a ∧ a < addr + n)) : (s.putUnspecified addr n).bufByte a = s.bufByte a := by
  have hl : addr + (freeBytes s.fresh addr n).length ≤ bufSize := by simpa [freeBytes_length] using h
  simp only [State.bufByte, State.putUnspecified_buf, State.putUnspecified_bufEpoch,
    Memory.find_putList _ _ _ _ hl, freeBytes_length, ha, if_false]

@[simp] theorem State.bufByte_putV (s : State) (r : Reg) (x a : Nat) :
    (s.putV r x).bufByte a = s.bufByte a := rfl
@[simp] theorem State.bufByte_putS (s : State) (r : Reg) (n a : Nat) :
    (s.putS r n).bufByte a = s.bufByte a := rfl
@[simp] theorem State.bufByte_putRes (s : State) (n a : Nat) :
    (s.putRes n).bufByte a = s.bufByte a := rfl
@[simp] theorem State.bufByte_setFlag (s : State) (f : Flag) (b : Bool) (a : Nat) :
    (s.setFlag f b).bufByte a = s.bufByte a := rfl
@[simp] theorem State.bufByte_takeFault (s : State) (c : FaultCause) (w : CmdWord) (a : Nat) :
    (s.takeFault c w).bufByte a = s.bufByte a := rfl

@[simp] theorem State.window_length (s : State) (a n : Nat) : (s.window a n).length = n := by
  simp [State.window]

theorem State.window_getElem (s : State) (a n j : Nat) (h : j < (s.window a n).length) :
    (s.window a n)[j] = s.bufByte (a + j) := by
  simp [State.window]

end Sys2Proof.Machine
end

