-- ==== Sys2Proof/Laws/Registers.lean ====
section
/-! SUPPORT. Reading a register or a flag after a write. -/

namespace Sys2Proof.Machine

theorem Width.bits_le (w : Width) : w.bits ≤ 512 := by cases w <;> decide

theorem State.W_le (s : State) : s.W ≤ 512 := Width.bits_le s.params.width

theorem State.W_pos (s : State) : 128 ≤ s.W := by
  unfold State.W; cases s.params.width <;> decide

theorem State.u_lt (s : State) (r : Reg) : s.u r < 2 ^ s.W := Nat.mod_lt _ (Nat.two_pow_pos _)

/-! ## V -/

theorem State.get_putV (s : State) (r q : Reg) (x : Nat) :
    (s.putV r x).v.get q = if q = r then BitVec.ofNat 512 (x % 2 ^ s.W) else s.v.get q := by
  simp only [State.putV_v, Vector.get_eq_getElem, Vector.getElem_set]
  by_cases h : q = r
  · simp [h]
  · have h' : ¬ r.val = q.val := fun e => h (Fin.ext e.symm)
    simp [h, h']

@[simp] theorem State.get_putV_ne (s : State) {r q : Reg} (x : Nat) (h : q ≠ r) :
    (s.putV r x).v.get q = s.v.get q := by simp [State.get_putV, h]

set_option exponentiation.threshold 600 in
theorem State.toNat_get_putV (s : State) (r : Reg) (x : Nat) :
    ((s.putV r x).v.get r).toNat = x % 2 ^ s.W := by
  have h1 : x % 2 ^ s.W < 2 ^ s.W := Nat.mod_lt _ (Nat.two_pow_pos _)
  have h2 : 2 ^ s.W ≤ 2 ^ 512 := Nat.pow_le_pow_right (by decide) s.W_le
  rw [State.get_putV, if_pos rfl, BitVec.toNat_ofNat, Nat.mod_eq_of_lt (lt_of_lt_of_le h1 h2)]

/-- V[r] <- bits_W(x): the register reads as x modulo 2^W, every other one as before. -/
theorem State.u_putV (s : State) (r q : Reg) (x : Nat) :
    (s.putV r x).u q = if q = r then x % 2 ^ s.W else s.u q := by
  unfold State.u
  by_cases h : q = r
  · subst h; simp [State.toNat_get_putV]
  · simp [h]

@[simp] theorem State.u_putV_same (s : State) (r : Reg) (x : Nat) :
    (s.putV r x).u r = x % 2 ^ s.W := by simp [State.u_putV]

@[simp] theorem State.u_putV_ne (s : State) {r q : Reg} (x : Nat) (h : q ≠ r) :
    (s.putV r x).u q = s.u q := by simp [State.u_putV, h]

@[simp] theorem State.u_putS (s : State) (r q : Reg) (n : Nat) : (s.putS r n).u q = s.u q := rfl
@[simp] theorem State.u_putRes (s : State) (n : Nat) (q : Reg) : (s.putRes n).u q = s.u q := rfl
@[simp] theorem State.u_setFlag (s : State) (f : Flag) (b : Bool) (q : Reg) :
    (s.setFlag f b).u q = s.u q := rfl
@[simp] theorem State.u_putBytes (s : State) (a : Nat) (bs : List Byte) (q : Reg) :
    (s.putBytes a bs).u q = s.u q := rfl
@[simp] theorem State.u_putUnspecified (s : State) (a n : Nat) (q : Reg) :
    (s.putUnspecified a n).u q = s.u q := rfl
@[simp] theorem State.u_takeFault (s : State) (c : FaultCause) (w : CmdWord) (q : Reg) :
    (s.takeFault c w).u q = s.u q := rfl

/-! ## S -/

theorem State.get_putS (s : State) (r q : Reg) (n : Nat) :
    (s.putS r n).sc.get q = if q = r then BitVec.ofNat 32 n else s.sc.get q := by
  simp only [State.putS_sc, Vector.get_eq_getElem, Vector.getElem_set]
  by_cases h : q = r
  · simp [h]
  · have h' : ¬ r.val = q.val := fun e => h (Fin.ext e.symm)
    simp [h, h']

@[simp] theorem State.get_putS_ne (s : State) {r q : Reg} (n : Nat) (h : q ≠ r) :
    (s.putS r n).sc.get q = s.sc.get q := by simp [State.get_putS, h]

theorem State.scale_putS (s : State) (r q : Reg) (n : Nat) :
    (s.putS r n).scale q = if q = r then n % 2 ^ 32 else s.scale q := by
  unfold State.scale
  by_cases h : q = r <;> simp [State.get_putS, h]

@[simp] theorem State.scale_putS_same (s : State) (r : Reg) (n : Nat) :
    (s.putS r n).scale r = n % 2 ^ 32 := by simp [State.scale_putS]

@[simp] theorem State.scale_putV (s : State) (r q : Reg) (x : Nat) :
    (s.putV r x).scale q = s.scale q := rfl
@[simp] theorem State.scale_setFlag (s : State) (f : Flag) (b : Bool) (q : Reg) :
    (s.setFlag f b).scale q = s.scale q := rfl

theorem State.scale_lt (s : State) (r : Reg) : s.scale r < 2 ^ 32 := (s.sc.get r).isLt

/-! ## Flags -/

theorem statusWith_getLsbD (st : BitVec 32) (f : Flag) (b : Bool) (i : Nat) :
    (statusWith st f b).getLsbD i = if i = f.bit then b else st.getLsbD i := by
  have hf : f.bit < 32 := by cases f <;> decide
  unfold statusWith
  cases b
  · by_cases h : i = f.bit
    · subst h; simp
    · have h' : ¬ f.bit = i := fun e => h e.symm
      simp [h, h']
      intro hi
      exact BitVec.lt_of_getLsbD hi
  · by_cases h : i = f.bit
    · subst h; simp [hf]
    · have h' : ¬ f.bit = i := fun e => h e.symm
      simp [h, h']

theorem Flag.bit_inj {f g : Flag} (h : f.bit = g.bit) : f = g := by
  cases f <;> cases g <;> simp_all [Flag.bit]

theorem Flag.bit_lt (f : Flag) : f.bit < 5 := by cases f <;> decide

/-- Writing a flag changes that flag alone. -/
theorem State.flag_setFlag (s : State) (f g : Flag) (b : Bool) :
    (s.setFlag f b).flag g = if g = f then b else s.flag g := by
  unfold State.flag
  rw [State.setFlag_status, statusWith_getLsbD]
  by_cases h : g = f
  · simp [h]
  · have : ¬ g.bit = f.bit := fun e => h (Flag.bit_inj e)
    simp [h, this]

@[simp] theorem State.flag_setFlag_same (s : State) (f : Flag) (b : Bool) :
    (s.setFlag f b).flag f = b := by simp [State.flag_setFlag]

@[simp] theorem State.flag_setFlag_ne (s : State) {f g : Flag} (b : Bool) (h : g ≠ f) :
    (s.setFlag f b).flag g = s.flag g := by simp [State.flag_setFlag, h]

theorem State.status_setFlag_high (s : State) (f : Flag) (b : Bool) (i : Nat) (h : 5 ≤ i) :
    (s.setFlag f b).status.getLsbD i = s.status.getLsbD i := by
  have : ¬ i = f.bit := by have := f.bit_lt; omega
  rw [State.setFlag_status, statusWith_getLsbD, if_neg this]

@[simp] theorem State.flag_putV (s : State) (r : Reg) (x : Nat) (f : Flag) :
    (s.putV r x).flag f = s.flag f := rfl
@[simp] theorem State.flag_putS (s : State) (r : Reg) (n : Nat) (f : Flag) :
    (s.putS r n).flag f = s.flag f := rfl
@[simp] theorem State.flag_putRes (s : State) (n : Nat) (f : Flag) :
    (s.putRes n).flag f = s.flag f := rfl
@[simp] theorem State.flag_putBytes (s : State) (a : Nat) (bs : List Byte) (f : Flag) :
    (s.putBytes a bs).flag f = s.flag f := rfl
@[simp] theorem State.flag_putUnspecified (s : State) (a n : Nat) (f : Flag) :
    (s.putUnspecified a n).flag f = s.flag f := rfl

/-! ## Fault words -/

theorem faultWord_halts (s : State) (c : FaultCause) (w : CmdWord) : (s.takeFault c w).halted = true := by
  unfold State.halted; cases c <;> simp [faultWord, FaultCause.code]

theorem faultWord_inj {c d : FaultCause} (h : faultWord c = faultWord d) : c = d := by
  cases c <;> cases d <;> first | rfl | exact absurd h (by decide)

end Sys2Proof.Machine
end

