-- ==== Sys2Proof/Laws/Frame.lean ====
section
/-! SUPPORT. What each shared operation leaves unchanged: one lemma per operation, composed by the
provers along an instruction's meaning. -/

namespace Sys2Proof.Machine.Unchanged

variable {w : Writes} {s t : State}

theorem refl (w : Writes) (s : State) : Unchanged w s s :=
  ⟨rfl, rfl, rfl, rfl, rfl, fun _ _ => rfl, fun _ _ => rfl, fun _ _ => rfl, fun _ _ => rfl,
    fun _ => rfl, fun _ _ => rfl⟩

theorem putV (h : Unchanged w s t) {r : Reg} (hr : r ∈ w.v) (x : Nat) :
    Unchanged w s (t.putV r x) := by
  obtain ⟨h1, h2, h3, h4, h5, h6, h7, h8, h9, h10, h11⟩ := h
  refine ⟨h1, h2, h3, h4, h5, fun q hq => ?_, h7, h8, h9, h10, h11⟩
  have : q ≠ r := fun e => hq (e ▸ hr)
  rw [State.get_putV_ne _ _ this, h6 q hq]

theorem putS (h : Unchanged w s t) {r : Reg} (hr : r ∈ w.sc) (n : Nat) :
    Unchanged w s (t.putS r n) := by
  obtain ⟨h1, h2, h3, h4, h5, h6, h7, h8, h9, h10, h11⟩ := h
  refine ⟨h1, h2, h3, h4, h5, h6, fun q hq => ?_, h8, h9, h10, h11⟩
  have : q ≠ r := fun e => hq (e ▸ hr)
  rw [State.get_putS_ne _ _ this, h7 q hq]

theorem putRes (h : Unchanged w s t) (hr : w.res = true) (n : Nat) : Unchanged w s (t.putRes n) := by
  obtain ⟨h1, h2, h3, h4, h5, h6, h7, h8, h9, h10, h11⟩ := h
  exact ⟨h1, h2, h3, h4, h5, h6, h7, h8, h9, fun e => by simp [hr] at e, h11⟩

theorem setFlag (h : Unchanged w s t) {f : Flag} (hf : f ∈ w.flags) (b : Bool) :
    Unchanged w s (t.setFlag f b) := by
  obtain ⟨h1, h2, h3, h4, h5, h6, h7, h8, h9, h10, h11⟩ := h
  refine ⟨h1, h2, h3, h4, h5, h6, h7, fun g hg => ?_, fun i hi => ?_, h10, h11⟩
  · have : g ≠ f := fun e => hg (e ▸ hf)
    rw [State.flag_setFlag_ne _ _ this, h8 g hg]
  · rw [State.status_setFlag_high _ _ _ _ hi, h9 i hi]

theorem putBytes (h : Unchanged w s t) {addr : Nat} {bs : List Byte}
    (hlo : w.bufAddr ≤ addr) (hhi : addr + bs.length ≤ w.bufAddr + w.bufLen)
    (hfit : addr + bs.length ≤ bufSize) : Unchanged w s (t.putBytes addr bs) := by
  obtain ⟨h1, h2, h3, h4, h5, h6, h7, h8, h9, h10, h11⟩ := h
  refine ⟨h1, h2, h3, h4, h5, h6, h7, h8, h9, h10, fun a ha => ?_⟩
  have : ¬(addr ≤ a ∧ a < addr + bs.length) := by omega
  rw [State.bufByte_putBytes _ _ _ _ hfit, dif_neg this, h11 a ha]

theorem putUnspecified (h : Unchanged w s t) {addr n : Nat}
    (hlo : w.bufAddr ≤ addr) (hhi : addr + n ≤ w.bufAddr + w.bufLen)
    (hfit : addr + n ≤ bufSize) : Unchanged w s (t.putUnspecified addr n) := by
  obtain ⟨h1, h2, h3, h4, h5, h6, h7, h8, h9, h10, h11⟩ := h
  refine ⟨h1, h2, h3, h4, h5, h6, h7, h8, h9, h10, fun a ha => ?_⟩
  rw [State.bufByte_putUnspecified_outside _ _ _ _ hfit (by omega), h11 a ha]

theorem exported (h : Unchanged w s t) (hr : w.res = true) (hf : Flag.ok ∈ w.flags) (n : Nat) :
    Unchanged w s (t.exported n) := (h.putRes hr n).setFlag hf _

/-- Everything a decimal export leaves unchanged. -/
theorem exportText (h : Unchanged w s t) (hr : w.res = true) (hf : Flag.ok ∈ w.flags)
    {addr cap total : Nat} {text : List Byte} (hlo : w.bufAddr ≤ addr)
    (hhi : addr + cap ≤ w.bufAddr + w.bufLen) (hfit : addr + cap ≤ bufSize)
    (htext : text.length = total ∨ cap < total) :
    Unchanged w s (t.exportText addr cap total text) := by
  unfold State.exportText
  by_cases hc : cap < total
  · rw [if_pos hc]
    exact (h.putUnspecified hlo hhi hfit).exported hr hf 0
  · rw [if_neg hc]
    have hl : text.length = total := htext.resolve_right hc
    exact ((h.putBytes hlo (by omega) (by omega)).putUnspecified (by omega) (by omega)
      (by omega)).exported hr hf total

theorem parsedInto (h : Unchanged w s t) {rd : Reg} (hr : rd ∈ w.v) (hf : Flag.ok ∈ w.flags)
    (x : Option Nat) : Unchanged w s (t.parsedInto rd x) := by
  cases x with
  | none => exact h.setFlag hf _
  | some x => exact (h.putV hr x).setFlag hf _

theorem parsedDecInto (h : Unchanged w s t) {rd : Reg} (hr : rd ∈ w.v) (hs : rd ∈ w.sc)
    (hf : Flag.ok ∈ w.flags) (x : Option (Nat × Nat)) : Unchanged w s (t.parsedDecInto rd x) := by
  cases x with
  | none => exact h.setFlag hf _
  | some x => exact ((h.putV hr x.1).putS hs x.2).setFlag hf _

/-- A scale change writes V, S and INX only. -/
theorem rescale (h : Unchanged w s t) {rd : Reg} (hv : rd ∈ w.v) (hs : rd ∈ w.sc)
    (hf : Flag.inx ∈ w.flags) (ra : Reg) (n : Nat) : Unchanged w s (t.rescale rd ra n) := by
  unfold State.rescale
  split
  · exact ((h.putV hv _).putS hs _).setFlag hf _
  · split
    · exact ((h.putV hv _).putS hs _).setFlag hf _
    · exact ((h.putV hv _).putS hs _).setFlag hf _

theorem alignedSum (h : Unchanged w s t) {rd : Reg} (hv : rd ∈ w.v) (hs : rd ∈ w.sc) (ra rb : Reg) :
    Unchanged w s (t.alignedSum rd ra rb) := (h.putV hv _).putS hs _

theorem alignedDiff (h : Unchanged w s t) {rd : Reg} (hv : rd ∈ w.v) (hs : rd ∈ w.sc) (ra rb : Reg) :
    Unchanged w s (t.alignedDiff rd ra rb) := (h.putV hv _).putS hs _

theorem quotientInto (h : Unchanged w s t) {rd : Reg} (hv : rd ∈ w.v) (hs : rd ∈ w.sc)
    (hf : Flag.dz ∈ w.flags) (ra rb : Reg) (imm : Imm) (q : Nat) :
    Unchanged w s (t.quotientInto rd ra rb imm q) := ((h.putV hv _).putS hs _).setFlag hf _

end Sys2Proof.Machine.Unchanged
end

