-- ==== Sys2Proof/Laws/Text.lean ====
section
/-! SUPPORT. The decimal digits of a number, and the lengths of the texts the exports write. -/

namespace Sys2Proof.Machine

theorem IsDigitCount.unique {x m n : Nat} (hm : IsDigitCount x m) (hn : IsDigitCount x n) : m = n := by
  obtain ⟨hm1, hm2, hm3⟩ := hm
  obtain ⟨hn1, hn2, hn3⟩ := hn
  by_contra hne
  rcases Nat.lt_or_gt_of_ne hne with h | h
  · have : 10 ^ m ≤ 10 ^ (n - 1) := Nat.pow_le_pow_right (by omega) (by omega)
    omega
  · have : 10 ^ n ≤ 10 ^ (m - 1) := Nat.pow_le_pow_right (by omega) (by omega)
    omega

theorem decDigitsLoop_eq : ∀ (fuel x : Nat) (acc : List Nat), 0 < fuel → x < 10 ^ fuel →
    ∃ n, IsDigitCount x n ∧
      decDigitsLoop fuel x acc = (List.range n).map (fun j => x / 10 ^ (n - 1 - j) % 10) ++ acc
  | 0, _, _, h, _ => absurd h (lt_irrefl 0)
  | fuel + 1, x, acc, _, hx => by
    unfold decDigitsLoop
    by_cases h : x < 10
    · refine ⟨1, ⟨le_refl 1, by simpa using h, .inl rfl⟩, ?_⟩
      simp [h, Nat.mod_eq_of_lt h, List.range_succ]
    · rw [if_neg h]
      have hf : 0 < fuel := by
        rcases Nat.eq_zero_or_pos fuel with e | e
        · subst e; simp at hx; omega
        · exact e
      have hx' : x / 10 < 10 ^ fuel := by
        rw [Nat.div_lt_iff_lt_mul (by omega)]
        rwa [Nat.pow_succ] at hx
      obtain ⟨n, ⟨hn1, hn2, hn3⟩, he⟩ := decDigitsLoop_eq fuel (x / 10) (x % 10 :: acc) hf hx'
      refine ⟨n + 1, ⟨by omega, by rw [Nat.pow_succ]; omega, .inr ?_⟩, ?_⟩
      · rcases hn3 with e | e
        · subst e; simpa using by omega
        · have : 10 ^ (n + 1 - 1) = 10 ^ (n - 1) * 10 := by
            rw [← Nat.pow_succ]; congr 1; omega
          rw [this]; omega
      · rw [he, List.range_succ, List.map_append]
        simp only [List.map_cons, List.map_nil, List.append_assoc, List.cons_append, List.nil_append]
        congr 1
        · apply List.map_congr_left
          intro j hj
          have hj' : j < n := List.mem_range.mp hj
          rw [Nat.div_div_eq_div_mul, ← Nat.pow_succ']
          congr 3; omega
        · simp

/-- dec_digits, digit by digit (40_primitives.md R101). -/
theorem decDigits_eq (x : Nat) : IsDigitCount x (ndig x) ∧
    decDigits x = (List.range (ndig x)).map fun j => x / 10 ^ (ndig x - 1 - j) % 10 := by
  have hx : x < 10 ^ (Nat.log2 x + 1) := by
    refine lt_of_lt_of_le Nat.lt_log2_self (Nat.pow_le_pow_left (by omega) _)
  obtain ⟨n, hn, he⟩ := decDigitsLoop_eq (Nat.log2 x + 1) x [] (by omega) hx
  have hl : ndig x = n := by simp [ndig, decDigits, he]
  rw [hl]
  exact ⟨hn, by simp [decDigits, he]⟩

theorem ndig_pos (x : Nat) : 0 < ndig x := (decDigits_eq x).1.1

@[simp] theorem decChars_length (x : Nat) : (decChars x).length = ndig x := by simp [decChars, ndig]

@[simp] theorem hexChars_length (v nd : Nat) : (hexChars v nd).length = nd := by simp [hexChars]

@[simp] theorem leBytes_length (v n : Nat) : (leBytes v n).length = n := by simp [leBytes]

@[simp] theorem signed_length (b : Bool) (l : List Byte) : (signed b l).length = b.toNat + l.length := by
  cases b <;> simp [signed, Nat.add_comm]

/-- The closed form of 49_dec_cmp_text.md R235 is the length of the body. -/
@[simp] theorem pointChars_length (m sc : Nat) : (pointChars m sc).length = pointLength m sc := by
  have := ndig_pos m
  unfold pointChars pointLength
  by_cases h0 : sc = 0
  · simp [h0]; omega
  · by_cases h1 : sc < ndig m
    · simp only [h0, h1, if_true, if_false, List.length_append, List.length_take, List.length_cons,
        List.length_drop, decChars_length, if_pos (Nat.pos_of_ne_zero h0)]
      omega
    · simp only [h0, h1, if_false, List.length_append, List.length_cons, List.length_replicate,
        decChars_length, if_pos (Nat.pos_of_ne_zero h0)]
      omega

end Sys2Proof.Machine
end

