-- ==== Sys2Proof/Laws/Ops.lean ====
section
/-! SUPPORT. Everything a shared operation can do, once each: the window check, a parse, an export, a
host action, a step. -/

namespace Sys2Proof.Machine

theorem takeFault_faulted (s : State) (c : FaultCause) (w : CmdWord) :
    Faulted s (s.takeFault c w) c.code w :=
  ⟨rfl, rfl, rfl, rfl, rfl, rfl, rfl, rfl, rfl, rfl, rfl, rfl⟩

/-- inWindow does the command's own effect, or takes BUF_RANGE. -/
theorem inWindow_next {s t : State} {a n : Nat} {w : CmdWord} {done : State}
    (h : s.inWindow a n w done = .next t) :
    (a + n ≤ 65536 ∧ t = done) ∨ (65536 < a + n ∧ t = s.takeFault .bufRange w) := by
  by_cases hw : a + n ≤ 65536
  · simp only [State.inWindow, windowFits, bufSize, hw, decide_true, if_true, Host.Outcome.next.injEq] at h
    exact .inl ⟨hw, h.symm⟩
  · simp only [State.inWindow, windowFits, bufSize, hw, decide_false, Bool.false_eq_true, if_false,
      Host.Outcome.next.injEq] at h
    exact .inr ⟨by omega, h.symm⟩

theorem inWindow_fits (s : State) {a n : Nat} (w : CmdWord) (done : State) (h : a + n ≤ 65536) :
    s.inWindow a n w done = .next done := by
  simp [State.inWindow, windowFits, bufSize, h]

theorem inWindow_past (s : State) {a n : Nat} (w : CmdWord) (done : State) (h : 65536 < a + n) :
    s.inWindow a n w done = .next (s.takeFault .bufRange w) := by
  have : ¬a + n ≤ 65536 := by omega
  simp [State.inWindow, windowFits, bufSize, this]

/-- A scale change is one write of V, S and INX. -/
theorem rescale_eq (s : State) (rd ra : Reg) (t : Nat) :
    ∃ x b, s.rescale rd ra t = ((s.putV rd x).putS rd t).setFlag .inx b := by
  unfold State.rescale
  split
  · exact ⟨_, _, rfl⟩
  · split <;> exact ⟨_, _, rfl⟩

/-- What a word on CMD becomes: discarded, a command to run, or a fault taken. -/
theorem acceptWord_cases (s : State) (w : CmdWord) :
    (s.halted = true ∧ s.acceptWord w = .settled s)
    ∨ (s.halted = false ∧ ∃ i, decodeWord w = .command i ∧ s.acceptWord w = .run i s)
    ∨ (s.halted = false ∧ ∃ c, decodeWord w = .fault c ∧ s.acceptWord w = .settled (s.takeFault c w)) := by
  cases hh : s.halted
  · cases hd : decodeWord w with
    | command i => exact .inr (.inl ⟨rfl, i, rfl, by simp [State.acceptWord, hh, hd]⟩)
    | fault c => exact .inr (.inr ⟨rfl, c, rfl, by simp [State.acceptWord, hh, hd]⟩)
  · exact .inl ⟨rfl, by simp [State.acceptWord, hh]⟩

/-- Everything a step can do. -/
theorem step_cases {s t : State} (h : step s = .next t) :
    (s.inbox = [] ∧ t = s)
    ∨ ∃ act rest, s.inbox = act :: rest ∧
      ((∃ w, act = .writeCmd w ∧ s.halted = true ∧ t = { s with inbox := rest })
      ∨ (∃ w c, act = .writeCmd w ∧ s.halted = false ∧ decodeWord w = .fault c
          ∧ t = State.takeFault { s with inbox := rest } c w)
      ∨ (∃ w i, act = .writeCmd w ∧ s.halted = false ∧ decodeWord w = .command i
          ∧ exec i { s with inbox := rest } = .next t)
      ∨ (∃ p, act = .readPort p ∧ t = State.hostRead { s with inbox := rest } p)
      ∨ (∃ a, act = .readBuf a ∧ t = State.hostReadBuf { s with inbox := rest } a)
      ∨ (∃ a b, act = .writeBuf a b ∧ t = State.hostWriteBuf { s with inbox := rest } a b)
      ∨ (act = .assertReset ∧ t = State.assertReset { s with inbox := rest })) := by
  unfold step State.advance at h
  cases hi : s.inbox with
  | nil =>
    simp only [hi, Host.Outcome.next.injEq] at h
    exact .inl ⟨rfl, h.symm⟩
  | cons act rest =>
    refine .inr ⟨act, rest, rfl, ?_⟩
    simp only [hi] at h
    cases act with
    | writeCmd w =>
      simp only [State.hostAct] at h
      rcases acceptWord_cases { s with inbox := rest } w with ⟨hh, e⟩ | ⟨hh, i, hd, e⟩ | ⟨hh, c, hd, e⟩
      · rw [e] at h; exact .inl ⟨w, rfl, hh, by simpa using h.symm⟩
      · rw [e] at h; exact .inr (.inr (.inl ⟨w, i, rfl, hh, hd, h⟩))
      · rw [e] at h; exact .inr (.inl ⟨w, c, rfl, hh, hd, by simpa using h.symm⟩)
    | readPort p =>
      simp only [State.hostAct, Host.Outcome.next.injEq] at h
      exact .inr (.inr (.inr (.inl ⟨p, rfl, h.symm⟩)))
    | readBuf a =>
      simp only [State.hostAct, Host.Outcome.next.injEq] at h
      exact .inr (.inr (.inr (.inr (.inl ⟨a, rfl, h.symm⟩))))
    | writeBuf a b =>
      simp only [State.hostAct, Host.Outcome.next.injEq] at h
      exact .inr (.inr (.inr (.inr (.inr (.inl ⟨a, b, rfl, h.symm⟩)))))
    | assertReset =>
      simp only [State.hostAct, Host.Outcome.next.injEq] at h
      exact .inr (.inr (.inr (.inr (.inr (.inr ⟨rfl, h.symm⟩)))))

end Sys2Proof.Machine
end

