-- ==== Sys2Proof/Laws/PerInstr.lean ====
section
/-! SUPPORT. Facts about every command as syntax, one lemma per constructor. -/

namespace Sys2Proof.Laws.ReservedClear

/-- The word of a command has no reserved field set (30_encoding.md R71, R78). -/
def Statement (i : Instr) : Prop := reservedClear i (encode i) = true

theorem zero (rd : Reg) : Statement (.zero rd) := by
  rw [Statement, encode, reservedClear_packWord]; rfl
theorem one (rd : Reg) : Statement (.one rd) := by
  rw [Statement, encode, reservedClear_packWord]; rfl
theorem ldw (rd : Reg) (imm : Imm) : Statement (.ldw rd imm) := by
  rw [Statement, encode, reservedClear_packWord]; rfl
theorem mov (rd : Reg) (ra : Reg) : Statement (.mov rd ra) := by
  rw [Statement, encode, reservedClear_packWord]; rfl
theorem add (rd : Reg) (ra : Reg) (rb : Reg) : Statement (.add rd ra rb) := by
  rw [Statement, encode, reservedClear_packWord]; rfl
theorem sub (rd : Reg) (ra : Reg) (rb : Reg) : Statement (.sub rd ra rb) := by
  rw [Statement, encode, reservedClear_packWord]; rfl
theorem mul (rd : Reg) (ra : Reg) (rb : Reg) : Statement (.mul rd ra rb) := by
  rw [Statement, encode, reservedClear_packWord]; rfl
theorem mulw (rd : Reg) (re : Reg) (ra : Reg) (rb : Reg) : Statement (.mulw rd re ra rb) := by
  rw [Statement, encode, reservedClear_packWord]; rfl
theorem div (rd : Reg) (re : Reg) (ra : Reg) (rb : Reg) : Statement (.div rd re ra rb) := by
  rw [Statement, encode, reservedClear_packWord]; rfl
theorem and (rd : Reg) (ra : Reg) (rb : Reg) : Statement (.and rd ra rb) := by
  rw [Statement, encode, reservedClear_packWord]; rfl
theorem or (rd : Reg) (ra : Reg) (rb : Reg) : Statement (.or rd ra rb) := by
  rw [Statement, encode, reservedClear_packWord]; rfl
theorem xor (rd : Reg) (ra : Reg) (rb : Reg) : Statement (.xor rd ra rb) := by
  rw [Statement, encode, reservedClear_packWord]; rfl
theorem not (rd : Reg) (ra : Reg) : Statement (.not rd ra) := by
  rw [Statement, encode, reservedClear_packWord]; rfl
theorem shl (rd : Reg) (ra : Reg) (imm : Imm) : Statement (.shl rd ra imm) := by
  rw [Statement, encode, reservedClear_packWord]; rfl
theorem shr (rd : Reg) (ra : Reg) (imm : Imm) : Statement (.shr rd ra imm) := by
  rw [Statement, encode, reservedClear_packWord]; rfl
theorem bget (ra : Reg) (imm : Imm) : Statement (.bget ra imm) := by
  rw [Statement, encode, reservedClear_packWord]; rfl
theorem bset (rd : Reg) (ra : Reg) (imm : Imm) : Statement (.bset rd ra imm) := by
  rw [Statement, encode, reservedClear_packWord]; rfl
theorem bclr (rd : Reg) (ra : Reg) (imm : Imm) : Statement (.bclr rd ra imm) := by
  rw [Statement, encode, reservedClear_packWord]; rfl
theorem eq (ra : Reg) (rb : Reg) : Statement (.eq ra rb) := by
  rw [Statement, encode, reservedClear_packWord]; rfl
theorem lt (ra : Reg) (rb : Reg) : Statement (.lt ra rb) := by
  rw [Statement, encode, reservedClear_packWord]; rfl
theorem msb (ra : Reg) : Statement (.msb ra) := by
  rw [Statement, encode, reservedClear_packWord]; rfl
theorem lzc (ra : Reg) : Statement (.lzc ra) := by
  rw [Statement, encode, reservedClear_packWord]; rfl
theorem ldraw (rd : Reg) (addr : Half) : Statement (.ldraw rd addr) := by
  rw [Statement, encode, reservedClear_packWord]; simp only [Instr.operands, immLen_immOf]; rfl
theorem straw (ra : Reg) (addr : Half) : Statement (.straw ra addr) := by
  rw [Statement, encode, reservedClear_packWord]; simp only [Instr.operands, immLen_immOf]; rfl
theorem ldhex (rd : Reg) (addr : Half) (len : Half) : Statement (.ldhex rd addr len) := by
  rw [Statement, encode, reservedClear_packWord]; rfl
theorem sthex (ra : Reg) (addr : Half) (cap : Half) : Statement (.sthex ra addr cap) := by
  rw [Statement, encode, reservedClear_packWord]; rfl
theorem lddec (rd : Reg) (addr : Half) (len : Half) : Statement (.lddec rd addr len) := by
  rw [Statement, encode, reservedClear_packWord]; rfl
theorem stdec (ra : Reg) (addr : Half) (cap : Half) : Statement (.stdec ra addr cap) := by
  rw [Statement, encode, reservedClear_packWord]; rfl
theorem neg (rd : Reg) (ra : Reg) : Statement (.neg rd ra) := by
  rw [Statement, encode, reservedClear_packWord]; rfl
theorem abs (rd : Reg) (ra : Reg) : Statement (.abs rd ra) := by
  rw [Statement, encode, reservedClear_packWord]; rfl
theorem slt (ra : Reg) (rb : Reg) : Statement (.slt ra rb) := by
  rw [Statement, encode, reservedClear_packWord]; rfl
theorem ldsdec (rd : Reg) (addr : Half) (len : Half) : Statement (.ldsdec rd addr len) := by
  rw [Statement, encode, reservedClear_packWord]; rfl
theorem stsdec (ra : Reg) (addr : Half) (cap : Half) : Statement (.stsdec ra addr cap) := by
  rw [Statement, encode, reservedClear_packWord]; rfl
theorem sset (rd : Reg) (imm : Imm) : Statement (.sset rd imm) := by
  rw [Statement, encode, reservedClear_packWord]; rfl
theorem sget (ra : Reg) : Statement (.sget ra) := by
  rw [Statement, encode, reservedClear_packWord]; rfl
theorem dmov (rd : Reg) (ra : Reg) : Statement (.dmov rd ra) := by
  rw [Statement, encode, reservedClear_packWord]; rfl
theorem dprec (rd : Reg) (ra : Reg) (imm : Imm) : Statement (.dprec rd ra imm) := by
  rw [Statement, encode, reservedClear_packWord]; rfl
theorem dprecs (rd : Reg) (ra : Reg) (imm : Imm) : Statement (.dprecs rd ra imm) := by
  rw [Statement, encode, reservedClear_packWord]; rfl
theorem dadd (rd : Reg) (ra : Reg) (rb : Reg) : Statement (.dadd rd ra rb) := by
  rw [Statement, encode, reservedClear_packWord]; rfl
theorem dsub (rd : Reg) (ra : Reg) (rb : Reg) : Statement (.dsub rd ra rb) := by
  rw [Statement, encode, reservedClear_packWord]; rfl
theorem dadds (rd : Reg) (ra : Reg) (rb : Reg) : Statement (.dadds rd ra rb) := by
  rw [Statement, encode, reservedClear_packWord]; rfl
theorem dsubs (rd : Reg) (ra : Reg) (rb : Reg) : Statement (.dsubs rd ra rb) := by
  rw [Statement, encode, reservedClear_packWord]; rfl
theorem dmul (rd : Reg) (ra : Reg) (rb : Reg) : Statement (.dmul rd ra rb) := by
  rw [Statement, encode, reservedClear_packWord]; rfl
theorem dmuls (rd : Reg) (ra : Reg) (rb : Reg) : Statement (.dmuls rd ra rb) := by
  rw [Statement, encode, reservedClear_packWord]; rfl
theorem ddivf (rd : Reg) (ra : Reg) (rb : Reg) (imm : Imm) : Statement (.ddivf rd ra rb imm) := by
  rw [Statement, encode, reservedClear_packWord]; rfl
theorem ddivw (rd : Reg) (ra : Reg) (rb : Reg) (imm : Imm) : Statement (.ddivw rd ra rb imm) := by
  rw [Statement, encode, reservedClear_packWord]; rfl
theorem ddivs (rd : Reg) (ra : Reg) (rb : Reg) (imm : Imm) : Statement (.ddivs rd ra rb imm) := by
  rw [Statement, encode, reservedClear_packWord]; rfl
theorem deq (ra : Reg) (rb : Reg) : Statement (.deq ra rb) := by
  rw [Statement, encode, reservedClear_packWord]; rfl
theorem dlt (ra : Reg) (rb : Reg) : Statement (.dlt ra rb) := by
  rw [Statement, encode, reservedClear_packWord]; rfl
theorem lddcm (rd : Reg) (addr : Half) (len : Half) : Statement (.lddcm rd addr len) := by
  rw [Statement, encode, reservedClear_packWord]; rfl
theorem stdcm (ra : Reg) (addr : Half) (cap : Half) : Statement (.stdcm ra addr cap) := by
  rw [Statement, encode, reservedClear_packWord]; rfl

end Sys2Proof.Laws.ReservedClear
end

