-- ==== Sys2Proof/Laws/Values.lean ====
section
/-! SUPPORT. The value functions as plain arithmetic: readings, magnitudes, scale changes. -/

namespace Sys2Proof.Machine

/-! ## bits_W -/

theorem bitsW_lt (W : Nat) (x : Int) : bitsW W x < 2 ^ W := by
  have h : (0 : Int) < ((2 ^ W : Nat) : Int) := by exact_mod_cast Nat.two_pow_pos W
  have := Int.emod_lt_of_pos x h
  have := Int.emod_nonneg x (ne_of_gt h)
  unfold bitsW
  omega

theorem bitsW_natCast (W n : Nat) : bitsW W (n : Int) = n % 2 ^ W := by
  unfold bitsW
  exact_mod_cast congrArg Int.toNat (Int.natCast_mod n (2 ^ W)).symm

theorem bitsW_of_lt {W n : Nat} (h : n < 2 ^ W) : bitsW W (n : Int) = n := by
  rw [bitsW_natCast, Nat.mod_eq_of_lt h]

/-- bits_W depends on the integer modulo 2^W only. -/
theorem bitsW_congr {W : Nat} {x y : Int} (h : x % ((2 ^ W : Nat) : Int) = y % ((2 ^ W : Nat) : Int)) :
    bitsW W x = bitsW W y := by
  unfold bitsW; rw [h]

theorem natCast_bitsW (W : Nat) (x : Int) : ((bitsW W x : Nat) : Int) = x % ((2 ^ W : Nat) : Int) := by
  have h : (0 : Int) < ((2 ^ W : Nat) : Int) := by exact_mod_cast Nat.two_pow_pos W
  unfold bitsW
  exact Int.toNat_of_nonneg (Int.emod_nonneg x (ne_of_gt h))

@[simp] theorem bitsW_mod (W : Nat) (x : Int) : bitsW W x % 2 ^ W = bitsW W x :=
  Nat.mod_eq_of_lt (bitsW_lt W x)

/-! ## Signed reading -/

/-- The sign bit of a W-bit pattern: it is set from 2^(W-1) on. -/
theorem topBit_iff {W v : Nat} (hW : 0 < W) (hv : v < 2 ^ W) : topBit W v = true ↔ 2 ^ (W - 1) ≤ v := by
  unfold topBit
  obtain ⟨n, rfl⟩ : ∃ n, W = n + 1 := ⟨W - 1, by omega⟩
  have hp : 2 ^ (n + 1) = 2 * 2 ^ n := by ring
  have hpos := Nat.two_pow_pos n
  simp only [Nat.add_sub_cancel, Nat.testBit_eq_decide_div_mod_eq, decide_eq_true_eq]
  constructor
  · intro h
    by_contra hlt
    rw [Nat.div_eq_of_lt (by omega)] at h
    simp at h
  · intro h
    have : v / 2 ^ n = 1 := by
      apply Nat.div_eq_of_lt_le <;> omega
    rw [this]

theorem two_pow_pred {W : Nat} (hW : 0 < W) : 2 ^ W = 2 * 2 ^ (W - 1) := by
  obtain ⟨n, rfl⟩ : ∃ n, W = n + 1 := ⟨W - 1, by omega⟩
  simp [Nat.pow_succ, Nat.mul_comm]

theorem signedVal_emod (W v : Nat) :
    signedVal W v % ((2 ^ W : Nat) : Int) = (v : Int) % ((2 ^ W : Nat) : Int) := by
  unfold signedVal
  split
  · exact Int.sub_emod_right _ _
  · rfl

/-- The pattern of the signed reading is the pattern itself. -/
theorem bitsW_signedVal {W v : Nat} (hv : v < 2 ^ W) : bitsW W (signedVal W v) = v := by
  rw [bitsW_congr (signedVal_emod W v), bitsW_of_lt hv]

/-- The signed reading lies in -2^(W-1) .. 2^(W-1) - 1. -/
theorem signedVal_range {W v : Nat} (hW : 0 < W) (hv : v < 2 ^ W) :
    -((2 ^ (W - 1) : Nat) : Int) ≤ signedVal W v ∧ signedVal W v < ((2 ^ (W - 1) : Nat) : Int) := by
  have hp := two_pow_pred hW
  have ht := topBit_iff hW hv
  unfold signedVal
  split
  · next h => have := ht.mp h; omega
  · next h =>
    have : ¬ 2 ^ (W - 1) ≤ v := fun e => h (ht.mpr e)
    omega

/-- An integer in the signed range is read back from its pattern. -/
theorem signedVal_bitsW {W : Nat} (hW : 0 < W) {x : Int} (h1 : -((2 ^ (W - 1) : Nat) : Int) ≤ x)
    (h2 : x < ((2 ^ (W - 1) : Nat) : Int)) : signedVal W (bitsW W x) = x := by
  have hp := two_pow_pred hW
  have hr := signedVal_range hW (bitsW_lt W x)
  have hm : signedVal W (bitsW W x) % ((2 ^ W : Nat) : Int) = x % ((2 ^ W : Nat) : Int) := by
    rw [signedVal_emod, natCast_bitsW, Int.emod_emod_of_dvd _ (dvd_refl _)]
  have hd : ((2 ^ W : Nat) : Int) ∣ signedVal W (bitsW W x) - x := Int.dvd_of_emod_eq_zero (by
    rw [Int.sub_emod, hm]; simp)
  obtain ⟨c, hc⟩ := hd
  have hpos : (0 : Int) < ((2 ^ W : Nat) : Int) := by exact_mod_cast Nat.two_pow_pos W
  have hp' : ((2 ^ W : Nat) : Int) = 2 * ((2 ^ (W - 1) : Nat) : Int) := by exact_mod_cast hp
  have : c = 0 := by
    by_contra hc0
    rcases lt_or_gt_of_ne hc0 with h | h
    · have : ((2 ^ W : Nat) : Int) * c ≤ ((2 ^ W : Nat) : Int) * (-1) :=
        mul_le_mul_of_nonneg_left (by omega) hpos.le
      omega
    · have : ((2 ^ W : Nat) : Int) * 1 ≤ ((2 ^ W : Nat) : Int) * c :=
        mul_le_mul_of_nonneg_left (by omega) hpos.le
      omega
  rw [this] at hc
  omega

/-! ## Magnitude and sign -/

theorem negW_lt (W v : Nat) : negW W v < 2 ^ W := bitsW_lt _ _

theorem magW_lt {W v : Nat} (hv : v < 2 ^ W) : magW W v < 2 ^ W := by
  unfold magW; split
  · exact negW_lt _ _
  · exact hv

/-- The magnitude is the absolute value of the signed reading (40_primitives.md R100). -/
theorem magW_eq {W v : Nat} (hW : 0 < W) (hv : v < 2 ^ W) : magW W v = (signedVal W v).natAbs := by
  have hp := two_pow_pred hW
  have ht := topBit_iff hW hv
  have hpos := Nat.two_pow_pos (W - 1)
  unfold magW signedVal negW
  split
  · next h =>
    have h1 := ht.mp h
    have h2 : bitsW W (0 - (v : Int)) = bitsW W ((2 ^ W - v : Nat) : Int) := by
      apply bitsW_congr
      have : ((2 ^ W - v : Nat) : Int) = (0 - (v : Int)) + ((2 ^ W : Nat) : Int) := by omega
      rw [this, Int.add_emod_right]
    rw [h2, bitsW_of_lt (by omega)]
    omega
  · simp

theorem magW_le {W v : Nat} (hW : 0 < W) (hv : v < 2 ^ W) : magW W v ≤ 2 ^ (W - 1) := by
  have := signedVal_range hW hv
  rw [magW_eq hW hv]; omega

/-- apply_sign gives the pattern of plus or minus the magnitude. -/
theorem applySign_eq (W : Nat) (n : Bool) {m : Nat} (hm : m < 2 ^ W) :
    applySign W n m = bitsW W (if n then -(m : Int) else (m : Int)) := by
  cases n
  · simp [applySign, bitsW_of_lt hm]
  · simp [applySign, negW]

theorem applySign_lt (W : Nat) (n : Bool) {m : Nat} (hm : m < 2 ^ W) : applySign W n m < 2 ^ W := by
  rw [applySign_eq W n hm]; exact bitsW_lt _ _

/-- The sign bit says that the signed reading is negative. -/
theorem signedVal_neg_iff {W v : Nat} (hW : 0 < W) (hv : v < 2 ^ W) :
    topBit W v = true ↔ signedVal W v < 0 := by
  have hp := two_pow_pred hW
  have ht := topBit_iff hW hv
  unfold signedVal
  constructor
  · intro h; rw [if_pos h]; omega
  · intro h; by_contra hn; rw [if_neg hn] at h; omega

/-- Sign and magnitude make the signed reading. -/
theorem signedVal_eq_sign_mag {W v : Nat} (hW : 0 < W) (hv : v < 2 ^ W) :
    signedVal W v = if topBit W v then -(magW W v : Int) else (magW W v : Int) := by
  have h := signedVal_neg_iff hW hv
  rw [magW_eq hW hv]
  by_cases ht : topBit W v = true
  · rw [if_pos ht]; have := h.mp ht; omega
  · rw [if_neg ht]; have : ¬ signedVal W v < 0 := fun e => ht (h.mpr e); omega

/-! ## Powers of ten -/

theorem two_pow_dvd_ten_pow {W k : Nat} (h : W ≤ k) : 2 ^ W ∣ 10 ^ k :=
  (pow_dvd_pow 2 h).trans (pow_dvd_pow_of_dvd (by norm_num) k)

theorem lt_ten_pow {W m k : Nat} (hm : m < 2 ^ W) (h : W ≤ k) : m < 10 ^ k :=
  lt_of_lt_of_le hm ((Nat.pow_le_pow_left (by norm_num) W).trans (Nat.pow_le_pow_right (by norm_num) h))

/-- The shortcut of mulPow10 is exact (70_reset_and_hazards.md R268). -/
theorem mulPow10_eq (W m k : Nat) : mulPow10 W m k = m * 10 ^ k % 2 ^ W := by
  unfold mulPow10
  split
  · next h => exact (Nat.mod_eq_zero_of_dvd ((two_pow_dvd_ten_pow h).mul_left m)).symm
  · rfl

theorem mulPow10_lt (W m k : Nat) : mulPow10 W m k < 2 ^ W := by
  rw [mulPow10_eq]; exact Nat.mod_lt _ (Nat.two_pow_pos _)

/-- The shortcut of divPow10 is exact (70_reset_and_hazards.md R268). -/
theorem divPow10_eq {W m : Nat} (hm : m < 2 ^ W) (k : Nat) : divPow10 W m k = m / 10 ^ k := by
  unfold divPow10
  split
  · next h => exact (Nat.div_eq_of_lt (lt_ten_pow hm h)).symm
  · rfl

/-- The shortcut of modPow10NeZero is exact (70_reset_and_hazards.md R268). -/
theorem modPow10NeZero_eq {W m : Nat} (hm : m < 2 ^ W) (k : Nat) :
    modPow10NeZero W m k = decide (m % 10 ^ k ≠ 0) := by
  unfold modPow10NeZero
  split
  · next h => rw [Nat.mod_eq_of_lt (lt_ten_pow hm h)]
  · rfl

/-! ## Repetition -/

theorem iterate_of_fixed {α : Type} {f : α → α} {x : α} (h : f x = x) : ∀ n, f^[n] x = x
  | 0 => rfl
  | n + 1 => by rw [Function.iterate_succ_apply, h, iterate_of_fixed h n]

/-- Stopping at a fixed point changes nothing. -/
theorem iterFix_eq_iterate {α : Type} [DecidableEq α] (f : α → α) :
    ∀ n x, iterFix f n x = f^[n] x
  | 0, _ => rfl
  | n + 1, x => by
    unfold iterFix
    split
    · next h => exact (iterate_of_fixed h _).symm
    · rw [iterFix_eq_iterate f n, Function.iterate_succ_apply]

end Sys2Proof.Machine
end

