-- ==== Sys2Proof/Tests/Slice0.lean ====
section
/-! SUPPORT. The model's own tests: well-formedness, decoding of words written out from the encodings
of 30_encoding.md, one or two steps per command with the results of the rules' worked examples, and
witnesses that the hypotheses of the statements can be met. -/

namespace Sys2Proof.Tests

open Sys2Proof.Machine

set_option Elab.async false

/-! ## Well-formedness -/

theorem test_mulw_with_one_destination_is_ill_formed : (Instr.mulw 3 3 1 2).wellFormed = false := by decide
theorem test_div_with_one_destination_is_ill_formed : (Instr.div 0 0 1 2).wellFormed = false := by decide
theorem test_overlap_with_sources_is_well_formed : (Instr.div 1 2 1 2).wellFormed = true := by decide

/-! ## Decoding: words from the fields of R70, the ops of R76 and the worked words of the rules -/

/-- op 10, rd 5 (R83). -/
theorem test_decode_construction : decodeWord 0x1050000000000000#64 = .command (.zero 5) := by decide
/-- op 12, rd 1, imm FFFFFFFF (R83). -/
theorem test_decode_immediate : decodeWord 0x12100000FFFFFFFF#64 = .command (.ldw 1 0xFFFFFFFF#32) := by decide
/-- op 23, rd 3, re 4, ra 1, rb 2 (R125). -/
theorem test_decode_arithmetic : decodeWord 0x2334120000000000#64 = .command (.mulw 3 4 1 2) := by decide
/-- op 34, rd 3, ra 3, imm 46 (R83). -/
theorem test_decode_shift : decodeWord 0x3430300000000046#64 = .command (.shl 3 3 0x46#32) := by decide
/-- op 36, ra 7, imm 7F (R83). -/
theorem test_decode_bit : decodeWord 0x360070000000007F#64 = .command (.bget 7 0x7F#32) := by decide
/-- op 41, ra 1, rb 2 (R149). -/
theorem test_decode_compare : decodeWord 0x4100120000000000#64 = .command (.lt 1 2) := by decide
/-- op 51, ra 1, addr 2000 (R156). -/
theorem test_decode_raw : decodeWord 0x5100100000002000#64 = .command (.straw 1 0x2000#16) := by decide
/-- op 52, rd 1, len 8, addr 0100 (R158). -/
theorem test_decode_text : decodeWord 0x5210000000080100#64 = .command (.ldhex 1 0x100#16 8#16) := by decide
/-- op 64, ra 1, cap 8, addr 0200 (R174). -/
theorem test_decode_signed : decodeWord 0x6400100000080200#64 = .command (.stsdec 1 0x200#16 8#16) := by decide
/-- op 73, rd 2, ra 1, imm 1 (R184). -/
theorem test_decode_scale : decodeWord 0x7320100000000001#64 = .command (.dprec 2 1 1#32) := by decide
/-- op 84, rd 3, ra 1, rb 2 (R202). -/
theorem test_decode_decimal : decodeWord 0x8430120000000000#64 = .command (.dmul 3 1 2) := by decide
/-- op 8A, rd 3, ra 1, rb 2, imm 5 (R217). -/
theorem test_decode_decimal_division : decodeWord 0x8A30120000000005#64 = .command (.ddivs 3 1 2 5#32) := by decide
/-- op 91, ra 1, rb 2 (R83). -/
theorem test_decode_decimal_compare : decodeWord 0x9100120000000000#64 = .command (.dlt 1 2) := by decide
/-- The extreme register numbers: op 20, rd 15, ra 15, rb 15. -/
theorem test_decode_all_ones_registers : decodeWord 0x20F0FF0000000000#64 = .command (.add 15 15 15) := by decide
/-- An unused register field, and the len field of LDRAW (R78). -/
theorem test_decode_reserved :
    decodeWord 0x1051000000000000#64 = .fault .reservedNonzero
    ∧ decodeWord 0x5090000000011000#64 = .fault .reservedNonzero := by decide
/-- Neither an all-zero nor an all-ones word is a command (R77). -/
theorem test_decode_unlisted :
    decodeWord 0#64 = .fault .illegalOpcode
    ∧ decodeWord 0xFFFFFFFFFFFFFFFF#64 = .fault .illegalOpcode := by decide
/-- The reserved check comes before the destination check (R80). -/
theorem test_decode_priority : decodeWord 0x2333120000000001#64 = .fault .reservedNonzero := by decide
theorem test_decodeTableWord : decodeTableWord 64 0x2030120000000000 = some (.add 3 1 2) := by decide

/-! ## Steps, with the results of the worked examples of the rules -/

/-- An instance just reset, with some V, S and BUF contents and a STATUS word. -/
def machine (w : Width) (v : List (Reg × Nat)) (sc : List (Reg × Nat)) (bytes : List (Nat × List Byte))
    (status : BitVec 32) : State :=
  let s0 := State.resetWith (Params.defaultFor w)
  let s1 := v.foldl (fun s x => s.putV x.1 x.2) s0
  let s2 := sc.foldl (fun s x => s.putS x.1 x.2) s1
  let s3 := bytes.foldl (fun s x => s.putBytes x.1 x.2) s2
  { s3 with status := status }

def ascii (cs : List Char) : List Byte := cs.map fun c => BitVec.ofNat 8 c.toNat

/-- Whether the step that takes this word from the host ends in a next state with the property. -/
def runs (s : State) (w : CmdWord) (p : State → Bool) : Bool :=
  match step (s.withFetchWord 64 w.toNat) with
  | .next t => p t
  | .fault _ => false
  | .refused _ => false

/-- R110. -/
theorem test_zero_clears : runs (machine .w128 [(5, 7)] [] [] 0#32)
    0x1050000000000000#64 (fun t => t.u 5 == 0) = true := by decide +kernel

/-- R111. -/
theorem test_one_is_unit : runs (machine .w128 [] [] [] 0#32)
    0x1100000000000000#64 (fun t => t.u 0 == 1) = true := by decide +kernel

/-- R112. -/
theorem test_ldw_zero_extends : runs (machine .w128 [] [] [] 0#32)
    0x12100000FFFFFFFF#64 (fun t => t.u 1 == 4294967295) = true := by decide +kernel

/-- R113. -/
theorem test_mov_copies_v_only : runs (machine .w128 [(1, 7)] [(1, 3)] [] 0#32)
    0x1320100000000000#64 (fun t => t.u 2 == 7 && t.scale 2 == 0) = true := by decide +kernel

/-- R121. -/
theorem test_add_wraps : runs (machine .w128 [(1, 2 ^ 128 - 1), (2, 2)] [] [] 0#32)
    0x2030120000000000#64 (fun t => t.u 3 == 1 && t.u 1 == 2 ^ 128 - 1) = true := by decide +kernel

/-- R122. -/
theorem test_sub_borrows : runs (machine .w128 [(1, 5), (2, 7)] [] [] 0#32)
    0x2130120000000000#64 (fun t => t.u 3 == 2 ^ 128 - 2) = true := by decide +kernel

/-- R124. -/
theorem test_mul_truncates : runs (machine .w128 [(1, 0xffffffff), (2, 0xffffffff)] [] [] 0#32)
    0x2230120000000000#64 (fun t => t.u 3 == 0xFFFFFFFE00000001) = true := by decide +kernel

/-- R125. -/
theorem test_mulw_high_half : runs (machine .w128 [(1, 2 ^ 127), (2, 4)] [] [] 0#32)
    0x2334120000000000#64 (fun t => t.u 3 == 0 && t.u 4 == 2) = true := by decide +kernel

/-- R129. -/
theorem test_div_quotient_remainder : runs (machine .w128 [(1, 100), (2, 7)] [] [] 16#32)
    0x2445120000000000#64 (fun t => t.u 4 == 14 && t.u 5 == 2 && !t.flag .dz) = true := by decide +kernel

/-- R131. -/
theorem test_div_by_zero : runs (machine .w128 [(1, 20)] [] [] 0#32)
    0x2445120000000000#64 (fun t => t.u 4 == 31 && t.u 5 == 0x14 && t.flag .dz && t.fault == 0#32) = true := by decide +kernel

/-- R135. -/
theorem test_and : runs (machine .w128 [(1, 61680), (2, 65280)] [] [] 0#32)
    0x3030120000000000#64 (fun t => t.u 3 == 0xF000) = true := by decide +kernel

/-- R136. -/
theorem test_or : runs (machine .w128 [(1, 61680), (2, 65280)] [] [] 0#32)
    0x3130120000000000#64 (fun t => t.u 3 == 0xFFF0) = true := by decide +kernel

/-- R137. -/
theorem test_xor : runs (machine .w128 [(1, 61680), (2, 65280)] [] [] 0#32)
    0x3230120000000000#64 (fun t => t.u 3 == 0x0FF0) = true := by decide +kernel

/-- R138. -/
theorem test_not_inverts_all_bits : runs (machine .w128 [(1, 255)] [] [] 0#32)
    0x3320100000000000#64 (fun t => t.u 2 == 2 ^ 128 - 256) = true := by decide +kernel

/-- R140. -/
theorem test_shl_in_place : runs (machine .w128 [(3, 3)] [] [] 0#32)
    0x3430300000000046#64 (fun t => t.u 3 == 3 * 2 ^ 70) = true := by decide +kernel

/-- R140. -/
theorem test_shl_drops_the_top : runs (machine .w128 [(3, 3)] [] [] 0#32)
    0x343030000000007F#64 (fun t => t.u 3 == 2 ^ 127) = true := by decide +kernel

/-- R141. -/
theorem test_shr_is_logical : runs (machine .w128 [(1, 2 ^ 127 + 5)] [] [] 0#32)
    0x3520100000000001#64 (fun t => t.u 2 == 2 ^ 126 + 2) = true := by decide +kernel

/-- R144. -/
theorem test_bget_top_bit : runs (machine .w128 [(7, 2 ^ 127)] [] [] 0#32)
    0x360070000000007F#64 (fun t => t.flag .t) = true := by decide +kernel

/-- R144. -/
theorem test_bget_past_the_end : runs (machine .w128 [(7, 2 ^ 127)] [] [] 2#32)
    0x3600700000000080#64 (fun t => !t.flag .t) = true := by decide +kernel

/-- R145. -/
theorem test_bset_in_place : runs (machine .w128 [] [] [] 0#32)
    0x3710100000000008#64 (fun t => t.u 1 == 256) = true := by decide +kernel

/-- R146. -/
theorem test_bclr_in_place : runs (machine .w128 [(1, 511)] [] [] 0#32)
    0x3810100000000008#64 (fun t => t.u 1 == 0xFF) = true := by decide +kernel

/-- R148. -/
theorem test_eq : runs (machine .w128 [(1, 9), (2, 9)] [] [] 0#32)
    0x4000120000000000#64 (fun t => t.flag .t) = true := by decide +kernel

/-- R149. -/
theorem test_lt_is_unsigned : runs (machine .w128 [(1, 3), (2, 2 ^ 127)] [] [] 0#32)
    0x4100120000000000#64 (fun t => t.flag .t) = true := by decide +kernel

/-- R151. -/
theorem test_msb : runs (machine .w128 [(7, 256)] [] [] 0#32)
    0x4200700000000000#64 (fun t => t.res == 8#32) = true := by decide +kernel

/-- R152. -/
theorem test_lzc : runs (machine .w128 [(7, 256)] [] [] 0#32)
    0x4300700000000000#64 (fun t => t.res == 119#32) = true := by decide +kernel

/-- R152, the default. -/
theorem test_lzc_of_zero_is_w : runs (machine .w128 [] [] [] 0#32)
    0x4300700000000000#64 (fun t => t.res == 128#32) = true := by decide +kernel

/-- R155. -/
theorem test_ldraw_little_endian : runs (machine .w128 [] [] [(0x1000, [0x01#8, 0x02#8, 0#8, 0#8, 0#8, 0#8, 0#8, 0#8, 0#8, 0#8, 0#8, 0#8, 0#8, 0#8, 0#8, 0x80#8])] 0#32)
    0x5090000000001000#64 (fun t => t.u 9 == 2 ^ 127 + 0x0201) = true := by decide +kernel

/-- R156. -/
theorem test_straw_little_endian : runs (machine .w128 [(1, 258)] [] [] 0#32)
    0x5100100000002000#64 (fun t => t.window 0x2000 16 == [0x02#8, 0x01#8] ++ List.replicate 14 0#8) = true := by decide +kernel

/-- R158. -/
theorem test_ldhex_both_cases : runs (machine .w128 [] [] [(0x100, (ascii ['f', 'f', 'F', 'F', 'f', 'f', 'F', 'F']))] 0#32)
    0x5210000000080100#64 (fun t => t.u 1 == 0xFFFFFFFF && t.flag .ok) = true := by decide +kernel

/-- R159. -/
theorem test_sthex_upper_case : runs (machine .w128 [(3, 0xfffffffe00000001)] [] [] 0#32)
    0x5300300000100200#64 (fun t => t.window 0x200 16 == (ascii ['F', 'F', 'F', 'F', 'F', 'F', 'F', 'E', '0', '0', '0', '0', '0', '0', '0', '1']) && t.res == 16#32 && t.flag .ok) = true := by decide +kernel

/-- R159. -/
theorem test_sthex_too_small_writes_nothing : runs (machine .w128 [(3, 0xfffffffe00000001)] [] [(0x200, List.replicate 15 0x2E#8)] 0#32)
    0x53003000000F0200#64 (fun t => t.window 0x200 15 == List.replicate 15 0x2E#8 && t.res == 0#32 && !t.flag .ok) = true := by decide +kernel

/-- R160. -/
theorem test_lddec : runs (machine .w128 [] [] [(0x100, (ascii ['1', '4', '0', '0']))] 0#32)
    0x5410000000040100#64 (fun t => t.u 1 == 1400 && t.flag .ok) = true := by decide +kernel

/-- R160. -/
theorem test_lddec_rejects_a_sign : runs (machine .w128 [(1, 7)] [] [(0x100, (ascii ['+', '4', '0', '0']))] 1#32)
    0x5410000000040100#64 (fun t => t.u 1 == 7 && !t.flag .ok) = true := by decide +kernel

/-- R161. -/
theorem test_stdec_longest : runs (machine .w128 [(1, 2 ^ 128 - 1)] [] [] 0#32)
    0x5500100000270300#64 (fun t => t.window 0x300 39 == (ascii ['3', '4', '0', '2', '8', '2', '3', '6', '6', '9', '2', '0', '9', '3', '8', '4', '6', '3', '4', '6', '3', '3', '7', '4', '6', '0', '7', '4', '3', '1', '7', '6', '8', '2', '1', '1', '4', '5', '5']) && t.res == 39#32 && t.flag .ok) = true := by decide +kernel

/-- R161. -/
theorem test_stdec_too_small : runs (machine .w128 [(1, 2 ^ 128 - 1)] [] [] 1#32)
    0x5500100000260300#64 (fun t => t.res == 0#32 && !t.flag .ok) = true := by decide +kernel

/-- R170. -/
theorem test_neg : runs (machine .w128 [(1, 5)] [] [] 0#32)
    0x6020100000000000#64 (fun t => t.u 2 == 2 ^ 128 - 5 && t.sg 2 == -5) = true := by decide +kernel

/-- R171. -/
theorem test_abs_sets_neg : runs (machine .w128 [(1, 2 ^ 128 - 5)] [] [] 0#32)
    0x6120100000000000#64 (fun t => t.u 2 == 5 && t.flag .neg) = true := by decide +kernel

/-- R172. -/
theorem test_slt_is_signed : runs (machine .w128 [(1, 2 ^ 128 - 1)] [] [] 0#32)
    0x6200120000000000#64 (fun t => t.flag .t) = true := by decide +kernel

/-- R173. -/
theorem test_ldsdec_negates_last : runs (machine .w128 [] [] [(0x100, (ascii ['-', '2', '0', '0']))] 0#32)
    0x6310000000040100#64 (fun t => t.sg 1 == -200 && t.flag .ok) = true := by decide +kernel

/-- R174. -/
theorem test_stsdec : runs (machine .w128 [(1, 2 ^ 128 - 1400)] [] [] 0#32)
    0x6400100000080200#64 (fun t => t.window 0x200 5 == (ascii ['-', '1', '4', '0', '0']) && t.res == 5#32 && t.flag .ok) = true := by decide +kernel

/-- R180. -/
theorem test_sset_keeps_v : runs (machine .w128 [(1, 1000)] [] [] 0#32)
    0x7010000000000001#64 (fun t => t.scale 1 == 1 && t.u 1 == 1000) = true := by decide +kernel

/-- R181. -/
theorem test_sget : runs (machine .w128 [] [(1, 1)] [] 0#32)
    0x7100100000000000#64 (fun t => t.res == 1#32) = true := by decide +kernel

/-- R182. -/
theorem test_dmov_copies_the_pair : runs (machine .w128 [(1, 12)] [(1, 9)] [] 0#32)
    0x7220100000000000#64 (fun t => t.u 2 == 12 && t.scale 2 == 9) = true := by decide +kernel

/-- R184. -/
theorem test_dprec_up : runs (machine .w128 [(1, 100)] [] [] 8#32)
    0x7320100000000001#64 (fun t => t.u 2 == 1000 && t.scale 2 == 1 && !t.flag .inx) = true := by decide +kernel

/-- R184. -/
theorem test_dprec_down_truncates_toward_zero : runs (machine .w128 [(1, 2 ^ 128 - 19)] [(1, 1)] [] 0#32)
    0x7320100000000000#64 (fun t => t.sg 2 == -1 && t.scale 2 == 0 && t.flag .inx) = true := by decide +kernel

/-- R187. -/
theorem test_dprecs_accepts : runs (machine .w128 [(1, 5)] [] [] 0#32)
    0x742010000000001E#64 (fun t => t.u 2 == 5 * 10 ^ 30 && t.scale 2 == 30 && t.flag .ok) = true := by decide +kernel

/-- R187. -/
theorem test_dprecs_refuses : runs (machine .w128 [(1, 5), (2, 3)] [] [] 1#32)
    0x7420100000000025#64 (fun t => t.u 2 == 3 && t.scale 2 == 0 && !t.flag .ok) = true := by decide +kernel

/-- R196. -/
theorem test_dadd_aligns : runs (machine .w128 [(1, 10), (2, 1)] [(2, 2)] [] 0#32)
    0x8030120000000000#64 (fun t => t.u 3 == 1001 && t.scale 3 == 2) = true := by decide +kernel

/-- R197. -/
theorem test_dsub_aligns : runs (machine .w128 [(1, 10), (2, 1)] [(2, 2)] [] 0#32)
    0x8130120000000000#64 (fun t => t.u 3 == 999 && t.scale 3 == 2) = true := by decide +kernel

/-- R199. -/
theorem test_dadds_accepts : runs (machine .w128 [(1, 10), (2, 1)] [(2, 2)] [] 0#32)
    0x8230120000000000#64 (fun t => t.u 3 == 1001 && t.scale 3 == 2 && t.flag .ok) = true := by decide +kernel

/-- R200. -/
theorem test_dsubs_refuses : runs (machine .w128 [(1, 1), (2, 1), (3, 9)] [(2, 40)] [] 1#32)
    0x8330120000000000#64 (fun t => t.u 3 == 9 && t.scale 3 == 0 && !t.flag .ok) = true := by decide +kernel

/-- R202. -/
theorem test_dmul_adds_scales : runs (machine .w128 [(1, 2 ^ 128 - 20000), (2, 7)] [(1, 2)] [] 0#32)
    0x8430120000000000#64 (fun t => t.sg 3 == -140000 && t.scale 3 == 2) = true := by decide +kernel

/-- R203. -/
theorem test_dmuls_refuses_the_sign_bit : runs (machine .w128 [(1, 2 ^ 126), (2, 2)] [] [] 1#32)
    0x8530120000000000#64 (fun t => t.u 3 == 0 && !t.flag .ok) = true := by decide +kernel

/-- R203. -/
theorem test_dmuls_accepts_the_most_negative : runs (machine .w128 [(1, 2 ^ 128 - 2 ^ 126), (2, 2)] [] [] 0#32)
    0x8530120000000000#64 (fun t => t.sg 3 == -2 ^ 127 && t.flag .ok) = true := by decide +kernel

/-- R212. -/
theorem test_ddivf : runs (machine .w128 [(1, 20), (2, 5)] [(2, 1)] [] 16#32)
    0x8830120000000000#64 (fun t => t.u 3 == 40 && t.scale 3 == 0 && !t.flag .dz) = true := by decide +kernel

/-- R214. -/
theorem test_ddivw : runs (machine .w128 [(1, 1), (2, 3)] [] [] 0#32)
    0x8930120000000005#64 (fun t => t.u 3 == 33333 && t.scale 3 == 5) = true := by decide +kernel

/-- R217. -/
theorem test_ddivs_at_the_ceiling : runs (machine .w128 [(1, 1), (2, 3)] [] [] 0#32)
    0x8A30120000000026#64 (fun t => t.u 3 == (10 ^ 38 - 1) / 3 && t.scale 3 == 38 && t.flag .ok) = true := by decide +kernel

/-- R217. -/
theorem test_ddivs_past_the_ceiling : runs (machine .w128 [(1, 1), (2, 3)] [] [] 1#32)
    0x8A30120000000027#64 (fun t => t.u 3 == 0 && t.scale 3 == 0 && !t.flag .ok) = true := by decide +kernel

/-- R226. -/
theorem test_deq_across_scales : runs (machine .w128 [(1, 100), (2, 1000)] [(2, 1)] [] 0#32)
    0x9000120000000000#64 (fun t => t.flag .t) = true := by decide +kernel

/-- R227. -/
theorem test_dlt_across_scales : runs (machine .w128 [(1, 2 ^ 128 - 2), (2, 2 ^ 128 - 19999999999999999999999999999999)] [(1, 1), (2, 32)] [] 0#32)
    0x9100120000000000#64 (fun t => t.flag .t) = true := by decide +kernel

/-- R234. -/
theorem test_lddcm : runs (machine .w128 [] [] [(0x100, (ascii ['-', '2', '0', '0', '.', '0', '0']))] 0#32)
    0x9210000000070100#64 (fun t => t.sg 1 == -20000 && t.scale 1 == 2 && t.flag .ok) = true := by decide +kernel

/-- R235. -/
theorem test_stdcm : runs (machine .w128 [(3, 2 ^ 128 - 140000)] [(3, 2)] [] 0#32)
    0x9300300000100200#64 (fun t => t.window 0x200 8 == (ascii ['-', '1', '4', '0', '0', '.', '0', '0']) && t.res == 8#32 && t.flag .ok) = true := by decide +kernel

/-- R235. -/
theorem test_stdcm_pads_with_zeros : runs (machine .w128 [(3, 2 ^ 128 - 5)] [(3, 2)] [] 0#32)
    0x9300300000100200#64 (fun t => t.window 0x200 5 == (ascii ['-', '0', '.', '0', '5']) && t.res == 5#32) = true := by decide +kernel

/-- R77. -/
theorem test_illegal_opcode : runs (machine .w128 [(1, 1)] [] [] 0#32)
    0x0000000000000000#64 (fun t => t.fault == 0x11#32 && t.fcmd == 0#64 && t.u 1 == 1) = true := by decide +kernel

/-- R78. -/
theorem test_reserved_nonzero : runs (machine .w128 [] [] [] 0#32)
    0x1050000100000000#64 (fun t => t.fault == 0x21#32 && t.fcmd == 0x1050000100000000#64) = true := by decide +kernel

/-- R79. -/
theorem test_dest_conflict : runs (machine .w128 [(1, 1)] [] [] 0#32)
    0x2333120000000000#64 (fun t => t.fault == 0x31#32 && t.u 3 == 0) = true := by decide +kernel

/-- R56. -/
theorem test_buf_range : runs (machine .w128 [(1, 1)] [] [] 0#32)
    0x510010000000FFF1#64 (fun t => t.fault == 0x41#32 && t.fcmd == 0x510010000000FFF1#64) = true := by decide +kernel

/-- R121. -/
theorem test_add_at_width_512 : runs (machine .w512 [(1, 2 ^ 512 - 1), (2, 2)] [] [] 0#32)
    0x2030120000000000#64 (fun t => t.u 3 == 1) = true := by decide +kernel

/-! ## Witnesses: the hypotheses of the statements, met together by concrete states and operands -/

/-- Values, scales and texts of the witnesses. -/
def wm : State :=
  machine .w128 [(1, 7), (2, 3), (3, 2 ^ 127), (4, 2 ^ 128 - 12), (6, 2)] [(1, 1), (2, 2), (4, 1)]
    [(0x100, ascii ['1', '2', '3', '4']), (0x110, ascii ['-', '1', '2']),
      (0x120, ascii ['+', '1', '2', '.', '5']), (0x130, ascii ['1', '-', '2']),
      (0x140, ascii ['0', 'f', 'G'])] 0#32

/-- The same, halted. -/
def wh : State := wm.takeFault .illegalOpcode 0#64

def isNext : Result → Bool
  | .next _ => true
  | .fault _ => false
  | .refused _ => false

/-- The state a result ends in. -/
def nextOf : Result → State
  | .next t => t
  | .fault _ => State.reset
  | .refused _ => State.reset

theorem eq_nextOf {r : Result} (h : isNext r = true) : r = .next (nextOf r) := by
  cases r <;> simp_all [isNext, nextOf]

def after (i : Instr) (s : State) : State := nextOf (exec i s)

theorem witness_DecodeOfEncodeIsTheCommand :
    (Instr.mulw 3 4 1 2).wellFormed = true ∧ (Instr.stdcm 15 0xFFFF#16 0xFFFF#16).wellFormed = true := by
  decide

theorem witness_ReservedBitsFaultAndEncodingIsUnique :
    instrOf (fieldOp 0x1051000000000000#64) (operandsOf 0x1051000000000000#64) = some (.zero 5)
    ∧ ReservedSet (.zero 5) 0x1051000000000000#64 ∧ wm.halted = false
    ∧ encode (.zero 5) ≠ 0x1051000000000000#64
    ∧ decodeWord 0x1050000000000000#64 = .command (.zero 5)
    ∧ ReservedSet (.straw 1 0#16) 0x5100100000010000#64 := by
  unfold ReservedSet; decide +kernel

theorem witness_UnlistedOpcodesAndEqualDestinationsFault :
    (fieldOp 0xFF00000000000000#64).toNat ∉ listedOps ∧ wm.halted = false := by decide +kernel

theorem witness_ChecksOfAWordComeInOrder :
    wh.halted = true ∧ wm.halted = false ∧ (fieldOp 0#64).toNat ∉ listedOps
    ∧ (fieldOp 0x5100100000000000#64).toNat ∈ listedOps := by decide +kernel

theorem witness_ChecksOfAWordComeInOrder_reserved :
    ReservedSet (.straw 1 0#16) 0x5100100000010000#64 := by unfold ReservedSet; decide

theorem witness_ChecksOfAWordComeInOrder_destinations :
    ¬ReservedSet (.mulw 3 3 1 2) 0x2333120000000000#64 ∧ (Instr.mulw 3 3 1 2).format = .DEAB
    ∧ fieldRd 0x2333120000000000#64 = fieldRe 0x2333120000000000#64 := by unfold ReservedSet; decide

/-- The last window that does not fit and the first that does. -/
theorem witness_ChecksOfAWordComeInOrder_window :
    (¬ReservedSet (.straw 1 0xFFF1#16) 0x510010000000FFF1#64 ∧ 65536 < 0xFFF1 + wm.W / 8)
    ∧ 0xFFF0 + wm.W / 8 ≤ 65536 := by unfold ReservedSet; decide +kernel

theorem witness_DigitCodecMapsAsciiDigits :
    digitOf 0x7A#8 36 = some 35 ∧ digitOf 0x39#8 10 = some 9 ∧ hexByteOf 0x37#8 0x66#8 = some 0x7F#8 := by
  decide

theorem witness_StepRunsTheDecodedCommand :
    wm.halted = false ∧ decodeWord 0x2030120000000000#64 = .command (.add 3 1 2) := by decide +kernel

theorem witness_FaultsArePrecise :
    wm.halted = false ∧ isNext (step (wm.withPending [.writeCmd 0x510010000000FFF1#64])) = true
    ∧ (nextOf (step (wm.withPending [.writeCmd 0x510010000000FFF1#64]))).halted = true := by
  decide +kernel

theorem witness_HaltedEngineDiscardsCommands : wh.halted = true := by decide +kernel

theorem witness_OnlyResetLeavesHalt :
    wh.halted = true ∧ isNext (exec (.add 3 1 2) wh) = true ∧ isNext (step wh) = true
    ∧ isNext (step (wh.withPending [.assertReset])) = true := by decide +kernel

theorem witness_HostAccessesHaveNoOtherEffect : wm.inbox = [] := by decide +kernel

theorem witness_InvAtReset : (Params.mk .w384 384 .other).ok = true := by decide

/-- A state that no reset gives, with written registers and bytes, and a step of it. -/
theorem witness_EveryStepKeepsInv :
    wm.Inv ∧ isNext (step (wm.withPending [.writeCmd 0x5500100000100300#64])) = true := by
  refine ⟨⟨?_, ?_, ?_, ?_, ?_⟩, ?_⟩
  · decide +kernel
  · decide +kernel
  · decide +kernel
  · intro i hi
    have : wm.status = 0#32 := by decide +kernel
    rw [this]; simp
  · decide +kernel
  · decide +kernel

theorem witness_FaultRegistersTellTheTruth :
    wh.FaultExplained ∧ isNext (step wh) = true :=
  ⟨.inr (.inl ⟨.illegalOpcode, by decide +kernel, by decide +kernel⟩), by decide +kernel⟩

theorem witness_CommandsWriteOnlyTheirWritesList :
    Accepted (.straw 1 0xFFF0#16) wm ∧ ¬Accepted (.straw 1 0xFFF1#16) wm ∧ ¬Accepted (.div 3 3 1 2) wm := by
  refine ⟨⟨rfl, ?_⟩, ?_, ?_⟩
  · intro an h
    simp only [windowOf, Option.some.injEq] at h
    subst h; decide +kernel
  · intro h
    have := h.2 _ rfl
    revert this; decide +kernel
  · intro h
    exact absurd h.1 (by decide)

theorem witness_FlagsAreWrittenByTheirCommandsOnly :
    Accepted (.dmuls 5 3 6) wm
    ∧ isNext (exec (.dmuls 5 3 6) wm) = true
    ∧ isNext (exec (.dmuls 5 3 6) { wm with status := 0xFFFFFFFF#32 }) = true
    ∧ Flag.t ∉ flagsOf (.dmuls 5 3 6) ∧ Flag.ok ∈ flagsOf (.dmuls 5 3 6)
    ∧ (after (.dmuls 5 3 6) wm).flag .ok = false := by
  refine ⟨⟨rfl, fun an h => by simp [windowOf] at h⟩, ?_⟩
  decide +kernel

theorem witness_IntegerCommandsIgnoreScales :
    isIntegerCommand (.abs 3 4) = true ∧ isNext (exec (.abs 3 4) wm) = true := by decide +kernel

theorem witness_OnlyBufferCommandsReachBuf :
    (bufUse (.add 3 1 2) = .untouched ∧ isNext (exec (.add 3 1 2) wm) = true)
    ∧ (bufUse (.ldhex 3 0x100#16 4#16) = .reads ∧ isNext (exec (.ldhex 3 0x100#16 4#16) wm) = true)
    ∧ (∀ j < 4, State.bufByte { wm with buf := Memory.cells 0x100 (ascii ['1', '2', '3', '4']), bufEpoch := 9 }
        (0x100 + j) = wm.bufByte (0x100 + j))
    ∧ (bufUse (.stdec 1 0x100#16 4#16) = .writes ∧ isNext (exec (.stdec 1 0x100#16 4#16) wm) = true) := by
  decide +kernel

theorem witness_WindowsPastTheEndFault :
    (windowOf wm.W (.ldhex 1 0xFFFF#16 2#16) = some (0xFFFF, 2) ∧ 65536 < 0xFFFF + 2)
    ∧ (windowOf wm.W (.ldhex 1 0xFFFF#16 1#16) = some (0xFFFF, 1) ∧ 0xFFFF + 1 ≤ 65536)
    ∧ windowOf wm.W (.ldhex 1 0xFFFF#16 0#16) = some (0xFFFF, 0) := by decide +kernel

theorem witness_AddAndSubWrap : (1 : Reg) ≠ 2 := by decide

theorem witness_MultiplyGivesLowAndHighHalves :
    (3 : Reg) ≠ 4 ∧ ([10, 11, 12, 1, 2, 6] : List Reg).Nodup := by decide

theorem witness_DivRunsRestoringDivision : (3 : Reg) ≠ 4 := by decide

theorem witness_DivisionLaws :
    (3 : Reg) ≠ 4 ∧ wm.u 2 ≠ 0 ∧ wm.u 0 = 0 ∧ 100 < 2 ^ 7 ∧ 7 < 2 ^ 7 := by decide +kernel

theorem witness_MsbAndLzcCountBits :
    wm.u 0 = 0 ∧ wm.u 3 ≠ 0 ∧ wm.params.ok = true := by decide +kernel

theorem witness_RawBytesAreLittleEndian :
    65536 < (0xFFF1#16).toNat + wm.W / 8 ∧ (0xFFF0#16).toNat + wm.W / 8 ≤ 65536 := by decide +kernel

/-- Digits, a character that is none, and a window longer than W/4. -/
theorem witness_HexTextParses :
    65536 < (0xFFFF#16).toNat + (2#16).toNat ∧ (0xFFFF#16).toNat + (1#16).toNat ≤ 65536
    ∧ wm.allDigits 16 (0x100 + 4 - min 4 (wm.W / 4)) (min 4 (wm.W / 4))
    ∧ ¬wm.allDigits 16 (0x140 + 3 - min 3 (wm.W / 4)) (min 3 (wm.W / 4))
    ∧ min 33 (wm.W / 4) = 32 := by
  unfold State.allDigits; decide +kernel

theorem witness_HexTextPrintsMinimalDigits :
    65536 < (0xFFFF#16).toNat + (2#16).toNat ∧ (0xFFFF#16).toNat + (1#16).toNat ≤ 65536
    ∧ (1#16).toNat = Nat.log2 (wm.u 1) / 4 + 1 ∧ (31#16).toNat < Nat.log2 (wm.u 3) / 4 + 1 := by
  decide +kernel

theorem witness_DecimalTextParses :
    wm.allDigits 10 0x100 4 ∧ wm.allDigits 10 0x100 0 ∧ ¬wm.allDigits 10 0x110 3 := by
  unfold State.allDigits; decide +kernel

theorem witness_DecimalTextPrints :
    IsDigitCount (wm.u 3) 39 ∧ (38#16).toNat < 39 ∧ 39 ≤ (39#16).toNat ∧ IsDigitCount (wm.u 0) 1 := by
  unfold IsDigitCount; decide +kernel

theorem witness_ExportThenParseRestoresTheValue :
    (isNext (exec (.straw 3 0xFFF0#16) wm) = true ∧ 0xFFF0 + wm.W / 8 ≤ 65536)
    ∧ (isNext (exec (.sthex 3 0x200#16 32#16) wm) = true ∧ (after (.sthex 3 0x200#16 32#16) wm).flag .ok = true)
    ∧ (isNext (exec (.stdec 3 0x200#16 39#16) wm) = true ∧ (after (.stdec 3 0x200#16 39#16) wm).flag .ok = true)
    ∧ (isNext (exec (.stsdec 3 0x200#16 40#16) wm) = true ∧ (after (.stsdec 3 0x200#16 40#16) wm).flag .ok = true)
    ∧ (isNext (exec (.stdcm 4 0x200#16 4#16) wm) = true ∧ (after (.stdcm 4 0x200#16 4#16) wm).flag .ok = true) := by
  decide +kernel

theorem witness_ParseThenPrintIsCanonical :
    (wm.allDigits 10 0x100 4 ∧ wm.digitsValue 10 0x100 4 < 2 ^ wm.W
      ∧ isNext (exec (.lddec 5 0x100#16 4#16) wm) = true
      ∧ isNext (exec (.stdec 5 0x200#16 4#16) (after (.lddec 5 0x100#16 4#16) wm)) = true
      ∧ (after (.stdec 5 0x200#16 4#16) (after (.lddec 5 0x100#16 4#16) wm)).flag .ok = true)
    ∧ (wm.allDigits 16 0x140 2 ∧ 2 ≤ wm.W / 4
      ∧ isNext (exec (.ldhex 5 0x140#16 2#16) wm) = true
      ∧ isNext (exec (.sthex 5 0x200#16 2#16) (after (.ldhex 5 0x140#16 2#16) wm)) = true
      ∧ (after (.sthex 5 0x200#16 2#16) (after (.ldhex 5 0x140#16 2#16) wm)).flag .ok = true) := by
  unfold State.allDigits State.digitsValue; decide +kernel

/-- The empty string. -/
theorem witness_ParseThenPrintIsCanonical_empty :
    wm.allDigits 10 0x100 0 ∧ wm.digitsValue 10 0x100 0 < 2 ^ wm.W
    ∧ (after (.stdec 5 0x200#16 1#16) (after (.lddec 5 0x100#16 0#16) wm)).flag .ok = true
    ∧ (after (.sthex 5 0x200#16 1#16) (after (.ldhex 5 0x100#16 0#16) wm)).flag .ok = true := by
  unfold State.allDigits State.digitsValue; decide +kernel

/-- "-12" through the signed and the decimal commands. -/
theorem witness_ParseThenPrintIsCanonical_signed :
    wm.signLength 0x110 3 = 1 ∧ wm.allDigits 10 (0x110 + 1) 2
    ∧ 12 = wm.digitsValue 10 (0x110 + 1) 2 ∧ wm.minusLength 0x110 3 12 = 1
    ∧ InSigned wm.W (wm.signFactor 0x110 3 * ((12 : Nat) : Int)) ∧ 12 < 2 ^ (wm.W - 1)
    ∧ isNext (exec (.ldsdec 5 0x110#16 3#16) wm) = true
    ∧ isNext (exec (.stsdec 5 0x200#16 3#16) (after (.ldsdec 5 0x110#16 3#16) wm)) = true
    ∧ (after (.stsdec 5 0x200#16 3#16) (after (.ldsdec 5 0x110#16 3#16) wm)).flag .ok = true
    ∧ isNext (exec (.lddcm 5 0x110#16 3#16) wm) = true
    ∧ isNext (exec (.stdcm 5 0x200#16 3#16) (after (.lddcm 5 0x110#16 3#16) wm)) = true
    ∧ (after (.stdcm 5 0x200#16 3#16) (after (.lddcm 5 0x110#16 3#16) wm)).flag .ok = true := by
  unfold State.allDigits State.digitsValue InSigned; decide +kernel

/-- "+12.5", one digit after the point, and its prefix "+12.", none. -/
theorem witness_ParseThenPrintIsCanonical_point :
    (wm.signLength 0x120 5 = 1 ∧ wm.pointedDigits (0x120 + 1) 4 2
      ∧ 125 = wm.digitsValue 10 (0x120 + 1) 2 * 10 ^ 1 + wm.digitsValue 10 (0x120 + 1 + 2 + 1) 1
      ∧ 125 < 2 ^ (wm.W - 1) ∧ wm.minusLength 0x120 5 125 = 0
      ∧ isNext (exec (.lddcm 5 0x120#16 5#16) wm) = true
      ∧ isNext (exec (.stdcm 5 0x200#16 4#16) (after (.lddcm 5 0x120#16 5#16) wm)) = true
      ∧ (after (.stdcm 5 0x200#16 4#16) (after (.lddcm 5 0x120#16 5#16) wm)).flag .ok = true)
    ∧ (wm.signLength 0x120 4 = 1 ∧ wm.pointedDigits (0x120 + 1) 3 2
      ∧ (after (.stdcm 5 0x200#16 2#16) (after (.lddcm 5 0x120#16 4#16) wm)).flag .ok = true) := by
  unfold State.pointedDigits State.allDigits State.digitsValue; decide +kernel

theorem witness_NegateAndAbsolute :
    wm.sg 3 = -(2 : Int) ^ (wm.W - 1) ∧ wm.sg 1 ≠ -(2 : Int) ^ (wm.W - 1) := by decide +kernel

theorem witness_SignedDecimalTextParses :
    wm.signLength 0x110 3 = 1 ∧ wm.allDigits 10 (0x110 + 1) (3 - 1)
    ∧ wm.signLength 0x130 3 = 0 ∧ ¬wm.allDigits 10 (0x130 + 0) (3 - 0) := by
  unfold State.allDigits; decide +kernel

theorem witness_SignedDecimalTextPrints :
    IsDigitCount (wm.sg 3).natAbs 39 ∧ wm.sg 3 < 0 ∧ (39#16).toNat < 1 + 39 ∧ 1 + 39 ≤ (40#16).toNat
    ∧ IsDigitCount (wm.sg 0).natAbs 1 ∧ ¬wm.sg 0 < 0 := by
  unfold IsDigitCount; decide +kernel

theorem witness_PrecisionChange :
    wm.scale 2 ≤ (2#32).toNat ∧ wm.scale 2 ≤ (3#32).toNat ∧ (1#32).toNat < wm.scale 2 := by decide +kernel

theorem witness_CheckedPrecisionChange :
    (wm.scale 1 < (2#32).toNat
      ∧ headroomOk wm.params (lzcW wm.params (wm.sg 1).natAbs) ((2#32).toNat - wm.scale 1) = true)
    ∧ (wm.scale 3 < (1#32).toNat
      ∧ headroomOk wm.params (lzcW wm.params (wm.sg 3).natAbs) ((1#32).toNat - wm.scale 3) = false)
    ∧ (1#32).toNat ≤ wm.scale 1 := by decide +kernel

/-- At W = 128, L = 127 (m = 1) allows k = 37, the largest (46_dec_scale.md R186). -/
theorem witness_HeadroomEstimateIsSound :
    headroomOk (Params.defaultFor .w128) 127 37 = true ∧ lzcW (Params.defaultFor .w128) 1 = 127
    ∧ headroomOk (Params.defaultFor .w128) 127 38 = false
    ∧ (Params.defaultFor .w128).headroom = .specDefault := by decide +kernel

theorem witness_DecimalAddAndSubtract : max (wm.scale 1) (wm.scale 2) = 2 := by decide +kernel

theorem witness_CheckedDecimalAddAndSubtract :
    (max (wm.scale 1) (wm.scale 2) = 2 ∧ ∀ r ∈ ([1, 2] : List Reg), 2 - wm.scale r = 0
      ∨ headroomOk wm.params (lzcW wm.params (wm.sg r).natAbs) (2 - wm.scale r) = true)
    ∧ (max (wm.scale 3) (wm.scale 2) = 2 ∧ ∃ r ∈ ([3, 2] : List Reg), 0 < 2 - wm.scale r
      ∧ headroomOk wm.params (lzcW wm.params (wm.sg r).natAbs) (2 - wm.scale r) = false) := by
  decide +kernel

theorem witness_DecimalMultiply :
    InSigned wm.W (wm.sg 1 * wm.sg 4) ∧ InSigned wm.W (wm.sg 3 * 1) ∧ ¬InSigned wm.W (wm.sg 3 * wm.sg 6)
    ∧ wm.scale 1 + wm.scale 4 < 2 ^ 32 := by
  unfold InSigned; decide +kernel

/-- The value 7 has 125 leading zeros at W = 128. -/
theorem witness_CheckedMultiplyFailsAtTheLeadingZeros :
    wm.u 1 ≠ 0 ∧ 125 + Nat.log2 (wm.u 1) + 1 = wm.W ∧ wm.u 6 = 2 ^ 1 ∧ 1 < wm.W - 1 ∧ 1 < 125
    ∧ (machine .w128 [(1, 7), (2, 2 ^ 125)] [] [] 0#32).u 2 = 2 ^ 125 ∧ 125 < wm.W - 1 := by
  decide +kernel

theorem witness_DecimalResultsDenoteExactly :
    InSigned wm.W (wm.sg 1 * (10 : Int) ^ (2 - wm.scale 1) + wm.sg 2 * (10 : Int) ^ (2 - wm.scale 2))
    ∧ InSigned wm.W (wm.sg 1 * (10 : Int) ^ (2 - wm.scale 1) - wm.sg 2 * (10 : Int) ^ (2 - wm.scale 2))
    ∧ (isNext (exec (.dadds 5 1 2) wm) = true ∧ (after (.dadds 5 1 2) wm).flag .ok = true)
    ∧ (isNext (exec (.dsubs 5 1 2) wm) = true ∧ (after (.dsubs 5 1 2) wm).flag .ok = true)
    ∧ (isNext (exec (.dmuls 5 1 2) wm) = true ∧ (after (.dmuls 5 1 2) wm).flag .ok = true)
    ∧ isNext (exec (.dadd 5 1 2) wm) = true ∧ isNext (exec (.dsub 5 1 2) wm) = true
    ∧ isNext (exec (.dmul 5 1 2) wm) = true ∧ InSigned wm.W (wm.sg 1 * wm.sg 2) := by
  unfold InSigned; decide +kernel

/-- e = 3 + 2 digits, a scale sum that wraps, and a zero divisor. -/
theorem witness_divisions_setup :
    (wm.scale 2 + (3#32).toNat) % 2 ^ 32 = 5 ∧ (wm.scale 2 + (0xFFFFFFFF#32).toNat) % 2 ^ 32 = 1
    ∧ wm.sg 0 = 0 ∧ udivQ ((wm.sg 1).natAbs * 10 ^ 5 % 2 ^ wm.W) (wm.sg 2).natAbs = 233333 := by
  decide +kernel

/-- 1 / 3 at 39 digits passes MAXSAFE at the pass j = 38, at 38 digits at none (48_dec_div.md R217). -/
theorem witness_CheckedDivisionStopsAtMaxsafe :
    (∃ j < 39, (2 ^ 128 - 1) / 5 / 4
      < (((divPass 128 3)^[j] (0, 1)).1 + udivQ ((divPass 128 3)^[j] (0, 1)).2 3) % 2 ^ 128)
    ∧ (∀ j < 38, (((divPass 128 3)^[j] (0, 1)).1 + udivQ ((divPass 128 3)^[j] (0, 1)).2 3) % 2 ^ 128
      ≤ (2 ^ 128 - 1) / 5 / 4) := by
  decide +kernel

theorem witness_DivisionsAreExactInTheirRange :
    5 = wm.scale 2 + (3#32).toNat ∧ 5 < 2 ^ 32 ∧ wm.scale 4 + (3#32).toNat < 2 ^ 32 ∧ wm.sg 2 ≠ 0
    ∧ (isNext (exec (.ddivf 5 4 2 3#32) wm) = true ∧ (wm.sg 4).natAbs * 10 ^ 5 ≤ 2 ^ (wm.W - 1) - 1)
    ∧ isNext (exec (.ddivw 5 4 2 3#32) wm) = true
    ∧ (isNext (exec (.ddivs 5 4 2 3#32) wm) = true ∧ (after (.ddivs 5 4 2 3#32) wm).flag .ok = true)
    ∧ 10 * ((wm.sg 2).natAbs - 1) < 2 ^ wm.W
    ∧ (wm.sg 4).natAbs * 10 ^ 5 / (wm.sg 2).natAbs ≤ 2 ^ (wm.W - 1) - 1 := by
  decide +kernel

theorem witness_StagedComparisonAgrees :
    2 ^ 127 < 2 ^ (Params.defaultFor .w128).width.bits := by decide +kernel

/-- A text without a point, one with a point after two digits, and one that is neither. -/
theorem witness_DecimalWithScaleParses :
    (wm.signLength 0x110 3 = 1 ∧ wm.allDigits 10 (0x110 + 1) 2)
    ∧ (wm.signLength 0x120 5 = 1 ∧ wm.pointedDigits (0x120 + 1) 4 2)
    ∧ (wm.signLength 0x130 3 = 0 ∧ ¬wm.allDigits 10 (0x130 + 0) 3
      ∧ ∀ p, ¬wm.pointedDigits (0x130 + 0) 3 p) := by
  unfold State.pointedDigits State.allDigits
  refine ⟨by decide +kernel, by decide +kernel, by decide +kernel, by decide +kernel, ?_⟩
  rintro p ⟨hp, hb, -⟩
  revert hb
  interval_cases p <;> decide +kernel

/-- -1.2 takes four characters. -/
theorem witness_DecimalWithScalePrints :
    IsDigitCount (wm.sg 4).natAbs 2 ∧ wm.sg 4 < 0 ∧ bodyLength 2 (wm.scale 4) = 3
    ∧ (3#16).toNat < 1 + 3 ∧ 1 + 3 ≤ (4#16).toNat := by
  unfold IsDigitCount; decide +kernel

theorem witness_CellArithmeticIsTheCommandsFunction :
    0 < 32 ∧ 2 ^ 127 < 2 ^ (32 * 4) ∧ 2 ^ 128 - 1 < 2 ^ (32 * 4) := by decide +kernel

theorem witness_CellShiftsAndScansAreTheCommandsFunction :
    0 < 8 ∧ 2 ^ 127 < 2 ^ (8 * 16) ∧ 7 < 2 ^ 128 := by decide +kernel

end Sys2Proof.Tests
end

section
/-! PROOFS. What a command may write, and what it does when it is rejected (00_scope.md R9). -/

namespace Sys2Proof.Machine

/-! ## A rejected command takes its fault -/

/-- A buffer command checks its window "before anything else it does after decode" (20_memory.md R56). -/
theorem exec_eq_inWindow {i : Instr} {s : State} {a n : Nat} (hw : windowOf s.W i = some (a, n)) :
    ∃ done, exec i s = s.inWindow a n (encode i) done := by
  cases i with
  | ldraw | straw | ldhex | sthex | lddec | stdec | ldsdec | stsdec | lddcm | stdcm =>
    cases hw
    exact ⟨_, rfl⟩
  | _ => cases hw

theorem exec_windowPast {i : Instr} {s : State} {a n : Nat} (hw : windowOf s.W i = some (a, n))
    (hpast : 65536 < a + n) : exec i s = .next (s.takeFault .bufRange (encode i)) := by
  obtain ⟨done, hexec⟩ := exec_eq_inWindow hw
  rw [hexec, inWindow_past s _ _ hpast]

/-- Only MULW and DIV have two destinations (30_encoding.md R79). -/
theorem exec_destConflict {i : Instr} (s : State) (hd : i.destsDiffer = false) :
    exec i s = .next (s.takeFault .destConflict (encode i)) := by
  cases i with
  | mulw rd re | div rd re =>
    have heq : rd = re := by simpa [Instr.destsDiffer] using hd
    exact if_pos heq
  | _ => cases hd

/-- A rejected command takes DEST_CONFLICT or BUF_RANGE for its own word. -/
theorem exec_of_not_accepted {i : Instr} {s : State} (h : ¬Accepted i s) :
    ∃ c : FaultCause, (c = .destConflict ∨ c = .bufRange)
      ∧ exec i s = .next (s.takeFault c (encode i)) := by
  cases hd : i.destsDiffer with
  | false => exact ⟨.destConflict, .inl rfl, exec_destConflict s hd⟩
  | true =>
    have hpast : ∃ an : Nat × Nat, windowOf s.W i = some an ∧ 65536 < an.1 + an.2 := by
      simpa [Accepted, hd] using h
    obtain ⟨⟨a, n⟩, hw, hlt⟩ := hpast
    exact ⟨.bufRange, .inr rfl, exec_windowPast hw hlt⟩

/-! ## An accepted command completes within its "Writes" list -/

/-- The command has a next state, and it differs from the old one in the "Writes" list at most. -/
def CompletesWithinWrites (i : Instr) (s : State) : Prop :=
  ∃ t, exec i s = .next t ∧ Unchanged (writesOf i s) s t

namespace CompletesWithinWrites

variable {i : Instr} {s : State}

/-- A command with a success and a refusal branch. -/
theorem of_ite {c : Prop} [Decidable c] {t u : State}
    (hexec : exec i s = if c then .next t else .next u) (ht : Unchanged (writesOf i s) s t)
    (hu : Unchanged (writesOf i s) s u) : CompletesWithinWrites i s := by
  by_cases hc : c
  · exact ⟨t, by rw [hexec, if_pos hc], ht⟩
  · exact ⟨u, by rw [hexec, if_neg hc], hu⟩

/-- A buffer command whose window lies in BUF. -/
theorem of_inWindow {a n : Nat} {w : CmdWord} {done : State}
    (hexec : exec i s = s.inWindow a n w done) (hfit : a + n ≤ 65536)
    (hdone : Unchanged (writesOf i s) s done) : CompletesWithinWrites i s :=
  ⟨done, by rw [hexec, inWindow_fits s w done hfit], hdone⟩

end CompletesWithinWrites

open CompletesWithinWrites

/-- The commands that do not reach BUF: they write registers and flags. -/
theorem completesWithinWrites_of_untouched {i : Instr} {s : State} (hu : bufUse i = .untouched)
    (hd : i.destsDiffer = true) : CompletesWithinWrites i s := by
  have same := Unchanged.refl (writesOf i s) s
  cases i with
  | zero | one | ldw | mov | add | sub | mul | and | or | xor | not | shl | shr | bset | bclr | neg =>
    exact ⟨_, rfl, same.putV (.head _) _⟩
  | bget | eq | lt | slt | deq | dlt => exact ⟨_, rfl, same.setFlag (.head _) _⟩
  | msb | lzc | sget => exact ⟨_, rfl, same.putRes rfl _⟩
  | mulw rd re =>
    have hne : rd ≠ re := by simpa [Instr.destsDiffer] using hd
    exact ⟨_, if_neg hne, (same.putV (.head _) _).putV (.tail _ (.head _)) _⟩
  | div rd re =>
    have hne : rd ≠ re := by simpa [Instr.destsDiffer] using hd
    exact ⟨_, if_neg hne,
      ((same.putV (.head _) _).putV (.tail _ (.head _)) _).setFlag (.head _) _⟩
  | abs => exact ⟨_, rfl, (same.putV (.head _) _).setFlag (.head _) _⟩
  | sset => exact ⟨_, rfl, same.putS (.head _) _⟩
  | dmov | dmul => exact ⟨_, rfl, (same.putV (.head _) _).putS (.head _) _⟩
  | dadd => exact ⟨_, rfl, same.alignedSum (.head _) (.head _) _ _⟩
  | dsub => exact ⟨_, rfl, same.alignedDiff (.head _) (.head _) _ _⟩
  | dadds =>
    exact of_ite rfl ((same.alignedSum (.head _) (.head _) _ _).setFlag (.head _) _)
      (same.setFlag (.head _) _)
  | dsubs =>
    exact of_ite rfl ((same.alignedDiff (.head _) (.head _) _ _).setFlag (.head _) _)
      (same.setFlag (.head _) _)
  | dmuls =>
    exact of_ite rfl (((same.putV (.head _) _).putS (.head _) _).setFlag (.head _) _)
      (same.setFlag (.head _) _)
  | dprec => exact ⟨_, rfl, same.rescale (.head _) (.head _) (.head _) _ _⟩
  | dprecs rd ra imm =>
    have success := (same.rescale (.head _) (.head _) (.head _) ra imm.toNat).setFlag
      (.tail _ (.head _)) true
    have refused := same.setFlag (f := .ok) (.tail _ (.head _)) false
    by_cases hup : s.scale ra < imm.toNat
    · exact of_ite (if_pos hup) success refused
    · exact ⟨_, if_neg hup, success⟩
  | ddivf | ddivw => exact ⟨_, rfl, same.quotientInto (.head _) (.head _) (.head _) _ _ _ _⟩
  | ddivs rd ra rb imm =>
    have refused := same.setFlag (f := .ok) (.tail _ (.head _)) false
    have success := fun q => (same.quotientInto (.head _) (.head _) (.head _) ra rb imm q).setFlag
      (.tail _ (.head _)) true
    cases hq : checkedQuotient s.W (s.mag ra) (s.mag rb) (s.divDigits rb imm) with
    | none => exact ⟨_, by simp only [exec, execDdivs, hq], refused⟩
    | some q => exact ⟨_, by simp only [exec, execDdivs, hq], success q⟩
  | _ => cases hu

/-- The LD commands: a parse or a raw load into registers and OK. -/
theorem completesWithinWrites_of_reads {i : Instr} {s : State} (hu : bufUse i = .reads)
    (hfit : ∀ an : Nat × Nat, windowOf s.W i = some an → an.1 + an.2 ≤ 65536) :
    CompletesWithinWrites i s := by
  have same := Unchanged.refl (writesOf i s) s
  cases i with
  | ldraw => exact of_inWindow rfl (hfit _ rfl) (same.putV (.head _) _)
  | ldhex | lddec | ldsdec =>
    exact of_inWindow rfl (hfit _ rfl) (same.parsedInto (.head _) (.head _) _)
  | lddcm =>
    exact of_inWindow rfl (hfit _ rfl) (same.parsedDecInto (.head _) (.head _) (.head _) _)
  | _ => cases hu

/-- The ST commands: every byte written lies in the window and in the run of the "Writes" list. -/
theorem completesWithinWrites_of_writes {i : Instr} {s : State} (hu : bufUse i = .writes)
    (hfit : ∀ an : Nat × Nat, windowOf s.W i = some an → an.1 + an.2 ≤ 65536) :
    CompletesWithinWrites i s := by
  have same := Unchanged.refl (writesOf i s) s
  cases i with
  | straw ra addr =>
    have hw := hfit _ rfl
    exact of_inWindow rfl hw
      (same.putBytes le_rfl (by simp [writesOf]) (by simpa [bufSize] using hw))
  | sthex ra addr cap =>
    have hw : addr.toNat + cap.toNat ≤ 65536 := hfit _ rfl
    refine of_inWindow rfl hw ?_
    split
    · exact same.exported rfl (.head _) _
    · next hcap =>
      have htext : addr.toNat + (hexChars (s.u ra) (msbW (s.u ra) / 4 + 1)).length ≤ bufSize := by
        rw [hexChars_length, bufSize]
        omega
      exact (same.putBytes le_rfl (by simp [writesOf]) htext).exported rfl (.head _) _
  | stdec | stsdec | stdcm =>
    have hw := hfit _ rfl
    exact of_inWindow rfl hw
      (same.exportText rfl (.head _) le_rfl le_rfl hw (.inl (by simp)))
  | _ => cases hu

theorem Accepted.completesWithinWrites {i : Instr} {s : State} (h : Accepted i s) :
    CompletesWithinWrites i s := by
  obtain ⟨hd, hfit⟩ := h
  cases hu : bufUse i with
  | untouched => exact completesWithinWrites_of_untouched hu hd
  | reads => exact completesWithinWrites_of_reads hu hfit
  | writes => exact completesWithinWrites_of_writes hu hfit

/-- Settles O17: an accepted command completes within its "Writes" list, by how it uses BUF; a rejected
one takes its fault. -/
theorem commandsWriteOnlyTheirWritesList : Obligations.CommandsWriteOnlyTheirWritesList := by
  intro i s
  refine ⟨Accepted.completesWithinWrites, fun h => ?_⟩
  obtain ⟨c, hc, hexec⟩ := exec_of_not_accepted h
  refine ⟨_, c.code, ?_, hexec, takeFault_faulted s c (encode i)⟩
  rcases hc with rfl | rfl
  · exact .inl rfl
  · exact .inr rfl

end Sys2Proof.Machine
end

section
/-! PROOFS. The flags: who writes them, and that no command reads one (10_state.md R25 to R27). -/

namespace Sys2Proof.Machine

/-! ## Two states that differ in STATUS only -/

/-- The state with another STATUS word. -/
def State.withStatus (s : State) (st : BitVec 32) : State := { s with status := st }

@[simp] theorem State.withStatus_flag (s : State) (st : BitVec 32) (f : Flag) :
    (s.withStatus st).flag f = st.getLsbD f.bit := rfl

/-- The states differ in STATUS at most, and have the same values of the listed flags. -/
def SameButStatus (flags : List Flag) (t t' : State) : Prop :=
  (∃ st, t' = t.withStatus st) ∧ ∀ f ∈ flags, t'.flag f = t.flag f

namespace SameButStatus

variable {flags : List Flag} {t t' : State}

theorem withStatus (s : State) (st : BitVec 32) : SameButStatus [] s (s.withStatus st) :=
  ⟨⟨st, rfl⟩, fun _ hf => nomatch hf⟩

/-- An operation that neither reads nor writes STATUS, done on both. -/
theorem map (h : SameButStatus flags t t') (op : State → State)
    (hcomm : ∀ s st, op (s.withStatus st) = (op s).withStatus st)
    (hkeeps : ∀ s f, (op s).flag f = s.flag f) : SameButStatus flags (op t) (op t') := by
  obtain ⟨⟨st, rfl⟩, hflags⟩ := h
  refine ⟨⟨st, hcomm t st⟩, fun f hf => ?_⟩
  rw [hkeeps, hkeeps, hflags f hf]

theorem putV (h : SameButStatus flags t t') (r : Reg) (x : Nat) :
    SameButStatus flags (t.putV r x) (t'.putV r x) :=
  h.map (·.putV r x) (fun _ _ => rfl) (fun _ _ => rfl)

theorem putS (h : SameButStatus flags t t') (r : Reg) (n : Nat) :
    SameButStatus flags (t.putS r n) (t'.putS r n) :=
  h.map (·.putS r n) (fun _ _ => rfl) (fun _ _ => rfl)

theorem putRes (h : SameButStatus flags t t') (n : Nat) :
    SameButStatus flags (t.putRes n) (t'.putRes n) :=
  h.map (·.putRes n) (fun _ _ => rfl) (fun _ _ => rfl)

theorem putBytes (h : SameButStatus flags t t') (addr : Nat) (bytes : List Byte) :
    SameButStatus flags (t.putBytes addr bytes) (t'.putBytes addr bytes) :=
  h.map (·.putBytes addr bytes) (fun _ _ => rfl) (fun _ _ => rfl)

theorem putUnspecified (h : SameButStatus flags t t') (addr n : Nat) :
    SameButStatus flags (t.putUnspecified addr n) (t'.putUnspecified addr n) :=
  h.map (·.putUnspecified addr n) (fun _ _ => rfl) (fun _ _ => rfl)

/-- Writing one value to a flag makes the states agree on that flag too. -/
theorem setFlag (h : SameButStatus flags t t') (f : Flag) (b : Bool) :
    SameButStatus (f :: flags) (t.setFlag f b) (t'.setFlag f b) := by
  obtain ⟨⟨st, rfl⟩, hflags⟩ := h
  refine ⟨⟨statusWith st f b, rfl⟩, fun g hg => ?_⟩
  rw [State.flag_setFlag, State.flag_setFlag]
  split
  · rfl
  · next hne => exact hflags g ((List.mem_cons.mp hg).resolve_left hne)

/-- A branch on a condition on which STATUS has no influence. -/
theorem ite {c : Prop} [Decidable c] {u u' : State} (ht : SameButStatus flags t t')
    (hu : SameButStatus flags u u') :
    SameButStatus flags (if c then t else u) (if c then t' else u') := by
  split
  · exact ht
  · exact hu

theorem exported (h : SameButStatus flags t t') (n : Nat) :
    SameButStatus (.ok :: flags) (t.exported n) (t'.exported n) := (h.putRes n).setFlag _ _

theorem exportText (h : SameButStatus flags t t') (addr cap total : Nat) (text : List Byte) :
    SameButStatus (.ok :: flags) (t.exportText addr cap total text)
      (t'.exportText addr cap total text) :=
  ite ((h.putUnspecified _ _).exported _) (((h.putBytes _ _).putUnspecified _ _).exported _)

theorem parsedInto (h : SameButStatus flags t t') (rd : Reg) (x : Option Nat) :
    SameButStatus (.ok :: flags) (t.parsedInto rd x) (t'.parsedInto rd x) := by
  cases x with
  | none => exact h.setFlag _ _
  | some x => exact (h.putV _ _).setFlag _ _

theorem parsedDecInto (h : SameButStatus flags t t') (rd : Reg) (xs : Option (Nat × Nat)) :
    SameButStatus (.ok :: flags) (t.parsedDecInto rd xs) (t'.parsedDecInto rd xs) := by
  cases xs with
  | none => exact h.setFlag _ _
  | some xs => exact ((h.putV _ _).putS _ _).setFlag _ _

theorem rescale (h : SameButStatus flags t t') (rd ra : Reg) (n : Nat) :
    SameButStatus (.inx :: flags) (t.rescale rd ra n) (t'.rescale rd ra n) := by
  have scaled := fun x => ((h.putV rd x).putS rd n).setFlag .inx
  obtain ⟨st, rfl⟩ := h.1
  exact ite (scaled _ _) (ite (scaled _ _) (scaled _ _))

theorem alignedSum (h : SameButStatus flags t t') (rd ra rb : Reg) :
    SameButStatus flags (t.alignedSum rd ra rb) (t'.alignedSum rd ra rb) :=
  h.map (·.alignedSum rd ra rb) (fun _ _ => rfl) (fun _ _ => rfl)

theorem alignedDiff (h : SameButStatus flags t t') (rd ra rb : Reg) :
    SameButStatus flags (t.alignedDiff rd ra rb) (t'.alignedDiff rd ra rb) :=
  h.map (·.alignedDiff rd ra rb) (fun _ _ => rfl) (fun _ _ => rfl)

theorem quotientInto (h : SameButStatus flags t t') (rd ra rb : Reg) (imm : Imm) (q : Nat) :
    SameButStatus (.dz :: flags) (t.quotientInto rd ra rb imm q) (t'.quotientInto rd ra rb imm q) := by
  obtain ⟨st, rfl⟩ := h.1
  exact ((h.putV _ _).putS _ _).setFlag _ _

end SameButStatus

/-! ## Two runs of a command -/

/-- Both runs complete, and end alike but for STATUS, with the same values of the command's flags. -/
def RunsAgree (i : Instr) (s s' : State) : Prop :=
  ∃ t t', exec i s = .next t ∧ exec i s' = .next t' ∧ SameButStatus (flagsOf i) t t'

/-- Both runs complete with OK = 1, and agree. -/
def RunsSucceed (i : Instr) (s s' : State) : Prop :=
  ∃ t t' : State, exec i s = .next (t.setFlag .ok true) ∧ exec i s' = .next (t'.setFlag .ok true)
    ∧ SameButStatus (flagsOf i) (t.setFlag .ok true) (t'.setFlag .ok true)

/-- Both runs write OK = 0 and nothing else. -/
def RunsRefuse (i : Instr) (s s' : State) : Prop :=
  exec i s = .next (s.setFlag .ok false) ∧ exec i s' = .next (s'.setFlag .ok false)

theorem RunsSucceed.agree {i : Instr} {s s' : State} (h : RunsSucceed i s s') : RunsAgree i s s' := by
  obtain ⟨t, t', hexec, hexec', same⟩ := h
  exact ⟨_, _, hexec, hexec', same⟩

/-- A buffer command whose window lies in BUF. -/
theorem RunsAgree.of_inWindow {i : Instr} {s s' done done' : State} {a n : Nat} {w : CmdWord}
    (hexec : exec i s = s.inWindow a n w done) (hexec' : exec i s' = s'.inWindow a n w done')
    (hfit : a + n ≤ 65536) (same : SameButStatus (flagsOf i) done done') : RunsAgree i s s' :=
  ⟨done, done', by rw [hexec, inWindow_fits s w done hfit],
    by rw [hexec', inWindow_fits s' w done' hfit], same⟩

/-- A command that tests one condition, on which STATUS has no influence, and succeeds or refuses. -/
theorem succeed_or_refuse_of_ite {i : Instr} {s s' t t' : State} {c : Prop} [Decidable c]
    (hexec : exec i s = if c then .next (t.setFlag .ok true) else .next (s.setFlag .ok false))
    (hexec' : exec i s' = if c then .next (t'.setFlag .ok true) else .next (s'.setFlag .ok false))
    (same : SameButStatus (flagsOf i) (t.setFlag .ok true) (t'.setFlag .ok true)) :
    RunsSucceed i s s' ∨ RunsRefuse i s s' := by
  by_cases hc : c
  · exact .inl ⟨t, t', by rw [hexec, if_pos hc], by rw [hexec', if_pos hc], same⟩
  · exact .inr ⟨by rw [hexec, if_neg hc], by rw [hexec', if_neg hc]⟩

theorem exec_ddivs_none {s : State} {rd ra rb : Reg} {imm : Imm}
    (hq : checkedQuotient s.W (s.mag ra) (s.mag rb) (s.divDigits rb imm) = none) :
    exec (.ddivs rd ra rb imm) s = .next (s.setFlag .ok false) := by
  simp only [exec, execDdivs, hq]

theorem exec_ddivs_some {s : State} {rd ra rb : Reg} {imm : Imm} {q : Nat}
    (hq : checkedQuotient s.W (s.mag ra) (s.mag rb) (s.divDigits rb imm) = some q) :
    exec (.ddivs rd ra rb imm) s = .next ((s.quotientInto rd ra rb imm q).setFlag .ok true) := by
  simp only [exec, execDdivs, hq]

/-- The checked commands succeed with OK = 1 or write OK alone (10_state.md R26). -/
theorem checked_succeed_or_refuse {i : Instr} (hm : mayRefuse i = true) (s : State) (st : BitVec 32) :
    RunsSucceed i s (s.withStatus st) ∨ RunsRefuse i s (s.withStatus st) := by
  have same := SameButStatus.withStatus s st
  cases i with
  | dadds rd ra rb =>
    exact succeed_or_refuse_of_ite rfl rfl ((same.alignedSum rd ra rb).setFlag _ _)
  | dsubs rd ra rb =>
    exact succeed_or_refuse_of_ite rfl rfl ((same.alignedDiff rd ra rb).setFlag _ _)
  | dmuls => exact succeed_or_refuse_of_ite rfl rfl (((same.putV _ _).putS _ _).setFlag _ _)
  | dprecs rd ra imm =>
    have rescaled := (same.rescale rd ra imm.toNat).setFlag .ok true
    by_cases hup : s.scale ra < imm.toNat
    · exact succeed_or_refuse_of_ite (if_pos hup) (if_pos hup) rescaled
    · exact .inl ⟨_, _, if_neg hup, if_neg hup, rescaled⟩
  | ddivs rd ra rb imm =>
    cases hq : checkedQuotient s.W (s.mag ra) (s.mag rb) (s.divDigits rb imm) with
    | none => exact .inr ⟨exec_ddivs_none hq, exec_ddivs_none hq⟩
    | some q =>
      exact .inl ⟨_, _, exec_ddivs_some hq, exec_ddivs_some hq,
        (same.quotientInto rd ra rb imm q).setFlag .ok true⟩
  | _ => cases hm

/-- The other commands that do not reach BUF: each writes its flags every time. -/
theorem runsAgree_of_untouched {i : Instr} {s : State} (hu : bufUse i = .untouched)
    (hm : mayRefuse i = false) (hd : i.destsDiffer = true) (st : BitVec 32) :
    RunsAgree i s (s.withStatus st) := by
  have same := SameButStatus.withStatus s st
  cases i with
  | zero | one | ldw | mov | add | sub | mul | and | or | xor | not | shl | shr | bset | bclr | neg =>
    exact ⟨_, _, rfl, rfl, same.putV _ _⟩
  | bget | eq | lt | slt | deq | dlt => exact ⟨_, _, rfl, rfl, same.setFlag _ _⟩
  | msb | lzc | sget => exact ⟨_, _, rfl, rfl, same.putRes _⟩
  | mulw rd re =>
    have hne : rd ≠ re := by simpa [Instr.destsDiffer] using hd
    exact ⟨_, _, if_neg hne, if_neg hne, (same.putV _ _).putV _ _⟩
  | div rd re =>
    have hne : rd ≠ re := by simpa [Instr.destsDiffer] using hd
    exact ⟨_, _, if_neg hne, if_neg hne, ((same.putV _ _).putV _ _).setFlag _ _⟩
  | abs => exact ⟨_, _, rfl, rfl, (same.putV _ _).setFlag _ _⟩
  | sset => exact ⟨_, _, rfl, rfl, same.putS _ _⟩
  | dmov | dmul => exact ⟨_, _, rfl, rfl, (same.putV _ _).putS _ _⟩
  | dadd => exact ⟨_, _, rfl, rfl, same.alignedSum _ _ _⟩
  | dsub => exact ⟨_, _, rfl, rfl, same.alignedDiff _ _ _⟩
  | dprec => exact ⟨_, _, rfl, rfl, same.rescale _ _ _⟩
  | ddivf | ddivw => exact ⟨_, _, rfl, rfl, same.quotientInto _ _ _ _ _⟩
  | dadds | dsubs | dmuls | dprecs | ddivs => cases hm
  | _ => cases hu

/-- The buffer commands: a raw move, which writes no flag, or a parse or an export, which write OK. -/
theorem runsAgree_of_window {i : Instr} {s : State} (hu : bufUse i ≠ .untouched)
    (hfit : ∀ an : Nat × Nat, windowOf s.W i = some an → an.1 + an.2 ≤ 65536) (st : BitVec 32) :
    RunsAgree i s (s.withStatus st) := by
  have same := SameButStatus.withStatus s st
  cases i with
  | ldraw => exact .of_inWindow rfl rfl (hfit _ rfl) (same.putV _ _)
  | straw => exact .of_inWindow rfl rfl (hfit _ rfl) (same.putBytes _ _)
  | ldhex | lddec | ldsdec => exact .of_inWindow rfl rfl (hfit _ rfl) (same.parsedInto _ _)
  | lddcm => exact .of_inWindow rfl rfl (hfit _ rfl) (same.parsedDecInto _ _)
  | stdec | stsdec | stdcm => exact .of_inWindow rfl rfl (hfit _ rfl) (same.exportText _ _ _ _)
  | sthex ra addr cap =>
    exact .of_inWindow rfl rfl (hfit _ rfl)
      (.ite (same.exported _) ((same.putBytes _ _).exported _))
  | _ => exact absurd rfl hu

/-- An accepted command's two runs agree, but where a checked command refuses. -/
theorem Accepted.runsAgree_or_runsRefuse {i : Instr} {s : State} (h : Accepted i s) (st : BitVec 32) :
    RunsAgree i s (s.withStatus st) ∨ (mayRefuse i = true ∧ RunsRefuse i s (s.withStatus st)) := by
  obtain ⟨hd, hfit⟩ := h
  by_cases hu : bufUse i = .untouched
  · cases hm : mayRefuse i with
    | true => exact (checked_succeed_or_refuse hm s st).imp RunsSucceed.agree (.intro rfl)
    | false => exact .inl (runsAgree_of_untouched hu hm hd st)
  · exact .inl (runsAgree_of_window hu hfit st)

/-! ## A command that ends with OK = 0 writes no register (10_state.md R27) -/

theorem parsedInto_registers_of_not_ok {s : State} {rd : Reg} {x : Option Nat}
    (h : (s.parsedInto rd x).flag .ok = false) :
    (s.parsedInto rd x).v = s.v ∧ (s.parsedInto rd x).sc = s.sc := by
  cases x with
  | none => exact ⟨rfl, rfl⟩
  | some x => simp [State.parsedInto] at h

theorem parsedDecInto_registers_of_not_ok {s : State} {rd : Reg} {xs : Option (Nat × Nat)}
    (h : (s.parsedDecInto rd xs).flag .ok = false) :
    (s.parsedDecInto rd xs).v = s.v ∧ (s.parsedDecInto rd xs).sc = s.sc := by
  cases xs with
  | none => exact ⟨rfl, rfl⟩
  | some xs => simp [State.parsedDecInto] at h

theorem exportText_registers (s : State) (addr cap total : Nat) (text : List Byte) :
    (s.exportText addr cap total text).v = s.v ∧ (s.exportText addr cap total text).sc = s.sc := by
  unfold State.exportText
  split
  · exact ⟨rfl, rfl⟩
  · exact ⟨rfl, rfl⟩

theorem checked_registers_of_not_ok {i : Instr} {s t : State} (hm : mayRefuse i = true)
    (hexec : exec i s = .next t) (hok : t.flag .ok = false) : t.v = s.v ∧ t.sc = s.sc := by
  rcases checked_succeed_or_refuse hm s s.status with ⟨u, -, hsucc, -, -⟩ | ⟨hrefuse, -⟩
  · cases hexec.symm.trans hsucc
    simp at hok
  · cases hexec.symm.trans hrefuse
    exact ⟨rfl, rfl⟩

theorem registers_of_not_ok {i : Instr} {s t : State} (hmem : Flag.ok ∈ flagsOf i)
    (hexec : exec i s = .next t) (hok : t.flag .ok = false) : t.v = s.v ∧ t.sc = s.sc := by
  cases i with
  | dprecs | dadds | dsubs | dmuls | ddivs => exact checked_registers_of_not_ok rfl hexec hok
  | ldhex | lddec | ldsdec =>
    rcases inWindow_next hexec with ⟨-, rfl⟩ | ⟨-, rfl⟩
    · exact parsedInto_registers_of_not_ok hok
    · exact ⟨rfl, rfl⟩
  | lddcm =>
    rcases inWindow_next hexec with ⟨-, rfl⟩ | ⟨-, rfl⟩
    · exact parsedDecInto_registers_of_not_ok hok
    · exact ⟨rfl, rfl⟩
  | stdec | stsdec | stdcm =>
    rcases inWindow_next hexec with ⟨-, rfl⟩ | ⟨-, rfl⟩
    · exact exportText_registers s _ _ _ _
    · exact ⟨rfl, rfl⟩
  | sthex =>
    rcases inWindow_next hexec with ⟨-, rfl⟩ | ⟨-, rfl⟩
    · split
      · exact ⟨rfl, rfl⟩
      · exact ⟨rfl, rfl⟩
    · exact ⟨rfl, rfl⟩
  | _ => simp [flagsOf] at hmem

/-! ## The statement -/

/-- The column "written by" of 10_state.md R25 lists the flags of the "Writes" lists. -/
theorem mem_flagsOf_of_mem_writesOf {i : Instr} {s : State} {f : Flag}
    (h : f ∈ (writesOf i s).flags) : f ∈ flagsOf i := by
  cases i with
  | dprecs | ddivs => exact (List.Perm.swap _ _ _).mem_iff.mp h
  | _ => exact h

theorem Accepted.flag_unlisted {i : Instr} {s t : State} (h : Accepted i s)
    (hexec : exec i s = .next t) {f : Flag} (hf : f ∉ flagsOf i) : t.flag f = s.flag f := by
  obtain ⟨u, hu, -, -, -, -, -, -, -, hflags, -⟩ := h.completesWithinWrites
  cases hexec.symm.trans hu
  exact hflags f (mt mem_flagsOf_of_mem_writesOf hf)

/-- Settles O18: by what the two runs do; the unlisted flags keep their value by O17's frame. -/
theorem flagsAreWrittenByTheirCommandsOnly : Obligations.FlagsAreWrittenByTheirCommandsOnly := by
  intro i s t t' st hacc hexec hexec'
  refine ⟨fun f hf => hacc.flag_unlisted hexec hf, ?_⟩
  rcases hacc.runsAgree_or_runsRefuse st with ⟨u, u', hu, hu', same⟩ | ⟨hm, hu, hu'⟩
  · cases hexec.symm.trans hu
    cases hexec'.symm.trans hu'
    obtain ⟨⟨st', rfl⟩, hflags⟩ := same
    exact ⟨fun f hf => .inl (hflags f hf), fun hmem => registers_of_not_ok hmem hexec,
      rfl, rfl, rfl, rfl, rfl, rfl⟩
  · cases hexec.symm.trans hu
    cases hexec'.symm.trans hu'
    refine ⟨fun f hf => ?_, fun _ _ => ⟨rfl, rfl⟩, rfl, rfl, rfl, rfl, rfl, rfl⟩
    by_cases hok : f = .ok
    · exact .inl (by simp [hok])
    · exact .inr ⟨hm, hok, by simp, by simp, by simp [hok], by simp [hok]⟩

end Sys2Proof.Machine
end

section
/-! PROOFS. The reset values the spec gives (10_state.md R39). -/

namespace Sys2Proof.Machine

/-- Settles O13: the spec's values stand in resetWith, and the reset state is the default instance's. -/
theorem resetStateHoldsTheSpecValues : Obligations.ResetStateHoldsTheSpecValues := by
  intro p
  have notHalted : (State.resetWith p).halted = false := by
    simp [State.halted, State.resetWith]
  exact ⟨rfl, rfl, rfl, notHalted, rfl, rfl, Params.defaultFor .w128, rfl⟩

end Sys2Proof.Machine
end

section
/-! PROOFS. BUF: the window check of the buffer commands (20_memory.md R56), and which commands reach
BUF, and how (R50). -/

namespace Sys2Proof.Machine

/-! ## The window check -/

/-- A window begins inside BUF: its address has 16 bits (30_encoding.md R74). -/
theorem windowOf_addr_lt {W a n : Nat} {i : Instr} (hw : windowOf W i = some (a, n)) : a < 65536 := by
  cases i with
  | ldraw rd addr | straw rd addr | ldhex rd addr | sthex rd addr | lddec rd addr | stdec rd addr
  | ldsdec rd addr | stsdec rd addr | lddcm rd addr | stdcm rd addr =>
    cases hw
    exact addr.isLt
  | _ => cases hw

/-- From s to t neither FAULT nor FCMD changed, and no byte of BUF outside the window. -/
def ChangesInWindowOnly (a n : Nat) (s t : State) : Prop :=
  t.fault = s.fault ∧ t.fcmd = s.fcmd ∧ ∀ b : Nat, ¬(a ≤ b ∧ b < a + n) → t.bufByte b = s.bufByte b

/-- A "Writes" list whose run of BUF bytes is empty or lies in the window. -/
theorem Unchanged.changesInWindowOnly {w : Writes} {s t : State} {a n : Nat} (h : Unchanged w s t)
    (hrun : w.bufLen = 0 ∨ (a ≤ w.bufAddr ∧ w.bufAddr + w.bufLen ≤ a + n)) :
    ChangesInWindowOnly a n s t := by
  obtain ⟨-, hfault, hfcmd, -, -, -, -, -, -, -, hbuf⟩ := h
  exact ⟨hfault, hfcmd, fun b hb => hbuf b (by omega)⟩

/-- STHEX writes its digits if they fit the window, and otherwise RES and OK alone. -/
theorem execSthex_changesInWindowOnly (ra : Reg) (addr cap : Half) (s : State)
    (hfit : addr.toNat + cap.toNat ≤ 65536) :
    ∃ t, execSthex ra addr cap s = .next t ∧ ChangesInWindowOnly addr.toNat cap.toNat s t := by
  have same := Unchanged.refl
    { flags := [.ok], res := true, bufAddr := addr.toNat, bufLen := cap.toNat } s
  refine ⟨_, inWindow_fits s _ _ hfit, ?_⟩
  split
  · exact (same.exported rfl (.head _) 0).changesInWindowOnly (.inr ⟨le_rfl, le_rfl⟩)
  · next hcap =>
    have htext : addr.toNat + (hexChars (s.u ra) (msbW (s.u ra) / 4 + 1)).length
        ≤ addr.toNat + cap.toNat := by
      rw [hexChars_length]
      omega
    exact ((same.putBytes le_rfl htext (htext.trans hfit)).exported rfl (.head _)
      _).changesInWindowOnly (.inr ⟨le_rfl, le_rfl⟩)

/-- A buffer command whose window lies in BUF does not fault and changes no byte outside it. -/
theorem exec_windowFits {i : Instr} {s : State} {a n : Nat} (hw : windowOf s.W i = some (a, n))
    (hfit : a + n ≤ 65536) : ∃ t, exec i s = .next t ∧ ChangesInWindowOnly a n s t := by
  have within (hd : i.destsDiffer = true) : CompletesWithinWrites i s :=
    Accepted.completesWithinWrites ⟨hd, fun _ h => by cases hw.symm.trans h; exact hfit⟩
  cases i with
  | ldraw | ldhex | lddec | ldsdec | lddcm =>
    obtain ⟨t, hexec, hsame⟩ := within rfl
    exact ⟨t, hexec, hsame.changesInWindowOnly (.inl rfl)⟩
  | straw | stdec | stsdec | stdcm =>
    obtain ⟨t, hexec, hsame⟩ := within rfl
    cases hw
    exact ⟨t, hexec, hsame.changesInWindowOnly (.inr ⟨le_rfl, le_rfl⟩)⟩
  | sthex ra addr cap =>
    cases hw
    exact execSthex_changesInWindowOnly ra addr cap s hfit
  | _ => cases hw

/-- Settles O21: BUF_RANGE past the end, the window's frame otherwise; an empty window always lies in
BUF. -/
theorem windowsPastTheEndFault : Obligations.WindowsPastTheEndFault := by
  intro i s a n hw
  refine ⟨fun hpast => ⟨_, exec_windowPast hw hpast, takeFault_faulted s .bufRange _⟩,
    fun hfit => exec_windowFits hw hfit, ?_⟩
  rintro rfl
  obtain ⟨t, hexec, hfault, hfcmd, hbuf⟩ := exec_windowFits hw (windowOf_addr_lt hw).le
  exact ⟨t, hexec, hfault, hfcmd, fun b => hbuf b (by omega)⟩

/-! ## Two states that differ in BUF only -/

/-- The state with other contents of BUF. -/
def State.withBuf (s : State) (m : Memory) (e : Nat) : State := { s with buf := m, bufEpoch := e }

section
variable (s : State) (m : Memory) (e : Nat)

@[simp] theorem State.withBuf_W : (s.withBuf m e).W = s.W := rfl
@[simp] theorem State.withBuf_u (r : Reg) : (s.withBuf m e).u r = s.u r := rfl
@[simp] theorem State.withBuf_scale (r : Reg) : (s.withBuf m e).scale r = s.scale r := rfl

theorem State.rescale_withBuf (rd ra : Reg) (n : Nat) :
    (s.withBuf m e).rescale rd ra n = (s.rescale rd ra n).withBuf m e := by
  simp only [State.rescale, State.withBuf_scale, apply_ite (State.withBuf · m e)]
  rfl

theorem State.parsedInto_withBuf (rd : Reg) (x : Option Nat) :
    (s.withBuf m e).parsedInto rd x = (s.parsedInto rd x).withBuf m e := by
  cases x with
  | none => rfl
  | some x => rfl

theorem State.parsedDecInto_withBuf (rd : Reg) (xs : Option (Nat × Nat)) :
    (s.withBuf m e).parsedDecInto rd xs = (s.parsedDecInto rd xs).withBuf m e := by
  cases xs with
  | none => rfl
  | some xs => rfl

end

/-- BUF and the meaning of its unlisted bytes are the same. -/
def SameBuf (s t : State) : Prop := t.buf = s.buf ∧ t.bufEpoch = s.bufEpoch

theorem sameBuf_rescale (s : State) (rd ra : Reg) (n : Nat) : SameBuf s (s.rescale rd ra n) := by
  obtain ⟨x, b, heq⟩ := rescale_eq s rd ra n
  rw [heq]
  exact ⟨rfl, rfl⟩

theorem sameBuf_parsedInto (s : State) (rd : Reg) (x : Option Nat) :
    SameBuf s (s.parsedInto rd x) := by
  cases x with
  | none => exact ⟨rfl, rfl⟩
  | some x => exact ⟨rfl, rfl⟩

theorem sameBuf_parsedDecInto (s : State) (rd : Reg) (xs : Option (Nat × Nat)) :
    SameBuf s (s.parsedDecInto rd xs) := by
  cases xs with
  | none => exact ⟨rfl, rfl⟩
  | some xs => exact ⟨rfl, rfl⟩

/-! ## The commands that write no byte -/

/-- The command leaves BUF alone, and does the same with the other contents of BUF. -/
def IgnoresBuf (i : Instr) (s : State) (m : Memory) (e : Nat) : Prop :=
  ∃ t, exec i s = .next t ∧ exec i (s.withBuf m e) = .next (t.withBuf m e) ∧ SameBuf s t

namespace IgnoresBuf

variable {i : Instr} {s : State} {m : Memory} {e : Nat}

theorem outcome {t t' : State} (h : IgnoresBuf i s m e) (hexec : exec i s = .next t)
    (hexec' : exec i (s.withBuf m e) = .next t') : SameBuf s t ∧ t' = t.withBuf m e := by
  obtain ⟨u, hu, hu', same⟩ := h
  cases hexec.symm.trans hu
  cases hexec'.symm.trans hu'
  exact ⟨same, rfl⟩

/-- A command that tests one condition, on which BUF has no influence. -/
theorem of_ite {c : Prop} [Decidable c] {t u : State}
    (hexec : exec i s = if c then .next t else .next u)
    (hexec' : exec i (s.withBuf m e) = if c then .next (t.withBuf m e) else .next (u.withBuf m e))
    (ht : SameBuf s t) (hu : SameBuf s u) : IgnoresBuf i s m e := by
  by_cases hc : c
  · exact ⟨t, by rw [hexec, if_pos hc], by rw [hexec', if_pos hc], ht⟩
  · exact ⟨u, by rw [hexec, if_neg hc], by rw [hexec', if_neg hc], hu⟩

/-- A buffer command that loads the same from both contents of BUF. -/
theorem of_inWindow {a n : Nat} {w : CmdWord} {done done' : State}
    (hexec : exec i s = s.inWindow a n w done)
    (hexec' : exec i (s.withBuf m e) = (s.withBuf m e).inWindow a n w done')
    (hdone : done' = done.withBuf m e) (same : SameBuf s done) : IgnoresBuf i s m e := by
  subst hdone
  exact of_ite hexec hexec' same ⟨rfl, rfl⟩

end IgnoresBuf

open IgnoresBuf

/-- The commands that are no buffer commands: every value they use comes from V, S and the parameters. -/
theorem ignoresBuf_of_untouched {i : Instr} (hu : bufUse i = .untouched) (s : State) (m : Memory)
    (e : Nat) : IgnoresBuf i s m e := by
  cases i with
  | zero | one | ldw | mov | add | sub | mul | and | or | xor | not | shl | shr | bset | bclr | neg
  | bget | eq | lt | slt | deq | dlt | msb | lzc | sget | abs | sset | dmov | dadd | dsub | dmul
  | ddivf | ddivw => exact ⟨_, rfl, rfl, rfl, rfl⟩
  | mulw | div | dadds | dsubs | dmuls => exact of_ite rfl rfl ⟨rfl, rfl⟩ ⟨rfl, rfl⟩
  | dprec rd ra imm =>
    exact ⟨_, rfl, congrArg _ (s.rescale_withBuf m e rd ra _), sameBuf_rescale s rd ra _⟩
  | dprecs rd ra imm =>
    have hcomm := congrArg (·.setFlag .ok true) (s.rescale_withBuf m e rd ra imm.toNat)
    have same : SameBuf s ((s.rescale rd ra imm.toNat).setFlag .ok true) :=
      sameBuf_rescale s rd ra imm.toNat
    by_cases hup : s.scale ra < imm.toNat
    · refine of_ite (if_pos hup) ((if_pos hup).trans ?_) same ⟨rfl, rfl⟩
      rw [hcomm]
      rfl
    · exact ⟨_, if_neg hup, (if_neg hup).trans (congrArg _ hcomm), same⟩
  | ddivs rd ra rb imm =>
    cases hq : checkedQuotient s.W (s.mag ra) (s.mag rb) (s.divDigits rb imm) with
    | none => exact ⟨_, exec_ddivs_none hq, exec_ddivs_none hq, rfl, rfl⟩
    | some q => exact ⟨_, exec_ddivs_some hq, exec_ddivs_some hq, rfl, rfl⟩
  | _ => cases hu

/-- The LD commands: of BUF they read the window alone, as one list of bytes. -/
theorem ignoresBuf_of_reads {i : Instr} {s : State} {m : Memory} {e : Nat} (hu : bufUse i = .reads)
    (hwin : ∀ an : Nat × Nat, windowOf s.W i = some an →
      (s.withBuf m e).window an.1 an.2 = s.window an.1 an.2) : IgnoresBuf i s m e := by
  cases i with
  | ldraw rd addr =>
    have hbytes : (s.withBuf m e).window addr.toNat (s.W / 8) = s.window addr.toNat (s.W / 8) :=
      hwin _ rfl
    refine of_inWindow rfl rfl ?_ ⟨rfl, rfl⟩
    rw [State.withBuf_W, hbytes]
    rfl
  | ldhex rd addr len | lddec rd addr len | ldsdec rd addr len =>
    have hbytes := hwin _ rfl
    refine of_inWindow rfl rfl ?_ (sameBuf_parsedInto s rd _)
    rw [hbytes]
    exact s.parsedInto_withBuf m e rd _
  | lddcm rd addr len =>
    have hbytes := hwin _ rfl
    refine of_inWindow rfl rfl ?_ (sameBuf_parsedDecInto s rd _)
    rw [hbytes]
    exact s.parsedDecInto_withBuf m e rd _
  | _ => cases hu

/-- Equal bytes make equal windows. -/
theorem State.window_congr {s s' : State} {a n : Nat}
    (h : ∀ b, a ≤ b → b < a + n → s'.bufByte b = s.bufByte b) : s'.window a n = s.window a n :=
  List.map_congr_left fun j hj =>
    h (a + j) (Nat.le_add_right a j) (Nat.add_lt_add_left (List.mem_range.mp hj) a)

/-! ## The commands that write bytes -/

/-- Two runs, from s to t and from s' to t', that differ in BUF only, where each byte was written in
both, with one value, or in neither. -/
def StoresAlike (s s' t t' : State) : Prop :=
  (∃ m e, t' = t.withBuf m e)
    ∧ ∀ b, t'.bufByte b = t.bufByte b ∨ (t.bufByte b = s.bufByte b ∧ t'.bufByte b = s'.bufByte b)

namespace StoresAlike

variable {s s' t t' : State}

theorem withBuf (s : State) (m : Memory) (e : Nat) :
    StoresAlike s (s.withBuf m e) s (s.withBuf m e) := ⟨⟨m, e, rfl⟩, fun _ => .inr ⟨rfl, rfl⟩⟩

theorem putBytes (h : StoresAlike s s' t t') {addr : Nat} {bytes : List Byte}
    (hfit : addr + bytes.length ≤ bufSize) :
    StoresAlike s s' (t.putBytes addr bytes) (t'.putBytes addr bytes) := by
  obtain ⟨⟨m, e, rfl⟩, hbytes⟩ := h
  refine ⟨⟨Memory.putList m addr bytes, e, rfl⟩, fun b => ?_⟩
  rw [State.bufByte_putBytes _ _ _ _ hfit, State.bufByte_putBytes _ _ _ _ hfit]
  split
  · exact .inl rfl
  · exact hbytes b

/-- Unspecified bytes are those of the same event in both runs. -/
theorem putUnspecified (h : StoresAlike s s' t t') {addr n : Nat} (hfit : addr + n ≤ bufSize) :
    StoresAlike s s' (t.putUnspecified addr n) (t'.putUnspecified addr n) := by
  have written := h.putBytes (addr := addr) (bytes := freeBytes t.fresh addr n)
    (by rwa [freeBytes_length])
  obtain ⟨m, e, rfl⟩ := h.1
  exact ⟨⟨_, _, rfl⟩, written.2⟩

theorem exported (h : StoresAlike s s' t t') (n : Nat) :
    StoresAlike s s' (t.exported n) (t'.exported n) := by
  obtain ⟨⟨m, e, rfl⟩, hbytes⟩ := h
  exact ⟨⟨m, e, rfl⟩, hbytes⟩

theorem takeFault (h : StoresAlike s s' t t') (c : FaultCause) (w : CmdWord) :
    StoresAlike s s' (t.takeFault c w) (t'.takeFault c w) := by
  obtain ⟨⟨m, e, rfl⟩, hbytes⟩ := h
  exact ⟨⟨m, e, rfl⟩, hbytes⟩

theorem exportText (h : StoresAlike s s' t t') {addr cap total : Nat} {text : List Byte}
    (hfit : addr + cap ≤ bufSize) (htext : text.length = total) :
    StoresAlike s s' (t.exportText addr cap total text) (t'.exportText addr cap total text) := by
  unfold State.exportText
  split
  · exact (h.putUnspecified hfit).exported 0
  · exact ((h.putBytes (by omega)).putUnspecified (by omega)).exported total

end StoresAlike

/-- Both runs of the command complete, and store alike. -/
def RunsStoreAlike (i : Instr) (s s' : State) : Prop :=
  ∃ t t', exec i s = .next t ∧ exec i s' = .next t' ∧ StoresAlike s s' t t'

/-- A buffer command takes BUF_RANGE in both runs or in neither. -/
theorem RunsStoreAlike.of_inWindow {i : Instr} {s s' done done' : State} {a n : Nat} {w : CmdWord}
    (hexec : exec i s = s.inWindow a n w done) (hexec' : exec i s' = s'.inWindow a n w done')
    (hstart : StoresAlike s s' s s') (hdone : a + n ≤ bufSize → StoresAlike s s' done done') :
    RunsStoreAlike i s s' := by
  rcases Nat.lt_or_ge bufSize (a + n) with hpast | hfit
  · exact ⟨_, _, hexec.trans (inWindow_past s w done hpast),
      hexec'.trans (inWindow_past s' w done' hpast), hstart.takeFault .bufRange w⟩
  · exact ⟨_, _, hexec.trans (inWindow_fits s w done hfit),
      hexec'.trans (inWindow_fits s' w done' hfit), hdone hfit⟩

/-- The ST commands: what they write, and where, does not depend on BUF. -/
theorem runsStoreAlike_of_writes {i : Instr} (hu : bufUse i = .writes) (s : State) (m : Memory)
    (e : Nat) : RunsStoreAlike i s (s.withBuf m e) := by
  have start := StoresAlike.withBuf s m e
  cases i with
  | straw => exact .of_inWindow rfl rfl start fun hfit => start.putBytes (by rwa [leBytes_length])
  | sthex ra addr cap =>
    refine .of_inWindow rfl rfl start fun hfit => ?_
    rw [State.withBuf_u]
    split
    · exact start.exported 0
    · exact (start.putBytes (by rw [hexChars_length]; omega)).exported _
  | stdec | stsdec | stdcm =>
    exact .of_inWindow rfl rfl start fun hfit => start.exportText hfit (by simp)
  | _ => cases hu

/-- No buffer command changes a byte outside its window, whether or not it faults. -/
theorem exec_outsideWindow {i : Instr} {s t : State} {a n : Nat} (hw : windowOf s.W i = some (a, n))
    (hexec : exec i s = .next t) {b : Nat} (hb : ¬(a ≤ b ∧ b < a + n)) : t.bufByte b = s.bufByte b := by
  rcases Nat.lt_or_ge 65536 (a + n) with hpast | hfit
  · cases hexec.symm.trans (exec_windowPast hw hpast)
    rfl
  · obtain ⟨u, hu, -, -, hbuf⟩ := exec_windowFits hw hfit
    cases hexec.symm.trans hu
    exact hbuf b hb

/-- Settles O20: by how the command uses BUF, from what it does in the two runs. That an LD command
leaves BUF alone is the case of one contents of BUF in both. -/
theorem onlyBufferCommandsReachBuf : Obligations.OnlyBufferCommandsReachBuf := by
  intro i s t t' m e hexec hexec'
  refine ⟨fun hu => ?_, fun hu => ?_, fun hu => ?_⟩
  · obtain ⟨⟨hbuf, -⟩, heq⟩ := (ignoresBuf_of_untouched hu s m e).outcome hexec hexec'
    exact ⟨hbuf, heq⟩
  · have alone : IgnoresBuf i s s.buf s.bufEpoch := ignoresBuf_of_reads hu fun _ _ => rfl
    obtain ⟨⟨hbuf, hepoch⟩, -⟩ := alone.outcome hexec hexec
    refine ⟨hbuf, hepoch, fun hagree => ?_⟩
    exact ((ignoresBuf_of_reads hu fun an hw => State.window_congr (hagree an hw)).outcome
      hexec hexec').2
  · obtain ⟨u, u', hu1, hu2, ⟨m', e', rfl⟩, hbytes⟩ := runsStoreAlike_of_writes hu s m e
    cases hexec.symm.trans hu1
    cases hexec'.symm.trans hu2
    exact ⟨rfl, rfl, rfl, rfl, rfl, rfl, fun _ hw _ hb => exec_outsideWindow hw hexec hb, hbytes⟩

end Sys2Proof.Machine
end

section
/-! PROOFS. The command word: which command it selects, its reserved bits, and the order of its checks
(30_encoding.md R76 to R80). -/

namespace Sys2Proof.Machine

/-! ## The opcode map (R76, R77) -/

/-- An op value selects a command of that op value. -/
theorem opcode_of_instrOf {op : BitVec 8} {o : Operands} {i : Instr} (h : instrOf op o = some i) :
    i.opcode = op := by
  unfold instrOf at h
  split at h <;> cases h
  all_goals next hop => exact BitVec.eq_of_toNat_eq hop.symm

theorem opcode_mem_listedOps (i : Instr) : i.opcode.toNat ∈ listedOps := by
  cases i <;> simp [Instr.opcode, listedOps]

/-- The listed op values are the ones that select a command. -/
theorem mem_listedOps_iff {op : BitVec 8} (o : Operands) :
    op.toNat ∈ listedOps ↔ ∃ i, instrOf op o = some i := by
  constructor
  · intro hop
    unfold instrOf
    generalize op.toNat = n at hop
    unfold listedOps at hop
    fin_cases hop <;> exact ⟨_, rfl⟩
  · rintro ⟨i, hi⟩
    rw [← opcode_of_instrOf hi]
    exact opcode_mem_listedOps i

/-! ## The operands of the selected command (R71, R74) -/

/-- The operand fields that the command uses, the others 0; LDRAW and STRAW use word[15:0] of the
immediate. -/
def usedOperands (i : Instr) (o : Operands) : Operands :=
  { rd := if i.format.usesRd then o.rd else 0
    re := if i.format.usesRe then o.re else 0
    ra := if i.format.usesRa then o.ra else 0
    rb := if i.format.usesRb then o.rb else 0
    imm := if i.format.usesImm then
        immOf (immAddr o.imm) (if i.lenMustBeZero then 0#16 else immLen o.imm)
      else 0#32 }

/-- A command takes its operands from the fields its format uses. -/
theorem operands_of_instrOf {op : BitVec 8} {o : Operands} {i : Instr} (h : instrOf op o = some i) :
    i.operands = usedOperands i o := by
  obtain rfl := opcode_of_instrOf h
  cases i with
  | ldw | shl | shr | bget | bset | bclr | sset | dprec | dprecs | ddivf | ddivw | ddivs =>
    cases h
    exact congrArg _ (immOf_fields o.imm).symm
  | _ =>
    cases h
    rfl

/-! ## Reserved bits (R78) -/

theorem lenMustBeZero_iff (i : Instr) :
    i.lenMustBeZero = true ↔ i.opcode = 0x50#8 ∨ i.opcode = 0x51#8 := by
  cases i <;> simp [Instr.lenMustBeZero, Instr.opcode]

/-- The reserved bits, field by field: R71's unused fields, and R74's for LDRAW and STRAW. -/
theorem reservedClear_iff (i : Instr) (w : CmdWord) :
    reservedClear i w = true ↔ fieldZero w = 0#8
      ∧ (i.format.usesRd = false → fieldRd w = 0) ∧ (i.format.usesRe = false → fieldRe w = 0)
      ∧ (i.format.usesRa = false → fieldRa w = 0) ∧ (i.format.usesRb = false → fieldRb w = 0)
      ∧ (i.format.usesImm = false → fieldImm w = 0#32)
      ∧ (i.lenMustBeZero = true → immLen (fieldImm w) = 0#16) := by
  simp only [reservedClear, Bool.and_eq_true, decide_eq_true_eq, Bool.or_eq_true, Bool.not_eq_true',
    or_iff_not_imp_left, Bool.not_eq_true, Bool.not_eq_false, and_assoc]

/-- The decoder's test passes where no reserved bit is set. -/
theorem reservedClear_iff_not_reservedSet (i : Instr) (w : CmdWord) :
    reservedClear i w = true ↔ ¬ReservedSet i w := by
  simp only [reservedClear_iff, lenMustBeZero_iff, or_imp, ReservedSet, not_or, not_and, ne_eq, not_not]

/-- Reading a field only where it is used reads the whole field, if it is 0 where it is not used. -/
theorem ite_field_eq {α : Type} {used : Bool} {x z : α} (h : used = false → x = z) :
    (if used = true then x else z) = x := by
  cases used with
  | false => exact (h rfl).symm
  | true => rfl

/-- A word with no reserved bit set holds nothing but what the command uses. -/
theorem usedOperands_of_reservedClear {i : Instr} {w : CmdWord} (h : reservedClear i w = true) :
    usedOperands i (operandsOf w) = operandsOf w := by
  obtain ⟨-, hrd, hre, hra, hrb, himm, hlen⟩ := (reservedClear_iff i w).mp h
  have hlen' : (if i.lenMustBeZero = true then 0#16 else immLen (fieldImm w)) = immLen (fieldImm w) :=
    ite_eq_right_iff.mpr fun hz => (hlen hz).symm
  simp only [usedOperands, operandsOf, ite_field_eq hrd, ite_field_eq hre, ite_field_eq hra,
    ite_field_eq hrb, hlen', immOf_fields, ite_field_eq himm]

/-- A word with no reserved bit set is the encoding of the command it selects. -/
theorem encode_of_not_reservedSet {i : Instr} {w : CmdWord}
    (hi : instrOf (fieldOp w) (operandsOf w) = some i) (h : ¬ReservedSet i w) : encode i = w := by
  have hclear := (reservedClear_iff_not_reservedSet i w).mpr h
  have hzero := ((reservedClear_iff i w).mp hclear).1
  rw [encode, opcode_of_instrOf hi, operands_of_instrOf hi, usedOperands_of_reservedClear hclear,
    packWord_fields hzero]

/-! ## The destinations (R79) -/

/-- The two destinations are equal registers: only format DEAB has two. -/
theorem destsDiffer_eq_false_iff (i : Instr) :
    i.destsDiffer = false ↔ i.format = .DEAB ∧ i.operands.rd = i.operands.re := by
  cases i <;> simp [Instr.destsDiffer, Instr.format, Instr.operands]

theorem destsDiffer_eq_false_iff_of_instrOf {w : CmdWord} {i : Instr}
    (hi : instrOf (fieldOp w) (operandsOf w) = some i) :
    i.destsDiffer = false ↔ i.format = .DEAB ∧ fieldRd w = fieldRe w := by
  rw [destsDiffer_eq_false_iff, operands_of_instrOf hi]
  refine and_congr_right fun hformat => ?_
  simp [usedOperands, hformat, Format.usesRd, Format.usesRe, operandsOf]

/-! ## What a word decodes to (R80) -/

section
variable {w : CmdWord} {i : Instr}

theorem decodeWord_unlisted (hop : (fieldOp w).toNat ∉ listedOps) :
    decodeWord w = .fault .illegalOpcode := by
  have hnone : instrOf (fieldOp w) (operandsOf w) = none :=
    Option.eq_none_iff_forall_ne_some.mpr fun i hi => hop ((mem_listedOps_iff _).mpr ⟨i, hi⟩)
  simp only [decodeWord, hnone]

theorem decodeWord_reservedSet (hi : instrOf (fieldOp w) (operandsOf w) = some i)
    (hset : ReservedSet i w) : decodeWord w = .fault .reservedNonzero := by
  have hclear : ¬reservedClear i w = true := by simpa [reservedClear_iff_not_reservedSet] using hset
  simp only [decodeWord, hi, if_neg hclear]

theorem decodeWord_of_not_reservedSet (hi : instrOf (fieldOp w) (operandsOf w) = some i)
    (hset : ¬ReservedSet i w) :
    decodeWord w = if i.destsDiffer then .command i else .fault .destConflict := by
  simp only [decodeWord, hi, if_pos ((reservedClear_iff_not_reservedSet i w).mpr hset)]

/-- "Decoding followed by encoding gives the word back" (R78). -/
theorem encode_of_decodeWord (h : decodeWord w = .command i) : encode i = w := by
  cases hj : instrOf (fieldOp w) (operandsOf w) with
  | none => simp [decodeWord, hj] at h
  | some j =>
    by_cases hset : ReservedSet j w
    · cases (decodeWord_reservedSet hj hset).symm.trans h
    · rw [decodeWord_of_not_reservedSet hj hset] at h
      split at h
      · cases h
        exact encode_of_not_reservedSet hj hset
      · cases h

end

/-- The word of a command selects the command. -/
theorem instrOf_encode (i : Instr) : instrOf (fieldOp (encode i)) (operandsOf (encode i)) = some i := by
  rw [encode, fieldOp_packWord, operandsOf_packWord]
  cases i with
  | ldraw | straw | ldhex | sthex | lddec | stdec | ldsdec | stsdec | lddcm | stdcm =>
    simp [Instr.opcode, Instr.operands, instrOf, immAddr_immOf, immLen_immOf]
  | _ => rfl

/-- A command whose two destinations are equal has a word, which the decoder rejects. -/
theorem decodeWord_encode_destConflict {i : Instr} (hd : i.destsDiffer = false) :
    decodeWord (encode i) = .fault .destConflict := by
  have hclear : reservedClear i (encode i) = true := by
    cases i with
    | mulw rd re ra rb => exact Laws.ReservedClear.mulw rd re ra rb
    | div rd re ra rb => exact Laws.ReservedClear.div rd re ra rb
    | _ => cases hd
  simp [decodeWord, instrOf_encode, hclear, hd]

/-! ## What the step does with a word (R80, R244) -/

section
variable {s t : State} {w : CmdWord}

theorem step_writeCmd_of_settled (h : s.acceptWord w = .settled t) :
    step (s.withPending [.writeCmd w]) = .next t := by
  have hadv : (s.withPending [.writeCmd w]).advance = .settled t := h
  simp only [step, hadv]

theorem step_writeCmd_of_run {i : Instr} (h : s.acceptWord w = .run i t) :
    step (s.withPending [.writeCmd w]) = exec i t := by
  have hadv : (s.withPending [.writeCmd w]).advance = .run i t := h
  simp only [step, hadv]

theorem step_writeCmd_halted (w : CmdWord) (hh : s.halted = true) :
    step (s.withPending [.writeCmd w]) = .next s :=
  step_writeCmd_of_settled (if_pos hh)

/-- A word that the decoder rejects takes its fault. -/
theorem step_writeCmd_fault {c : FaultCause} (hh : s.halted = false) (hw : decodeWord w = .fault c) :
    ∃ t, step (s.withPending [.writeCmd w]) = .next t ∧ Faulted s t c.code w :=
  ⟨s.takeFault c w, step_writeCmd_of_settled (by simp [State.acceptWord, hh, hw]),
    takeFault_faulted s c w⟩

/-- A word that decodes to a command is executed on the state it finds. -/
theorem step_writeCmd_command {i : Instr} (hh : s.halted = false) (hw : decodeWord w = .command i) :
    step (s.withPending [.writeCmd w]) = exec i s :=
  step_writeCmd_of_run (by simp [State.acceptWord, hh, hw])

end

/-! ## The statements -/

/-- Settles O2: a reserved bit is the decoder's second check, and a word with none of them set is the
encoding of the command it selects. -/
theorem reservedBitsFaultAndEncodingIsUnique : Obligations.ReservedBitsFaultAndEncodingIsUnique := by
  intro w i hi
  refine ⟨fun hset s hh => step_writeCmd_fault hh (decodeWord_reservedSet hi hset),
    fun hne => by_contra fun hset => hne (encode_of_not_reservedSet hi hset),
    fun j hj => encode_of_decodeWord hj⟩

/-- Settles O3: unlisted op values fail the decoder's first check, equal destinations its last. -/
theorem unlistedOpcodesAndEqualDestinationsFault :
    Obligations.UnlistedOpcodesAndEqualDestinationsFault := by
  refine ⟨rfl, fun w s hop hh => step_writeCmd_fault hh (decodeWord_unlisted hop),
    fun rd ra rb s hh => ⟨?_, ?_⟩⟩
  · exact step_writeCmd_fault hh
      (decodeWord_encode_destConflict (i := .mulw rd rd ra rb) (bne_self_eq_false rd))
  · exact step_writeCmd_fault hh
      (decodeWord_encode_destConflict (i := .div rd rd ra rb) (bne_self_eq_false rd))

/-- Settles O4: the first three checks are the decoder's, the window is the command's own. -/
theorem checksOfAWordComeInOrder : Obligations.ChecksOfAWordComeInOrder := by
  intro s w
  refine ⟨step_writeCmd_halted w, fun hh =>
    ⟨fun hop => step_writeCmd_fault hh (decodeWord_unlisted hop), fun hop => ?_⟩⟩
  obtain ⟨i, hi⟩ := (mem_listedOps_iff (operandsOf w)).mp hop
  refine ⟨i, hi, opcode_of_instrOf hi,
    fun hset => step_writeCmd_fault hh (decodeWord_reservedSet hi hset),
    fun hset hformat heq => ?_, fun hset hdiff => ?_⟩
  · have hd : i.destsDiffer = false := (destsDiffer_eq_false_iff_of_instrOf hi).mpr ⟨hformat, heq⟩
    have hdec : decodeWord w = .fault .destConflict := by
      rw [decodeWord_of_not_reservedSet hi hset, hd]
      rfl
    exact step_writeCmd_fault hh hdec
  · have hd : i.destsDiffer = true := by
      rw [← Bool.not_eq_false, destsDiffer_eq_false_iff_of_instrOf hi]
      exact fun ⟨hformat, heq⟩ => hdiff hformat heq
    have hexec : step (s.withPending [.writeCmd w]) = exec i s :=
      step_writeCmd_command hh (by rw [decodeWord_of_not_reservedSet hi hset, if_pos hd])
    refine ⟨fun ⟨⟨a, n⟩, hw, hpast⟩ => ?_, fun _ => hexec⟩
    rw [hexec, exec_windowPast hw hpast, encode_of_not_reservedSet hi hset]
    exact ⟨_, rfl, takeFault_faulted s .bufRange w⟩

end Sys2Proof.Machine
end

section
/-! PROOFS. The digit codec: which characters are digits of a base, and the inverse functions
(40_primitives.md R90 to R92). -/

namespace Sys2Proof.Machine

/-- R90 for every base: the case split is the definition's own, over the three ranges of character
codes and what lies outside them. -/
theorem digitOf_eq_some_iff (c : Byte) (base d : Nat) :
    digitOf c base = some d ↔
      d < base ∧ ((d < 10 ∧ c.toNat = 0x30 + d)
        ∨ (10 ≤ d ∧ d < 36 ∧ (c.toNat = 0x41 + (d - 10) ∨ c.toNat = 0x61 + (d - 10)))) := by
  by_cases decimal : 0x30 ≤ c.toNat ∧ c.toNat ≤ 0x39
  · simp only [digitOf, if_pos decimal, Option.ite_none_left_eq_some, Option.some.injEq]
    omega
  by_cases upper : 0x41 ≤ c.toNat ∧ c.toNat ≤ 0x5A
  · simp only [digitOf, if_neg decimal, if_pos upper, Option.ite_none_left_eq_some, Option.some.injEq]
    omega
  by_cases lower : 0x61 ≤ c.toNat ∧ c.toNat ≤ 0x7A
  · simp only [digitOf, if_neg decimal, if_neg upper, if_pos lower, Option.ite_none_left_eq_some,
      Option.some.injEq]
    omega
  · simp only [digitOf, if_neg decimal, if_neg upper, if_neg lower, reduceCtorEq, false_iff]
    omega

/-- A digit is below its base. -/
theorem digitOf_lt {c : Byte} {base d : Nat} (h : digitOf c base = some d) : d < base :=
  ((digitOf_eq_some_iff c base d).mp h).1

/-- The value of two hexadecimal digits fits a byte, so R91's byte is their value itself. -/
theorem hexByteOf_eq_some_iff (c1 c2 b : Byte) :
    hexByteOf c1 c2 = some b ↔
      ∃ h l, digitOf c1 16 = some h ∧ digitOf c2 16 = some l ∧ b.toNat = 16 * h + l := by
  cases high : digitOf c1 16 with
  | none => simp [hexByteOf, high]
  | some h =>
    cases low : digitOf c2 16 with
    | none => simp [hexByteOf, high, low]
    | some l =>
      have fits : 16 * h + l < 256 := by
        have := digitOf_lt high
        have := digitOf_lt low
        omega
      simp [hexByteOf, high, low, ← BitVec.toNat_inj, Nat.mod_eq_of_lt fits, eq_comm]

/-- The code of a digit's character fits a byte (R92). -/
theorem toNat_charOfDigit {d : Nat} (hd : d < 36) :
    (charOfDigit d).toNat = if d < 10 then 0x30 + d else 0x41 + (d - 10) := by
  rw [charOfDigit, BitVec.toNat_ofNat]
  exact Nat.mod_eq_of_lt (by split <;> omega)

/-- Settles O6: for a base of at most 36 every value below it has a character, so the bound of the
letters' range is the base's own. -/
theorem digitCodecMapsAsciiDigits : Obligations.DigitCodecMapsAsciiDigits := by
  refine ⟨fun c base d _ hbase => ?_, hexByteOf_eq_some_iff, fun _ => toNat_charOfDigit,
    fun _ => rfl⟩
  rw [digitOf_eq_some_iff]
  omega

end Sys2Proof.Machine
end

section
/-! PROOFS. Construction: ZERO, ONE, LDW and MOV are one write of a value of at most W bits
(41_int_construct.md). -/

namespace Sys2Proof.Machine

/-- The word of a command carries the op value of its rule, and its format is the rule's. -/
theorem encodedAs (i : Instr) : EncodedAs i i.opcode i.format :=
  ⟨fieldOp_packWord i.opcode i.operands, rfl⟩

/-- The rule of a command whose meaning is one write `V[rd] <- bits_W(x)`: the register reads as x
modulo 2^W, and nothing else changes (00_scope.md R9, R13). -/
theorem exec_putV_only {i : Instr} {s : State} {rd : Reg} {x : Nat}
    (hexec : exec i s = .next (s.putV rd x)) :
    ∃ t, exec i s = .next t ∧ t.u rd = x % 2 ^ s.W ∧ Unchanged { v := [rd] } s t :=
  ⟨s.putV rd x, hexec, s.u_putV_same rd x, (Unchanged.refl _ s).putV (.head _) x⟩

/-- A value of at most W bits reads back as itself. -/
theorem exec_putV_only_of_lt {i : Instr} {s : State} {rd : Reg} {x : Nat}
    (hexec : exec i s = .next (s.putV rd x)) (hx : x < 2 ^ s.W) :
    ∃ t, exec i s = .next t ∧ t.u rd = x ∧ Unchanged { v := [rd] } s t := by
  simpa only [Nat.mod_eq_of_lt hx] using exec_putV_only hexec

/-- Every width holds the immediate of a command, so zext_W is the identity on its value (R112). -/
theorem State.imm_lt (s : State) (imm : Imm) : imm.toNat < 2 ^ s.W :=
  imm.isLt.trans_le (Nat.pow_le_pow_right two_pos (le_trans (by decide) s.W_pos))

/-- Settles O22: each of the four writes one value, and each value fits every width: 0, 1, a 32-bit
immediate, and what a register reads as. -/
theorem constructorsGiveTheirValue : Obligations.ConstructorsGiveTheirValue := by
  intro s rd ra imm
  have one_lt : 1 < 2 ^ s.W := s.imm_lt 1
  exact ⟨⟨encodedAs (.zero rd), exec_putV_only_of_lt rfl (Nat.two_pow_pos s.W)⟩,
    ⟨encodedAs (.one rd), exec_putV_only_of_lt rfl one_lt⟩,
    ⟨encodedAs (.ldw rd imm), exec_putV_only_of_lt rfl (s.imm_lt imm)⟩,
    ⟨encodedAs (.mov rd ra), exec_putV_only_of_lt rfl (s.u_lt ra)⟩⟩

end Sys2Proof.Machine
end

section
/-! PROOFS. Integer arithmetic: the wrapping sum, difference and product, the double-width product,
and restoring division (42_int_arith.md). -/

namespace Sys2Proof.Machine

/-! ## Two destinations (30_encoding.md R79) -/

/-- The rule of a command with equal destinations: DEST_CONFLICT for its own word. -/
theorem exec_destConflict_faulted {i : Instr} (s : State) (hd : i.destsDiffer = false) :
    ∃ t, exec i s = .next t ∧ Faulted s t 3 (encode i) :=
  ⟨_, exec_destConflict s hd, takeFault_faulted s .destConflict (encode i)⟩

/-- Two writes to different registers: each register reads as its own value. -/
theorem State.u_putV_putV (s : State) {rd re : Reg} (hne : rd ≠ re) (x y : Nat) :
    ((s.putV rd x).putV re y).u rd = x % 2 ^ s.W ∧ ((s.putV rd x).putV re y).u re = y % 2 ^ s.W := by
  simp [hne]

theorem Unchanged.putV_putV {w : Writes} {rd re : Reg} (hd : rd ∈ w.v) (he : re ∈ w.v) (s : State)
    (x y : Nat) : Unchanged w s ((s.putV rd x).putV re y) :=
  ((Unchanged.refl w s).putV hd x).putV he y

/-! ## ADD and SUB (R121, R122) -/

/-- A difference modulo 2^W depends on the minuend modulo 2^W only. -/
theorem bitsW_mod_sub (W x y : Nat) : bitsW W ((x % 2 ^ W : Nat) - (y : Int)) = bitsW W (x - y) :=
  bitsW_congr (by rw [Int.natCast_mod, Int.emod_sub_emod])

/-- The source's law sub(add(a, b), b) = a, on values. -/
theorem bitsW_sub_of_add (W x y : Nat) : bitsW W (((x + y) % 2 ^ W : Nat) - (y : Int)) = x % 2 ^ W := by
  rw [bitsW_mod_sub, Nat.cast_add, add_sub_cancel_right, bitsW_natCast]

/-- SUB writes the difference modulo 2^W, read as a non-negative integer. -/
theorem exec_sub_value (s : State) (rd ra rb : Reg) :
    ∃ t, exec (.sub rd ra rb) s = .next t
      ∧ (t.u rd : Int) = ((s.u ra : Int) - (s.u rb : Int)) % (2 : Int) ^ s.W
      ∧ Unchanged { v := [rd] } s t := by
  obtain ⟨t, hexec, hval, hframe⟩ :=
    exec_putV_only_of_lt (i := .sub rd ra rb) (s := s) rfl (bitsW_lt _ _)
  refine ⟨t, hexec, ?_, hframe⟩
  rw [hval, natCast_bitsW, Nat.cast_pow, Nat.cast_ofNat]

/-- ADD then SUB of the same rb gives ra back, where ADD leaves rb alone. -/
theorem exec_add_then_sub (s : State) {rd rb : Reg} (ra : Reg) (hne : rd ≠ rb) :
    ∃ t t', exec (.add rd ra rb) s = .next t ∧ exec (.sub rd rd rb) t = .next t'
      ∧ t'.u rd = s.u ra := by
  refine ⟨_, _, rfl, rfl, ?_⟩
  rw [State.u_putV_same, State.putV_W, State.u_putV_same, State.u_putV_ne _ _ hne.symm,
    bitsW_sub_of_add, Nat.mod_mod, Nat.mod_eq_of_lt (s.u_lt ra)]

/-- Settles O23: one write each, of the sum and of the difference modulo 2^W. -/
theorem addAndSubWrap : Obligations.AddAndSubWrap := by
  intro s rd ra rb
  exact ⟨⟨encodedAs (.add rd ra rb), exec_putV_only rfl⟩,
    ⟨encodedAs (.sub rd ra rb), exec_sub_value s rd ra rb⟩, exec_add_then_sub s ra⟩

/-! ## MUL and MULW (R124, R125) -/

/-- The high half of a product of two registers fits a register. -/
theorem State.u_mul_u_div_lt (s : State) (ra rb : Reg) : s.u ra * s.u rb / 2 ^ s.W < 2 ^ s.W :=
  Nat.div_lt_of_lt_mul (Nat.mul_lt_mul'' (s.u_lt ra) (s.u_lt rb))

theorem exec_mulw_halves (s : State) {rd re : Reg} (ra rb : Reg) (hne : rd ≠ re) :
    ∃ t, exec (.mulw rd re ra rb) s = .next t
      ∧ t.u rd = s.u ra * s.u rb % 2 ^ s.W ∧ t.u re = s.u ra * s.u rb / 2 ^ s.W
      ∧ Unchanged { v := [rd, re] } s t := by
  obtain ⟨hlow, hhigh⟩ := s.u_putV_putV hne (s.u ra * s.u rb) (s.u ra * s.u rb / 2 ^ s.W)
  rw [Nat.mod_eq_of_lt (s.u_mul_u_div_lt ra rb)] at hhigh
  exact ⟨_, if_neg hne, hlow, hhigh, Unchanged.putV_putV (.head _) (.tail _ (.head _)) s _ _⟩

/-- Multiplication modulo m distributes over addition modulo m. -/
theorem mul_mod_add_mod (a b c m : Nat) :
    a * ((b + c) % m) % m = (a * b % m + a * c % m) % m := by
  rw [Nat.mul_mod_mod, Nat.mul_add, Nat.add_mod]

/-- The source's law that mul distributes over add, on commands whose scratch registers x, y, z are
apart from the operands. -/
theorem exec_mul_distributes_over_add (s : State) {x y z ra rb rc : Reg}
    (hnodup : [x, y, z, ra, rb, rc].Nodup) :
    ∃ t1 t2 t3 t4 t5, exec (.add x rb rc) s = .next t1 ∧ exec (.mul x ra x) t1 = .next t2
      ∧ exec (.mul y ra rb) t2 = .next t3 ∧ exec (.mul z ra rc) t3 = .next t4
      ∧ exec (.add y y z) t4 = .next t5 ∧ t5.u x = t5.u y := by
  refine ⟨_, _, _, _, _, rfl, rfl, rfl, rfl, rfl, ?_⟩
  simp only [List.nodup_cons, List.mem_cons, not_or] at hnodup
  obtain ⟨⟨hxy, hxz, hxa, hxb, hxc, -⟩, ⟨hyz, hya, -, hyc, -⟩, -⟩ := hnodup
  simp [hxy, hxz, hyz, Ne.symm hxa, Ne.symm hxb, Ne.symm hxc, Ne.symm hya, Ne.symm hyc,
    Nat.mul_add]

/-- Settles O24: one write for MUL, two for MULW, whose high half fits; equal destinations are the
decode fault, and the law is the distributive law modulo 2^W. -/
theorem multiplyGivesLowAndHighHalves : Obligations.MultiplyGivesLowAndHighHalves := by
  intro s rd re ra rb
  refine ⟨⟨encodedAs (.mul rd ra rb), exec_putV_only rfl⟩, encodedAs (.mulw rd re ra rb),
    exec_mulw_halves s ra rb, fun heq => exec_destConflict_faulted s ?_,
    fun x y z rc => exec_mul_distributes_over_add s⟩
  simp [Instr.destsDiffer, heq]

/-! ## The value functions of division (40_primitives.md R98, R102) -/

theorem lt_two_pow_msbW_succ (v : Nat) : v < 2 ^ (msbW v + 1) := Nat.lt_log2_self

theorem two_pow_msbW_le {v : Nat} (hv : v ≠ 0) : 2 ^ msbW v ≤ v := Nat.log2_self_le hv

/-- The highest 1 bit of a W-bit pattern stands below W. -/
theorem msbW_lt {W v : Nat} (hW : 0 < W) (hv : v < 2 ^ W) : msbW v < W := by
  by_cases h : v = 0
  · simpa [h, msbW] using hW
  · exact (Nat.log2_lt h).mpr hv

theorem lt_of_msbW_lt {a b : Nat} (h : msbW a < msbW b) : a < b := by
  have hb : b ≠ 0 := by
    rintro rfl
    exact absurd h (Nat.not_lt_zero _)
  calc a < 2 ^ (msbW a + 1) := lt_two_pow_msbW_succ a
    _ ≤ 2 ^ msbW b := Nat.pow_le_pow_right two_pos h
    _ ≤ b := two_pow_msbW_le hb

theorem udivQ_of_ne_zero {b : Nat} (hb : b ≠ 0) (a : Nat) : udivQ a b = a / b := if_neg hb

theorem udivR_of_ne_zero {b : Nat} (hb : b ≠ 0) (a : Nat) : udivR a b = a % b := if_neg hb

theorem udivQ_zero (a : Nat) : udivQ a 0 = 2 ^ (msbW a + 1) - 1 := if_pos rfl

theorem udivR_zero (a : Nat) : udivR a 0 = a := if_pos rfl

theorem udivQ_lt {W a : Nat} (hW : 0 < W) (ha : a < 2 ^ W) (b : Nat) : udivQ a b < 2 ^ W := by
  by_cases hb : b = 0
  · rw [hb, udivQ_zero]
    calc 2 ^ (msbW a + 1) - 1 < 2 ^ (msbW a + 1) := Nat.sub_lt (Nat.two_pow_pos _) one_pos
      _ ≤ 2 ^ W := Nat.pow_le_pow_right two_pos (msbW_lt hW ha)
  · rw [udivQ_of_ne_zero hb]
    exact (Nat.div_le_self a b).trans_lt ha

theorem udivR_le (a b : Nat) : udivR a b ≤ a := by
  by_cases hb : b = 0
  · rw [hb, udivR_zero]
  · rw [udivR_of_ne_zero hb]
    exact Nat.mod_le a b

/-! ## Restoring division (R130 to R132) -/

/-- Setting bit n of a quotient whose bits n and below are still clear adds 2^n. -/
theorem or_two_pow_eq_add {n q : Nat} (hq : 2 ^ (n + 1) ∣ q) : q ||| 2 ^ n = q + 2 ^ n := by
  obtain ⟨k, rfl⟩ := hq
  exact (Nat.two_pow_add_eq_or_of_lt (Nat.pow_lt_pow_succ one_lt_two) k).symm

/-- R132's invariant, as what the loop still adds: before the positions below n the remainder is below
b * 2^n, the shifted divisor is half of that, and the quotient has no bit below n. -/
theorem restoringLoop_eq_div_mod {b : Nat} (hb : 0 < b) (n : Nat) {q r : Nat} (hq : 2 ^ n ∣ q)
    (hr : r < b * 2 ^ n) : restoringLoop n (b * 2 ^ n / 2) q r = (q + r / b, r % b) := by
  induction n generalizing q r with
  | zero =>
    rw [pow_zero, mul_one] at hr
    rw [restoringLoop, Nat.div_eq_of_lt hr, Nat.mod_eq_of_lt hr, add_zero]
  | succ n ih =>
    have hdouble : b * 2 ^ (n + 1) = b * 2 ^ n * 2 := by rw [pow_succ, mul_assoc]
    have hq' : 2 ^ n ∣ q := (pow_dvd_pow 2 n.le_succ).trans hq
    rw [hdouble, Nat.mul_div_cancel _ two_pos]
    by_cases hle : b * 2 ^ n ≤ r
    · have hbit : 2 ^ n ≤ r / b := by rwa [Nat.le_div_iff_mul_le hb, mul_comm]
      rw [restoringLoop, if_pos hle, or_two_pow_eq_add hq, ih (hq'.add dvd_rfl) (by omega),
        Nat.sub_mul_div, Nat.sub_mul_mod hle, add_assoc, Nat.add_sub_cancel' hbit]
    · rw [restoringLoop, if_neg hle, ih hq' (not_le.mp hle)]

/-- R131: a zero divisor is subtracted at every position, which sets every quotient bit below n. -/
theorem restoringLoop_zero_divisor (n : Nat) {q : Nat} (hq : 2 ^ n ∣ q) (r : Nat) :
    restoringLoop n 0 q r = (q + (2 ^ n - 1), r) := by
  induction n generalizing q with
  | zero => rfl
  | succ n ih =>
    have hq' : 2 ^ n ∣ q := (pow_dvd_pow 2 n.le_succ).trans hq
    have hdigits : 2 ^ n + (2 ^ n - 1) = 2 ^ (n + 1) - 1 := by
      have := Nat.two_pow_pos n
      omega
    rw [restoringLoop, if_pos r.zero_le, or_two_pow_eq_add hq, Nat.zero_div, Nat.sub_zero,
      ih (hq'.add dvd_rfl), add_assoc, hdigits]

/-- R130: the divisor shifted up to the dividend's highest bit loses no bit. -/
theorem mul_two_pow_msbW_sub_lt {W a b : Nat} (ha : a < 2 ^ W) (hb : b < 2 ^ W)
    (hmsb : msbW b ≤ msbW a) : b * 2 ^ (msbW a - msbW b) < 2 ^ W := by
  rcases Nat.eq_zero_or_pos W with rfl | hW
  · simp [Nat.lt_one_iff.mp hb]
  calc b * 2 ^ (msbW a - msbW b)
      < 2 ^ (msbW b + 1) * 2 ^ (msbW a - msbW b) :=
        Nat.mul_lt_mul_of_pos_right (lt_two_pow_msbW_succ b) (Nat.two_pow_pos _)
    _ = 2 ^ (msbW a + 1) := by rw [← pow_add]; congr 1; omega
    _ ≤ 2 ^ W := Nat.pow_le_pow_right two_pos (msbW_lt hW ha)

/-- A dividend lies below the double of the divisor shifted up to its highest bit. -/
theorem lt_mul_two_pow_msbW_sub {a b : Nat} (hb : b ≠ 0) (hmsb : msbW b ≤ msbW a) :
    a < b * 2 ^ (msbW a - msbW b + 1) := by
  calc a < 2 ^ (msbW a + 1) := lt_two_pow_msbW_succ a
    _ = 2 ^ msbW b * 2 ^ (msbW a - msbW b + 1) := by rw [← pow_add]; congr 1; omega
    _ ≤ b * 2 ^ (msbW a - msbW b + 1) := Nat.mul_le_mul_right _ (two_pow_msbW_le hb)

/-- Restoring division computes the pair of udiv_W (40_primitives.md R102), a zero divisor included. -/
theorem restoringDiv_eq_udiv {W a b : Nat} (ha : a < 2 ^ W) (hb : b < 2 ^ W) :
    restoringDiv W a b = (udivQ a b, udivR a b) := by
  by_cases hmsb : msbW a < msbW b
  · have hlt := lt_of_msbW_lt hmsb
    have hne : b ≠ 0 := Nat.ne_zero_of_lt hlt
    rw [restoringDiv, if_pos hmsb, udivQ_of_ne_zero hne, udivR_of_ne_zero hne, Nat.div_eq_of_lt hlt,
      Nat.mod_eq_of_lt hlt]
  · have hle := not_lt.mp hmsb
    rw [restoringDiv, if_neg hmsb, Nat.mod_eq_of_lt (mul_two_pow_msbW_sub_lt ha hb hle)]
    by_cases hzero : b = 0
    · subst hzero
      rw [zero_mul, restoringLoop_zero_divisor _ (dvd_zero _), udivQ_zero, udivR_zero, zero_add]
      rfl
    · have hhalf : b * 2 ^ (msbW a - msbW b) = b * 2 ^ (msbW a - msbW b + 1) / 2 := by
        rw [pow_succ, ← mul_assoc, Nat.mul_div_cancel _ two_pos]
      rw [hhalf, restoringLoop_eq_div_mod (Nat.pos_of_ne_zero hzero) _ (dvd_zero _)
        (lt_mul_two_pow_msbW_sub hzero hle), udivQ_of_ne_zero hzero, udivR_of_ne_zero hzero, zero_add]

/-! ## DIV (R129) -/

/-- DIV writes the pair of udiv_W and DZ. -/
theorem exec_div_value (s : State) {rd re : Reg} (ra rb : Reg) (hne : rd ≠ re) :
    ∃ t, exec (.div rd re ra rb) s = .next t
      ∧ t.u rd = udivQ (s.u ra) (s.u rb) ∧ t.u re = udivR (s.u ra) (s.u rb)
      ∧ t.flag .dz = decide (s.u rb = 0)
      ∧ Unchanged { v := [rd, re], flags := [.dz] } s t := by
  obtain ⟨hq, hr⟩ := s.u_putV_putV hne (udivQ (s.u ra) (s.u rb)) (udivR (s.u ra) (s.u rb))
  have hW : 0 < s.W := (by decide : 0 < 128).trans_le s.W_pos
  rw [Nat.mod_eq_of_lt (udivQ_lt hW (s.u_lt ra) _)] at hq
  rw [Nat.mod_eq_of_lt ((udivR_le _ _).trans_lt (s.u_lt ra))] at hr
  exact ⟨_, if_neg hne, hq, hr, State.flag_setFlag_same _ _ _,
    (Unchanged.putV_putV (.head _) (.tail _ (.head _)) s _ _).setFlag (.head _) _⟩

/-- Settles O25: the pair DIV writes is the one restoring division computes; equal destinations are
the decode fault. -/
theorem divRunsRestoringDivision : Obligations.DivRunsRestoringDivision := by
  intro s rd re ra rb
  refine ⟨encodedAs (.div rd re ra rb), fun hne => ?_, fun heq => exec_destConflict_faulted s ?_⟩
  · obtain ⟨t, hexec, hq, hr, hdz, hframe⟩ := exec_div_value s ra rb hne
    refine ⟨t, hexec, ?_, hdz, hframe⟩
    rw [hq, hr, restoringDiv_eq_udiv (s.u_lt ra) (s.u_lt rb)]
  · simp [Instr.destsDiffer, heq]

end Sys2Proof.Machine
end

section
/-! PROOFS. Logic, shifts, bits, comparison, introspection: each command is one write, of a value whose
bits are known, of T, or of RES (43_int_logic_shift_bit_cmp.md; 45_signed.md R172). -/

namespace Sys2Proof.Machine

/-! ## The rules of the three writes (00_scope.md R9, R13) -/

/-- A command whose meaning is one write `V[rd] <- bits_W(x)` gives rd the low W bits of x. -/
theorem exec_putV_bits {i : Instr} {s : State} {rd : Reg} {x : Nat} {bit : Nat → Bool}
    (hexec : exec i s = .next (s.putV rd x)) (hbit : ∀ j < s.W, x.testBit j = bit j) :
    ∃ t, exec i s = .next t ∧ (∀ j < s.W, (t.u rd).testBit j = bit j)
      ∧ Unchanged { v := [rd] } s t := by
  obtain ⟨t, ht, hval, hframe⟩ := exec_putV_only hexec
  refine ⟨t, ht, fun j hj => ?_, hframe⟩
  rw [hval, Nat.testBit_mod_two_pow, decide_eq_true hj, Bool.true_and, hbit j hj]

/-- The rule of a command whose meaning is one write of a flag. -/
theorem exec_setFlag_only {i : Instr} {s : State} {f : Flag} {b : Bool}
    (hexec : exec i s = .next (s.setFlag f b)) :
    ∃ t, exec i s = .next t ∧ t.flag f = b ∧ Unchanged { flags := [f] } s t :=
  ⟨s.setFlag f b, hexec, s.flag_setFlag_same f b, (Unchanged.refl _ s).setFlag (.head _) b⟩

/-- A command whose meaning is one write of the truth value of p to a flag. -/
theorem exec_setFlag_decide {i : Instr} {s : State} {f : Flag} {p : Prop} [Decidable p]
    (hexec : exec i s = .next (s.setFlag f (decide p))) :
    ∃ t, exec i s = .next t ∧ (t.flag f = true ↔ p) ∧ Unchanged { flags := [f] } s t := by
  obtain ⟨t, ht, hflag, hframe⟩ := exec_setFlag_only hexec
  exact ⟨t, ht, by rw [hflag, decide_eq_true_iff], hframe⟩

/-- The rule of a command whose meaning is one write of RES: a bit count, at most W, fits its 32 bits. -/
theorem exec_putRes_only {i : Instr} {s : State} {n : Nat} (hexec : exec i s = .next (s.putRes n)) :
    ∃ t, exec i s = .next t ∧ (n ≤ s.W → t.res.toNat = n) ∧ Unchanged { res := true } s t := by
  refine ⟨s.putRes n, hexec, fun hn => ?_, (Unchanged.refl _ s).putRes rfl n⟩
  have hn512 : n ≤ 512 := hn.trans s.W_le
  rw [State.putRes_res, BitVec.toNat_ofNat, Nat.mod_eq_of_lt (by omega)]

/-! ## AND, OR, XOR and NOT (R135 to R138) -/

theorem notW_eq_sub_succ (W v : Nat) : notW W v = 2 ^ W - (v + 1) := by
  rw [notW, Nat.sub_sub, Nat.add_comm]

theorem notW_lt (W v : Nat) : notW W v < 2 ^ W := by
  have := Nat.two_pow_pos W
  rw [notW_eq_sub_succ]
  omega

theorem testBit_notW {W v j : Nat} (hv : v < 2 ^ W) (hj : j < W) :
    (notW W v).testBit j = !v.testBit j := by
  rw [notW_eq_sub_succ, Nat.testBit_two_pow_sub_succ hv, decide_eq_true hj, Bool.true_and]

theorem exec_not_value (s : State) (rd ra : Reg) :
    ∃ t, exec (.not rd ra) s = .next t
      ∧ (∀ j < s.W, (t.u rd).testBit j = !(s.u ra).testBit j)
      ∧ t.u rd = 2 ^ s.W - 1 - s.u ra
      ∧ Unchanged { v := [rd] } s t := by
  obtain ⟨t, hexec, hval, hframe⟩ :=
    exec_putV_only_of_lt (i := .not rd ra) (s := s) rfl (notW_lt _ _)
  refine ⟨t, hexec, fun j hj => ?_, hval, hframe⟩
  rw [hval, testBit_notW (s.u_lt ra) hj]

/-- Settles O27: the value each command writes has the bits the library gives it; the complement's
bits are those of a subtraction from all ones. -/
theorem bitwiseCommandsActOnEveryBit : Obligations.BitwiseCommandsActOnEveryBit := by
  intro s rd ra rb
  exact ⟨⟨encodedAs (.and rd ra rb), exec_putV_bits rfl fun j _ => Nat.testBit_and _ _ j⟩,
    ⟨encodedAs (.or rd ra rb), exec_putV_bits rfl fun j _ => Nat.testBit_or _ _ j⟩,
    ⟨encodedAs (.xor rd ra rb), exec_putV_bits rfl fun j _ => Nat.testBit_xor _ _ j⟩,
    encodedAs (.not rd ra), exec_not_value s rd ra⟩

/-! ## SHL and SHR (R140, R141) -/

theorem shlW_lt (W v n : Nat) : shlW W v n < 2 ^ W := by
  unfold shlW
  split
  · exact Nat.two_pow_pos W
  · exact Nat.mod_lt _ (Nat.two_pow_pos W)

theorem shrW_lt {W v : Nat} (hv : v < 2 ^ W) (n : Nat) : shrW W v n < 2 ^ W := by
  unfold shrW
  split
  · exact Nat.two_pow_pos W
  · exact (Nat.div_le_self v _).trans_lt hv

/-- Settles O28: both shifts give a value of at most W bits, so the register reads as that value. -/
theorem shiftsTruncate : Obligations.ShiftsTruncate := by
  intro s rd ra imm
  exact ⟨⟨encodedAs (.shl rd ra imm), exec_putV_only_of_lt rfl (shlW_lt _ _ _)⟩,
    encodedAs (.shr rd ra imm), exec_putV_only_of_lt rfl (shrW_lt (s.u_lt ra) _)⟩

/-! ## BGET, BSET and BCLR (R143 to R146) -/

theorem bitAt_eq_ite (W v idx : Nat) : bitAt W v idx = if idx < W then v.testBit idx else false := by
  by_cases h : idx < W <;> simp [bitAt, h]

theorem testBit_bitSet {W j : Nat} (v idx : Nat) (hj : j < W) :
    (bitSet W v idx).testBit j = if j = idx then true else v.testBit j := by
  by_cases hidx : idx < W
  · rw [bitSet, if_pos hidx, Nat.testBit_or, Nat.testBit_two_pow]
    by_cases h : j = idx <;> simp [h, eq_comm]
  · rw [bitSet, if_neg hidx, if_neg (by omega)]

theorem testBit_bitClear {W j : Nat} (v idx : Nat) (hj : j < W) :
    (bitClear W v idx).testBit j = if j = idx then false else v.testBit j := by
  by_cases hidx : idx < W
  · have hmask : bitClear W v idx = v &&& notW W (2 ^ idx) := if_pos hidx
    rw [hmask, Nat.testBit_and, testBit_notW (Nat.pow_lt_pow_right one_lt_two hidx) hj,
      Nat.testBit_two_pow]
    by_cases h : j = idx <;> simp [h, eq_comm]
  · rw [bitClear, if_neg hidx, if_neg (by omega)]

/-- Settles O29: an index below W reaches its own bit alone, and one from W on no bit at all. -/
theorem bitAccessByAbsoluteIndex : Obligations.BitAccessByAbsoluteIndex := by
  intro s rd ra imm
  refine ⟨⟨encodedAs (.bget ra imm), ?_⟩,
    ⟨encodedAs (.bset rd ra imm), exec_putV_bits rfl fun _ => testBit_bitSet _ _⟩,
    encodedAs (.bclr rd ra imm), exec_putV_bits rfl fun _ => testBit_bitClear _ _⟩
  rw [← bitAt_eq_ite]
  exact exec_setFlag_only rfl

/-! ## EQ, LT and SLT (R148, R149, R172) -/

/-- Settles O30: each writes to T the truth value of its comparison. -/
theorem integerComparisonsSetT : Obligations.IntegerComparisonsSetT := by
  intro s ra rb
  exact ⟨⟨encodedAs (.eq ra rb), exec_setFlag_decide rfl⟩,
    ⟨encodedAs (.lt ra rb), exec_setFlag_decide rfl⟩,
    encodedAs (.slt ra rb), exec_setFlag_decide rfl⟩

/-! ## MSB and LZC (R151, R152) -/

/-- msb_W is the index of the highest 1 bit (40_primitives.md R98). -/
theorem msbW_highest {v : Nat} (hv : v ≠ 0) :
    v.testBit (msbW v) = true ∧ ∀ j, msbW v < j → v.testBit j = false := by
  refine ⟨Nat.testBit_log2 hv, fun j hj => Nat.testBit_lt_two_pow ?_⟩
  exact (lt_two_pow_msbW_succ v).trans_le (Nat.pow_le_pow_right two_pos hj)

theorem State.msbW_u_lt (s : State) (r : Reg) : msbW (s.u r) < s.W :=
  msbW_lt ((by decide : 0 < 128).trans_le s.W_pos) (s.u_lt r)

theorem lzcW_zero (p : Params) : lzcW p 0 = p.lzcOfZero := if_pos rfl

theorem State.lzcOfZero_le {s : State} (hok : s.params.ok = true) : s.params.lzcOfZero ≤ s.W :=
  of_decide_eq_true hok

theorem State.lzcW_u {s : State} {r : Reg} (hr : s.u r ≠ 0) :
    lzcW s.params (s.u r) = s.W - 1 - msbW (s.u r) := if_neg hr

theorem exec_msb_value (s : State) (ra : Reg) :
    ∃ t, exec (.msb ra) s = .next t ∧ t.res.toNat = msbW (s.u ra)
      ∧ Unchanged { res := true } s t := by
  obtain ⟨t, hexec, hres, hframe⟩ := exec_putRes_only (i := .msb ra) (s := s) rfl
  exact ⟨t, hexec, hres (s.msbW_u_lt ra).le, hframe⟩

theorem exec_lzc_value (s : State) (ra : Reg) :
    ∃ t, exec (.lzc ra) s = .next t
      ∧ (s.u ra = 0 → s.params.ok = true → t.res.toNat = s.params.lzcOfZero)
      ∧ (s.u ra ≠ 0 → t.res.toNat = s.W - 1 - msbW (s.u ra))
      ∧ Unchanged { res := true } s t := by
  obtain ⟨t, hexec, hres, hframe⟩ := exec_putRes_only (i := .lzc ra) (s := s) rfl
  refine ⟨t, hexec, fun hzero hok => ?_, fun hne => ?_, hframe⟩
  · rw [hzero, lzcW_zero] at hres
    exact hres (State.lzcOfZero_le hok)
  · rw [State.lzcW_u hne] at hres
    exact hres (by omega)

/-- Settles O31: MSB writes the index of the highest 1 bit, and LZC its distance from bit W - 1, from
which the index comes back. -/
theorem msbAndLzcCountBits : Obligations.MsbAndLzcCountBits := by
  intro s ra
  have hmsb := s.msbW_u_lt ra
  refine ⟨⟨encodedAs (.msb ra), ?_⟩, encodedAs (.lzc ra), ?_⟩
  · obtain ⟨t, hexec, hres, hframe⟩ := exec_msb_value s ra
    refine ⟨t, hexec, fun hzero => BitVec.eq_of_toNat_eq ?_, fun hne => ?_, hframe⟩
    · rw [hres, hzero]
      rfl
    · rw [hres]
      exact msbW_highest hne
  · obtain ⟨t, hexec, hzero, hnonzero, hframe⟩ := exec_lzc_value s ra
    refine ⟨t, hexec, hzero, fun hne => ?_, hframe⟩
    have hindex : s.W - 1 - (s.W - 1 - msbW (s.u ra)) = msbW (s.u ra) := by omega
    rw [hnonzero hne, hindex]
    exact ⟨by omega, msbW_highest hne⟩

end Sys2Proof.Machine
end

section
/-! PROOFS. Raw bytes and unsigned text: the window as a list of bytes, what a parse and an export do to
it, and the six commands (44_int_raw_text.md). -/

namespace Sys2Proof.Machine

/-! ## Windows (20_memory.md R50, R56) -/

/-- The rule of a buffer command whose window passes the end: BUF_RANGE for its own word. -/
theorem exec_windowPast_faulted {i : Instr} {s : State} {a n : Nat}
    (hw : windowOf s.W i = some (a, n)) (hpast : 65536 < a + n) :
    ∃ t, exec i s = .next t ∧ Faulted s t 4 (encode i) :=
  ⟨_, exec_windowPast hw hpast, takeFault_faulted s .bufRange (encode i)⟩

@[simp] theorem State.window_zero (s : State) (a : Nat) : s.window a 0 = [] := rfl

theorem State.window_succ (s : State) (a n : Nat) :
    s.window a (n + 1) = s.window a n ++ [s.bufByte (a + n)] := by
  simp [State.window, List.range_succ]

theorem State.drop_window (s : State) (a n k : Nat) :
    (s.window a n).drop k = s.window (a + k) (n - k) := by
  refine List.ext_getElem (by simp) fun j _ _ => ?_
  rw [List.getElem_drop, State.window_getElem, State.window_getElem, Nat.add_assoc]

/-- Inside the bytes just written, a byte reads as written. -/
theorem State.bufByte_putBytes_add (s : State) {a j : Nat} {bs : List Byte}
    (hfit : a + bs.length ≤ bufSize) (hj : j < bs.length) :
    (s.putBytes a bs).bufByte (a + j) = bs[j] := by
  rw [State.bufByte_putBytes s a bs _ hfit, dif_pos (by omega)]
  simp only [Nat.add_sub_cancel_left]

/-! ## Raw bytes (20_memory.md R51) -/

theorem leValue_append (xs ys : List Byte) :
    leValue (xs ++ ys) = leValue xs + 256 ^ xs.length * leValue ys := by
  induction xs with
  | nil => simp [leValue]
  | cons x xs ih =>
    simp only [List.cons_append, leValue, ih, List.length_cons, pow_succ']
    ring

theorem leValue_window (s : State) (a n : Nat) :
    leValue (s.window a n) = ∑ j ∈ Finset.range n, (s.bufByte (a + j)).toNat * 256 ^ j := by
  induction n with
  | zero => rfl
  | succ n ih =>
    rw [State.window_succ, leValue_append, ih, Finset.sum_range_succ, State.window_length]
    simp [leValue, Nat.mul_comm]

theorem leValue_lt (bs : List Byte) : leValue bs < 256 ^ bs.length := by
  induction bs with
  | nil => exact Nat.one_pos
  | cons b bs ih =>
    have := b.isLt
    rw [leValue, List.length_cons, pow_succ']
    omega

theorem State.eight_mul_W_div (s : State) : 8 * (s.W / 8) = s.W := by
  unfold State.W
  cases s.params.width <;> rfl

/-- W/8 bytes make a value of at most W bits. -/
theorem State.leValue_window_lt (s : State) (a : Nat) : leValue (s.window a (s.W / 8)) < 2 ^ s.W := by
  calc leValue (s.window a (s.W / 8))
      < 256 ^ (s.W / 8) := by simpa using leValue_lt (s.window a (s.W / 8))
    _ = 2 ^ s.W := by rw [show 256 = 2 ^ 8 from rfl, ← pow_mul, s.eight_mul_W_div]

theorem toNat_leBytes_getElem (v n j : Nat) (hj : j < (leBytes v n).length) :
    (leBytes v n)[j].toNat = v / 2 ^ (8 * j) % 256 := by
  simp [leBytes, pow_mul]

theorem exec_ldraw_value (s : State) (r : Reg) {addr : Half} (hfit : addr.toNat + s.W / 8 ≤ 65536) :
    ∃ t, exec (.ldraw r addr) s = .next t
      ∧ t.u r = ∑ j ∈ Finset.range (s.W / 8), (s.bufByte (addr.toNat + j)).toNat * 256 ^ j
      ∧ Unchanged { v := [r] } s t := by
  rw [← leValue_window]
  exact exec_putV_only_of_lt (inWindow_fits s _ _ hfit) (s.leValue_window_lt addr.toNat)

theorem exec_straw_bytes (s : State) (r : Reg) {addr : Half} (hfit : addr.toNat + s.W / 8 ≤ 65536) :
    ∃ t, exec (.straw r addr) s = .next t
      ∧ (∀ j < s.W / 8, (t.bufByte (addr.toNat + j)).toNat = s.u r / 2 ^ (8 * j) % 256)
      ∧ Unchanged { bufAddr := addr.toNat, bufLen := s.W / 8 } s t := by
  have hbytes : addr.toNat + (leBytes (s.u r) (s.W / 8)).length ≤ bufSize := by
    rwa [leBytes_length]
  refine ⟨_, inWindow_fits s _ _ hfit, fun j hj => ?_,
    (Unchanged.refl _ s).putBytes le_rfl (by simp) hbytes⟩
  rw [State.bufByte_putBytes_add s hbytes (by simpa using hj), toNat_leBytes_getElem]

/-- Settles O32: the bytes of a window, summed up from the first, are le of the window; a byte of the
value is its remainder by 256 after division by a power of it. -/
theorem rawBytesAreLittleEndian : Obligations.RawBytesAreLittleEndian := by
  intro s r addr
  exact ⟨encodedAs (.ldraw r addr), encodedAs (.straw r addr),
    fun hpast => ⟨exec_windowPast_faulted rfl hpast, exec_windowPast_faulted rfl hpast⟩,
    fun hfit => ⟨exec_ldraw_value s r hfit, exec_straw_bytes s r hfit⟩⟩

/-! ## Parsing digits (R158, R160) -/

theorem parseDigits_append (base M acc : Nat) (xs ys : List Byte) :
    parseDigits base M acc (xs ++ ys)
      = (parseDigits base M acc xs).bind fun acc' => parseDigits base M acc' ys := by
  induction xs generalizing acc with
  | nil => rfl
  | cons x xs ih =>
    cases hx : digitOf x base with
    | none => simp [parseDigits, hx]
    | some d => simp [parseDigits, hx, ih]

theorem parseDigits_eq_none_iff (base M acc : Nat) (cs : List Byte) :
    parseDigits base M acc cs = none ↔ ∃ c ∈ cs, digitOf c base = none := by
  induction cs generalizing acc with
  | nil => simp [parseDigits]
  | cons c cs ih =>
    cases hc : digitOf c base with
    | none => simp [parseDigits, hc]
    | some d => simp [parseDigits, hc, ih]

theorem State.not_allDigits_iff (s : State) (base a n : Nat) :
    ¬s.allDigits base a n ↔ ∃ c ∈ s.window a n, digitOf c base = none := by
  simp [State.allDigits, State.window]

theorem parseDigits_window_of_not_allDigits {s : State} {base a n : Nat} (M acc : Nat)
    (h : ¬s.allDigits base a n) : parseDigits base M acc (s.window a n) = none :=
  (parseDigits_eq_none_iff base M acc _).mpr ((s.not_allDigits_iff base a n).mp h)

theorem State.digitOf_eq_some_digitAt {s : State} {base a : Nat}
    (h : (digitOf (s.bufByte a) base).isSome = true) :
    digitOf (s.bufByte a) base = some (s.digitAt base a) := by
  obtain ⟨d, hd⟩ := Option.isSome_iff_exists.mp h
  rw [State.digitAt, hd, Option.getD_some]

theorem State.digitsValue_succ (s : State) (base a n : Nat) :
    s.digitsValue base a (n + 1) = s.digitsValue base a n * base + s.digitAt base (a + n) := by
  have shift : ∀ j ∈ Finset.range n, s.digitAt base (a + j) * base ^ (n + 1 - 1 - j)
      = s.digitAt base (a + j) * base ^ (n - 1 - j) * base := by
    intro j hj
    have hexp : n + 1 - 1 - j = n - 1 - j + 1 := by
      have := Finset.mem_range.mp hj
      omega
    rw [hexp, pow_succ, Nat.mul_assoc]
  rw [State.digitsValue, Finset.sum_range_succ, Finset.sum_congr rfl shift, ← Finset.sum_mul,
    Nat.add_sub_cancel, Nat.sub_self, pow_zero, Nat.mul_one, ← State.digitsValue]

/-- Reducing after every digit gives the number the digits denote, reduced once. -/
theorem parseDigits_window_of_allDigits {s : State} {base a n : Nat} (M : Nat)
    (h : s.allDigits base a n) :
    parseDigits base M 0 (s.window a n) = some (s.digitsValue base a n % M) := by
  induction n with
  | zero => simp [parseDigits, State.digitsValue]
  | succ n ih =>
    have hinit : s.allDigits base a n := fun j hj => h j (Nat.lt_succ_of_lt hj)
    have hlast := State.digitOf_eq_some_digitAt (h n n.lt_succ_self)
    rw [State.window_succ, parseDigits_append, ih hinit, State.digitsValue_succ]
    simp [parseDigits, hlast, Nat.add_mod, Nat.mul_mod]

theorem State.digitAt_lt (s : State) {base : Nat} (hbase : 0 < base) (a : Nat) :
    s.digitAt base a < base := by
  unfold State.digitAt
  cases hd : digitOf (s.bufByte a) base with
  | none => exact hbase
  | some d => exact digitOf_lt hd

theorem State.digitsValue_lt (s : State) {base : Nat} (hbase : 0 < base) (a n : Nat) :
    s.digitsValue base a n < base ^ n := by
  induction n with
  | zero => exact Nat.one_pos
  | succ n ih =>
    calc s.digitsValue base a (n + 1)
        = s.digitsValue base a n * base + s.digitAt base (a + n) := s.digitsValue_succ base a n
      _ < (s.digitsValue base a n + 1) * base := by
        rw [Nat.succ_mul]
        exact Nat.add_lt_add_left (s.digitAt_lt hbase _) _
      _ ≤ base ^ n * base := Nat.mul_le_mul_right base ih
      _ = base ^ (n + 1) := (pow_succ base n).symm

/-- W/4 hexadecimal digits make a value of at most W bits. -/
theorem State.hexValue_lt (s : State) (a : Nat) {k : Nat} (hk : k ≤ s.W / 4) :
    s.digitsValue 16 a k < 2 ^ s.W := by
  calc s.digitsValue 16 a k
      < 16 ^ k := s.digitsValue_lt (by decide) a k
    _ = 2 ^ (4 * k) := by rw [show 16 = 2 ^ 4 from rfl, pow_mul]
    _ ≤ 2 ^ s.W := Nat.pow_le_pow_right two_pos (by omega)

/-- The rule of a parse that succeeds (R157 (b)). -/
theorem exec_parsedInto_some {i : Instr} {s : State} {rd : Reg} {x : Nat}
    (hexec : exec i s = .next (s.parsedInto rd (some x))) :
    ∃ t, exec i s = .next t ∧ t.flag .ok = true ∧ t.u rd = x % 2 ^ s.W
      ∧ Unchanged { v := [rd], flags := [.ok] } s t :=
  ⟨_, hexec, State.flag_setFlag_same _ .ok true, s.u_putV_same rd x,
    (Unchanged.refl _ s).parsedInto (.head _) (.head _) (some x)⟩

/-- The rule of a parse that fails (R157 (b)). -/
theorem exec_parsedInto_none {i : Instr} {s : State} {rd : Reg}
    (hexec : exec i s = .next (s.parsedInto rd none)) :
    ∃ t, exec i s = .next t ∧ t.flag .ok = false ∧ Unchanged { flags := [.ok] } s t :=
  exec_setFlag_only hexec

/-- The rule of a command that parses the n characters at a as one number. -/
theorem exec_parseDigits_window {i : Instr} {s : State} {rd : Reg} {base a n : Nat}
    (hexec : exec i s
      = .next (s.parsedInto rd (parseDigits base (2 ^ s.W) 0 (s.window a n)))) :
    (s.allDigits base a n →
      ∃ t, exec i s = .next t ∧ t.flag .ok = true ∧ t.u rd = s.digitsValue base a n % 2 ^ s.W
        ∧ Unchanged { v := [rd], flags := [.ok] } s t)
    ∧ (¬s.allDigits base a n →
      ∃ t, exec i s = .next t ∧ t.flag .ok = false ∧ Unchanged { flags := [.ok] } s t) := by
  refine ⟨fun hall => ?_, fun hnot => ?_⟩
  · rw [parseDigits_window_of_allDigits _ hall] at hexec
    simpa only [Nat.mod_mod] using exec_parsedInto_some hexec
  · rw [parseDigits_window_of_not_allDigits _ _ hnot] at hexec
    exact exec_parsedInto_none hexec

/-- LDHEX parses the k rightmost characters of its window (R158). -/
theorem exec_ldhex_rightmost (s : State) (rd : Reg) {addr len : Half}
    (hfit : addr.toNat + len.toNat ≤ 65536) {k : Nat} (hk : k = min len.toNat (s.W / 4)) :
    exec (.ldhex rd addr len) s = .next (s.parsedInto rd
      (parseDigits 16 (2 ^ s.W) 0 (s.window (addr.toNat + len.toNat - k) k))) := by
  have hlen : k ≤ len.toNat := hk ▸ min_le_left _ _
  have hright : (s.window addr.toNat len.toNat).drop (len.toNat - k)
      = s.window (addr.toNat + len.toNat - k) k := by
    rw [State.drop_window, Nat.sub_sub_self hlen, Nat.add_sub_assoc hlen]
  rw [← hright, hk]
  exact inWindow_fits s _ _ hfit

/-- Settles O33: the characters read are a window of their own, of at most W/4 digits, so the number
they denote fits W bits. -/
theorem hexTextParses : Obligations.HexTextParses := by
  intro s rd addr len
  refine ⟨encodedAs (.ldhex rd addr len), exec_windowPast_faulted rfl, fun hfit k hk => ?_⟩
  have hparse := exec_parseDigits_window (exec_ldhex_rightmost s rd hfit hk)
  rwa [Nat.mod_eq_of_lt (s.hexValue_lt _ (hk ▸ min_le_right _ _))] at hparse

/-- Settles O35: the parse of the whole window, reduced modulo 2^W. -/
theorem decimalTextParses : Obligations.DecimalTextParses := by
  intro s rd addr len
  exact ⟨encodedAs (.lddec rd addr len), exec_windowPast_faulted rfl,
    fun hfit => exec_parseDigits_window (inWindow_fits s _ _ hfit)⟩

/-! ## The report of an export (R157 (d)) -/

@[simp] theorem State.bufByte_exported (s : State) (n a : Nat) :
    (s.exported n).bufByte a = s.bufByte a := rfl

@[simp] theorem State.res_exported (s : State) (n : Nat) : (s.exported n).res = BitVec.ofNat 32 n := rfl

/-- A window's length has 16 bits, so RES holds any number of characters that fit one. -/
theorem State.toNat_res_exported (s : State) {n : Nat} {cap : Half} (hn : n ≤ cap.toNat) :
    (s.exported n).res.toNat = n := by
  have := cap.isLt
  rw [State.res_exported, BitVec.toNat_ofNat, Nat.mod_eq_of_lt (by omega)]

@[simp] theorem State.flag_ok_exported (s : State) (n : Nat) :
    (s.exported n).flag .ok = decide (0 < n) := State.flag_setFlag_same _ .ok _

/-! ## STHEX (R159) -/

theorem exec_sthex_of_lt {s : State} {ra : Reg} {addr cap : Half}
    (hfit : addr.toNat + cap.toNat ≤ 65536) (hcap : cap.toNat < msbW (s.u ra) / 4 + 1) :
    exec (.sthex ra addr cap) s = .next (s.exported 0) :=
  (inWindow_fits s _ _ hfit).trans (congrArg _ (if_pos hcap))

theorem exec_sthex_of_le {s : State} {ra : Reg} {addr cap : Half}
    (hfit : addr.toNat + cap.toNat ≤ 65536) (hcap : msbW (s.u ra) / 4 + 1 ≤ cap.toNat) :
    exec (.sthex ra addr cap) s = .next ((s.putBytes addr.toNat
      (hexChars (s.u ra) (msbW (s.u ra) / 4 + 1))).exported (msbW (s.u ra) / 4 + 1)) :=
  (inWindow_fits s _ _ hfit).trans (congrArg _ (if_neg (Nat.not_lt.mpr hcap)))

theorem hexChars_getElem (v nd j : Nat) (hj : j < (hexChars v nd).length) :
    (hexChars v nd)[j] = charOfDigit (v / 16 ^ (nd - 1 - j) % 16) := by
  simp [hexChars]

/-- Settles O34: the digits are written where they fit, and otherwise RES and OK alone. -/
theorem hexTextPrintsMinimalDigits : Obligations.HexTextPrintsMinimalDigits := by
  intro s ra addr cap
  refine ⟨encodedAs (.sthex ra addr cap), exec_windowPast_faulted rfl, fun hfit nd hnd => ?_⟩
  obtain rfl : nd = msbW (s.u ra) / 4 + 1 := hnd
  refine ⟨fun hcap => ?_, fun hcap => ?_⟩
  · exact ⟨_, exec_sthex_of_lt hfit hcap, rfl, State.flag_ok_exported s 0,
      (Unchanged.refl _ s).exported rfl (.head _) 0⟩
  · have htext : addr.toNat + (hexChars (s.u ra) (msbW (s.u ra) / 4 + 1)).length ≤ bufSize := by
      rw [hexChars_length, bufSize]
      omega
    refine ⟨_, exec_sthex_of_le hfit hcap, fun j hj => ?_, State.toNat_res_exported _ hcap, by simp,
      ((Unchanged.refl _ s).putBytes le_rfl (by simp) htext).exported rfl (.head _) _⟩
    rw [State.bufByte_exported, State.bufByte_putBytes_add s htext (by simpa using hj),
      hexChars_getElem]

/-! ## Decimal exports (R161) -/

/-- The rule of a decimal export whose text does not fit: RES and OK are 0 and the window is
unspecified. -/
theorem exec_exportText_of_lt {i : Instr} {s : State} {a total : Nat} {cap : Half} {text : List Byte}
    (hexec : exec i s = .next (s.exportText a cap.toNat total text)) (hfit : a + cap.toNat ≤ 65536)
    (hcap : cap.toNat < total) :
    ∃ t, exec i s = .next t ∧ t.res = 0#32 ∧ t.flag .ok = false
      ∧ Unchanged { flags := [.ok], res := true, bufAddr := a, bufLen := cap.toNat } s t := by
  have hframe := (Unchanged.refl { flags := [.ok], res := true, bufAddr := a, bufLen := cap.toNat }
    s).exportText rfl (.head _) le_rfl le_rfl hfit (text := text) (.inr hcap)
  rw [State.exportText, if_pos hcap] at hexec hframe
  exact ⟨_, hexec, rfl, State.flag_ok_exported _ 0, hframe⟩

/-- The rule of a decimal export whose text fits: the text, its length in RES and OK = 1, and no byte
outside the window. The unspecified rest begins past the text, so it leaves the text alone. -/
theorem exec_exportText_of_le {i : Instr} {s : State} {a total : Nat} {cap : Half} {text : List Byte}
    (hexec : exec i s = .next (s.exportText a cap.toNat total text)) (hfit : a + cap.toNat ≤ 65536)
    (hcap : total ≤ cap.toNat) (hpos : 0 < total) (hlen : text.length = total) :
    ∃ t, exec i s = .next t ∧ (∀ j < total, text[j]? = some (t.bufByte (a + j)))
      ∧ t.res.toNat = total ∧ t.flag .ok = true
      ∧ Unchanged { flags := [.ok], res := true, bufAddr := a, bufLen := cap.toNat } s t := by
  have hframe := (Unchanged.refl { flags := [.ok], res := true, bufAddr := a, bufLen := cap.toNat }
    s).exportText rfl (.head _) le_rfl le_rfl hfit (.inl hlen)
  rw [State.exportText, if_neg (Nat.not_lt.mpr hcap)] at hexec hframe
  refine ⟨_, hexec, fun j hj => ?_, State.toNat_res_exported _ hcap, by simpa using hpos, hframe⟩
  have htext : a + text.length ≤ bufSize := by
    rw [hlen, bufSize]
    omega
  have hrest : a + total + (cap.toNat - total) ≤ bufSize := by
    rw [bufSize]
    omega
  rw [State.bufByte_exported, State.bufByte_putUnspecified_outside _ _ _ _ hrest (by omega),
    State.bufByte_putBytes_add s htext (hlen ▸ hj), List.getElem?_eq_getElem]

theorem charOfDigit_of_lt_ten {d : Nat} (hd : d < 10) : charOfDigit d = BitVec.ofNat 8 (0x30 + d) := by
  rw [charOfDigit, if_pos hd]

theorem decChars_eq_map (x : Nat) : decChars x = (List.range (ndig x)).map (digitChar x (ndig x)) := by
  rw [decChars, (decDigits_eq x).2, List.map_map]
  exact List.map_congr_left fun j _ => charOfDigit_of_lt_ten (Nat.mod_lt _ (by decide))

theorem decChars_getElem? {x j : Nat} (hj : j < ndig x) :
    (decChars x)[j]? = some (digitChar x (ndig x) j) := by
  rw [decChars_eq_map, List.getElem?_map, List.getElem?_range hj, Option.map_some]

theorem exec_stdec_export {s : State} {ra : Reg} {addr cap : Half}
    (hfit : addr.toNat + cap.toNat ≤ 65536) :
    exec (.stdec ra addr cap) s
      = .next (s.exportText addr.toNat cap.toNat (ndig (s.u ra)) (decChars (s.u ra))) :=
  inWindow_fits s _ _ hfit

/-- Settles O36: the digit count is ndig of the value, and the text its decimal characters. -/
theorem decimalTextPrints : Obligations.DecimalTextPrints := by
  intro s ra addr cap
  refine ⟨encodedAs (.stdec ra addr cap), exec_windowPast_faulted rfl, fun hfit =>
    ⟨ndig (s.u ra), (decDigits_eq (s.u ra)).1,
      exec_exportText_of_lt (exec_stdec_export hfit) hfit, fun hcap => ?_⟩⟩
  obtain ⟨t, hexec, hbytes, hreport⟩ := exec_exportText_of_le (exec_stdec_export hfit) hfit hcap
    (ndig_pos (s.u ra)) (decChars_length (s.u ra))
  refine ⟨t, hexec, fun j hj => ?_, hreport⟩
  exact Option.some.inj ((hbytes j hj).symm.trans (decChars_getElem? hj))

end Sys2Proof.Machine
end

section
/-! PROOFS. The signed layer: negation and magnitude through the signed reading, and signed text as a
sign before unsigned text (45_signed.md). -/

namespace Sys2Proof.Machine

/-! ## The signed reading of a register (40_primitives.md R100) -/

theorem State.zero_lt_W (s : State) : 0 < s.W := lt_of_lt_of_le (by decide) s.W_pos

theorem State.mag_eq_natAbs_sg (s : State) (r : Reg) : s.mag r = (s.sg r).natAbs :=
  magW_eq s.zero_lt_W (s.u_lt r)

theorem State.neg_iff_sg_lt_zero (s : State) (r : Reg) : s.neg r = true ↔ s.sg r < 0 :=
  signedVal_neg_iff s.zero_lt_W (s.u_lt r)

theorem State.sg_putV_of_lt {s : State} {x : Nat} (r : Reg) (hx : x < 2 ^ s.W) :
    (s.putV r x).sg r = signedVal s.W x := by
  rw [State.sg, State.putV_W, State.u_putV_same, Nat.mod_eq_of_lt hx]

/-! ## NEG (R170) -/

theorem negW_eq_bitsW_neg_signedVal (W v : Nat) : negW W v = bitsW W (-signedVal W v) :=
  bitsW_congr (by rw [← zero_sub, Int.sub_emod, ← signedVal_emod, ← Int.sub_emod])

/-- 2^(W-1) and -2^(W-1) have one pattern, so the most negative value is its own negation. -/
theorem negW_of_mostNegative {W v : Nat} (hW : 0 < W) (hv : v < 2 ^ W)
    (hmin : signedVal W v = -(2 : Int) ^ (W - 1)) : negW W v = v := by
  have hwrap : -signedVal W v = signedVal W v + ((2 ^ W : Nat) : Int) := by
    rw [hmin, two_pow_pred hW]
    push_cast
    ring
  calc negW W v
      = bitsW W (signedVal W v + ((2 ^ W : Nat) : Int)) := by
        rw [negW_eq_bitsW_neg_signedVal, hwrap]
    _ = bitsW W (signedVal W v) := bitsW_congr (Int.add_emod_right _ _)
    _ = v := bitsW_signedVal hv

/-- The negation of every other value lies in the signed range. -/
theorem signedVal_negW_of_ne {W v : Nat} (hW : 0 < W) (hv : v < 2 ^ W)
    (hne : signedVal W v ≠ -(2 : Int) ^ (W - 1)) : signedVal W (negW W v) = -signedVal W v := by
  obtain ⟨hlo, hhi⟩ := signedVal_range hW hv
  have hne' : signedVal W v ≠ -((2 ^ (W - 1) : Nat) : Int) := by exact_mod_cast hne
  rw [negW_eq_bitsW_neg_signedVal, signedVal_bitsW hW (by omega) (by omega)]

theorem exec_neg_value (s : State) (rd ra : Reg) :
    ∃ t, exec (.neg rd ra) s = .next t
      ∧ (t.u rd : Int) = (0 - (s.u ra : Int)) % (2 : Int) ^ s.W
      ∧ (s.sg ra = -(2 : Int) ^ (s.W - 1) → t.sg rd = s.sg ra)
      ∧ (s.sg ra ≠ -(2 : Int) ^ (s.W - 1) → t.sg rd = -s.sg ra)
      ∧ Unchanged { v := [rd] } s t := by
  have hsg := State.sg_putV_of_lt (s := s) rd (negW_lt s.W (s.u ra))
  refine ⟨_, rfl, ?_, fun hmin => hsg.trans ?_, fun hne => hsg.trans ?_,
    (Unchanged.refl _ s).putV (.head _) _⟩
  · rw [State.u_putV_same, negW, bitsW_mod, natCast_bitsW, Nat.cast_pow, Nat.cast_ofNat]
  · rw [negW_of_mostNegative s.zero_lt_W (s.u_lt ra) hmin, State.sg]
  · exact signedVal_negW_of_ne s.zero_lt_W (s.u_lt ra) hne

/-! ## ABS (R171) -/

theorem exec_abs_value (s : State) (rd ra : Reg) :
    ∃ t, exec (.abs rd ra) s = .next t
      ∧ t.u rd = (s.sg ra).natAbs ∧ (t.flag .neg = true ↔ s.sg ra < 0)
      ∧ Unchanged { v := [rd], flags := [.neg] } s t := by
  refine ⟨_, rfl, ?_, ?_, ((Unchanged.refl _ s).putV (.head _) _).setFlag (.head _) _⟩
  · have hlt : s.mag ra < 2 ^ s.W := magW_lt (s.u_lt ra)
    rw [State.u_setFlag, State.u_putV_same, Nat.mod_eq_of_lt hlt, s.mag_eq_natAbs_sg]
  · rw [State.flag_setFlag_same, s.neg_iff_sg_lt_zero]

/-- Settles O39: the pattern of the negated signed reading reads back as that number, except that
2^(W-1) reads as -2^(W-1). -/
theorem negateAndAbsolute : Obligations.NegateAndAbsolute := by
  intro s rd ra
  exact ⟨⟨encodedAs (.neg rd ra), exec_neg_value s rd ra⟩,
    encodedAs (.abs rd ra), exec_abs_value s rd ra⟩

/-! ## LDSDEC (R173) -/

theorem State.window_succ_eq_cons (s : State) (a n : Nat) :
    s.window a (n + 1) = s.bufByte a :: s.window (a + 1) n := by
  refine List.ext_getElem (by simp) fun j _ _ => ?_
  cases j with
  | zero => simp [State.window_getElem]
  | succ j => simp [State.window_getElem, Nat.add_comm, Nat.add_left_comm]

theorem dropSign_window (s : State) (a n : Nat) :
    dropSign (s.window a n) = s.window (a + s.signLength a n) (n - s.signLength a n) := by
  cases n with
  | zero => simp [dropSign]
  | succ n =>
    rw [State.window_succ_eq_cons, dropSign]
    by_cases hsign : s.bufByte a = charMinus ∨ s.bufByte a = charPlus
    · have hlen : s.signLength a (n + 1) = 1 := if_pos ⟨n.succ_pos, hsign⟩
      rw [if_pos hsign, hlen, Nat.add_sub_cancel]
    · have hlen : s.signLength a (n + 1) = 0 := if_neg fun h => hsign h.2
      rw [if_neg hsign, hlen, ← State.window_succ_eq_cons]
      rfl

theorem hasMinus_window_iff (s : State) (a n : Nat) :
    hasMinus (s.window a n) = true ↔ 0 < n ∧ s.bufByte a = charMinus := by
  cases n with
  | zero => simp [hasMinus]
  | succ n => simp [State.window_succ_eq_cons, hasMinus]

theorem State.signFactor_eq_ite_hasMinus (s : State) (a n : Nat) :
    s.signFactor a n = if hasMinus (s.window a n) then -1 else 1 :=
  if_congr (hasMinus_window_iff s a n).symm rfl rfl

/-- Negating the reduced magnitude last gives the signed number modulo 2^W. -/
theorem applySign_hasMinus_window (s : State) (W a n m : Nat) :
    applySign W (hasMinus (s.window a n)) (m % 2 ^ W) = bitsW W (s.signFactor a n * (m : Int)) := by
  have hmod : ((m % 2 ^ W : Nat) : Int) ≡ m [ZMOD ((2 ^ W : Nat) : Int)] := by
    rw [Int.natCast_mod]
    exact Int.mod_modEq _ _
  rw [applySign_eq _ _ (Nat.mod_lt m (Nat.two_pow_pos W)), s.signFactor_eq_ite_hasMinus]
  cases hasMinus (s.window a n) with
  | false => exact bitsW_congr ((one_mul (m : Int)).symm ▸ hmod)
  | true => exact bitsW_congr ((neg_one_mul (m : Int)).symm ▸ hmod.neg)

/-- LDSDEC parses the characters after the sign. -/
theorem exec_ldsdec_afterSign (s : State) (rd : Reg) {addr len : Half}
    (hfit : addr.toNat + len.toNat ≤ 65536) {i : Nat} (hi : i = s.signLength addr.toNat len.toNat) :
    exec (.ldsdec rd addr len) s = .next (s.parsedInto rd
      ((parseDigits 10 (2 ^ s.W) 0 (s.window (addr.toNat + i) (len.toNat - i))).map
        (applySign s.W (hasMinus (s.window addr.toNat len.toNat))))) := by
  rw [hi, ← dropSign_window]
  exact inWindow_fits s _ _ hfit

/-- Settles O40: the characters after the sign are a window of their own; its number is reduced, and
then negated for '-'. -/
theorem signedDecimalTextParses : Obligations.SignedDecimalTextParses := by
  intro s rd addr len
  refine ⟨encodedAs (.ldsdec rd addr len), exec_windowPast_faulted rfl, fun hfit i hi => ?_⟩
  have hparse := exec_ldsdec_afterSign s rd hfit hi
  refine ⟨fun hall => ?_, fun hnot => ?_⟩
  · rw [parseDigits_window_of_allDigits _ hall, Option.map_some, applySign_hasMinus_window] at hparse
    obtain ⟨t, hexec, hok, hval, hframe⟩ := exec_parsedInto_some hparse
    refine ⟨t, hexec, hok, ?_, hframe⟩
    rw [hval, bitsW_mod, natCast_bitsW, Nat.cast_pow, Nat.cast_ofNat]
  · rw [parseDigits_window_of_not_allDigits _ _ hnot, Option.map_none] at hparse
    exact exec_parsedInto_none hparse

/-! ## STSDEC (R174) -/

theorem signed_getElem?_add (b : Bool) (l : List Byte) (j : Nat) :
    (signed b l)[b.toNat + j]? = l[j]? := by
  cases b <;> simp [signed, Nat.add_comm]

theorem State.toNat_neg (s : State) (r : Reg) : (s.neg r).toNat = if s.sg r < 0 then 1 else 0 := by
  rw [Bool.toNat, Bool.cond_eq_ite]
  exact if_congr (s.neg_iff_sg_lt_zero r) rfl rfl

theorem exec_stsdec_export {s : State} {ra : Reg} {addr cap : Half}
    (hfit : addr.toNat + cap.toNat ≤ 65536) :
    exec (.stsdec ra addr cap) s
      = .next (s.exportText addr.toNat cap.toNat ((s.neg ra).toNat + ndig (s.sg ra).natAbs)
          (signed (s.neg ra) (decChars (s.sg ra).natAbs))) := by
  rw [← s.mag_eq_natAbs_sg]
  exact inWindow_fits s _ _ hfit

/-- Settles O41: the digit count is ndig of the magnitude, and the text its decimal characters behind
the sign. -/
theorem signedDecimalTextPrints : Obligations.SignedDecimalTextPrints := by
  intro s ra addr cap
  refine ⟨encodedAs (.stsdec ra addr cap), exec_windowPast_faulted rfl, fun hfit =>
    ⟨ndig (s.sg ra).natAbs, (decDigits_eq _).1, fun n hn => ?_⟩⟩
  obtain rfl : n = (s.neg ra).toNat := hn.trans (s.toNat_neg ra).symm
  have hexport := exec_stsdec_export (s := s) (ra := ra) hfit
  refine ⟨exec_exportText_of_lt hexport hfit, fun hcap => ?_⟩
  have hpos := ndig_pos (s.sg ra).natAbs
  obtain ⟨t, hexec, hbytes, hreport⟩ :=
    exec_exportText_of_le hexport hfit hcap (by omega) (by simp)
  refine ⟨t, hexec, fun hneg => ?_, fun j hj => ?_, hreport⟩
  · have hminus := hbytes 0 (by omega)
    rw [(s.neg_iff_sg_lt_zero ra).mpr hneg] at hminus
    exact (Option.some.inj hminus).symm
  · have hdigit := hbytes ((s.neg ra).toNat + j) (by omega)
    rw [signed_getElem?_add, decChars_getElem? hj, ← Nat.add_assoc] at hdigit
    exact (Option.some.inj hdigit).symm

end Sys2Proof.Machine
end

section
/-! PROOFS. Decimal scale: the copy commands, and the scale change as a product modulo 2^W up and a
truncating quotient down, with the soundness of the headroom estimate (46_dec_scale.md). -/

namespace Sys2Proof.Machine

/-! ## The value functions of a scale change (R183) -/

/-- Giving the reduced magnitude its sign is reducing the signed number. -/
theorem applySign_mod (W : Nat) (n : Bool) (m : Nat) :
    applySign W n (m % 2 ^ W) = bitsW W (if n then -(m : Int) else (m : Int)) := by
  have hmod : ((m % 2 ^ W : Nat) : Int) ≡ m [ZMOD ((2 ^ W : Nat) : Int)] := by
    rw [Int.natCast_mod]
    exact Int.mod_modEq _ _
  rw [applySign_eq _ _ (Nat.mod_lt m (Nat.two_pow_pos W))]
  cases n with
  | false => exact bitsW_congr hmod
  | true => exact bitsW_congr hmod.neg

/-- "Multiplying the magnitude and restoring the sign gives the same bits as multiplying the
two's-complement value" (R183). -/
theorem scaleUp_eq_bitsW {W v : Nat} (hW : 0 < W) (hv : v < 2 ^ W) (k : Nat) :
    scaleUp W v k = bitsW W (signedVal W v * (10 : Int) ^ k) := by
  rw [scaleUp, mulPow10_eq, applySign_mod, signedVal_eq_sign_mag hW hv, ite_mul]
  push_cast
  rw [neg_mul]

/-- A quotient truncated toward zero is no farther from zero than the dividend, so it stays in range. -/
theorem signedVal_bitsW_tdiv {W : Nat} (hW : 0 < W) {x : Int} (hlo : -((2 ^ (W - 1) : Nat) : Int) ≤ x)
    (hhi : x < ((2 ^ (W - 1) : Nat) : Int)) (d : Nat) :
    signedVal W (bitsW W (x.tdiv d)) = x.tdiv d := by
  have hnonneg : 0 ≤ x → 0 ≤ x.tdiv d := fun hx => Int.tdiv_nonneg hx (Int.natCast_nonneg d)
  have hnonpos : x ≤ 0 → x.tdiv d ≤ 0 := fun hx =>
    Int.neg_nonneg.mp (Int.neg_tdiv x d ▸ Int.tdiv_nonneg (by omega) (Int.natCast_nonneg d))
  have habs : (x.tdiv d).natAbs ≤ x.natAbs := Int.natAbs_tdiv_le_natAbs x d
  exact signedVal_bitsW hW (by omega) (by omega)

theorem scaleDown_eq_bitsW {W v : Nat} (hW : 0 < W) (hv : v < 2 ^ W) (k : Nat) :
    scaleDown W v k = bitsW W ((signedVal W v).tdiv ((10 ^ k : Nat) : Int)) := by
  have hlt : magW W v / 10 ^ k < 2 ^ W := (Nat.div_le_self _ _).trans_lt (magW_lt hv)
  rw [scaleDown, divPow10_eq (magW_lt hv), applySign_eq _ _ hlt, signedVal_eq_sign_mag hW hv]
  cases topBit W v with
  | false => rfl
  | true => simp [Int.neg_tdiv]

theorem scaleDownInx_iff {W v : Nat} (hW : 0 < W) (hv : v < 2 ^ W) (k : Nat) :
    scaleDownInx W v k = true ↔ ¬((10 : Int) ^ k ∣ signedVal W v) := by
  rw [scaleDownInx, modPow10NeZero_eq (magW_lt hv), decide_eq_true_iff, magW_eq hW hv, Ne,
    ← Nat.dvd_iff_mod_eq_zero, ← Int.natCast_dvd, Nat.cast_pow, Nat.cast_ofNat]

/-! ## The scale change of a register (R184) -/

theorem State.rescale_of_ge {s : State} {ra : Reg} {t : Nat} (rd : Reg) (ht : s.scale ra ≤ t) :
    s.rescale rd ra t
      = ((s.putV rd (bitsW s.W (s.sg ra * (10 : Int) ^ (t - s.scale ra)))).putS rd t).setFlag
          .inx false := by
  rcases ht.lt_or_eq with hlt | rfl
  · rw [State.rescale, if_pos hlt, scaleUp_eq_bitsW s.zero_lt_W (s.u_lt ra), State.sg]
  · rw [State.rescale, if_neg (lt_irrefl _), if_neg (lt_irrefl _), Nat.sub_self, pow_zero, mul_one,
      State.sg, bitsW_signedVal (s.u_lt ra)]

theorem State.rescale_of_le {s : State} {ra : Reg} {t : Nat} (rd : Reg) (ht : t ≤ s.scale ra) :
    s.rescale rd ra t
      = ((s.putV rd (bitsW s.W ((s.sg ra).tdiv ((10 ^ (s.scale ra - t) : Nat) : Int)))).putS rd
          t).setFlag .inx (decide ¬((10 : Int) ^ (s.scale ra - t) ∣ s.sg ra)) := by
  rcases ht.lt_or_eq with hlt | rfl
  · have hinx : scaleDownInx s.W (s.u ra) (s.scale ra - t)
        = decide ¬((10 : Int) ^ (s.scale ra - t) ∣ s.sg ra) :=
      Bool.eq_iff_iff.mpr ((scaleDownInx_iff s.zero_lt_W (s.u_lt ra) _).trans decide_eq_true_iff.symm)
    rw [State.rescale, if_neg hlt.not_gt, if_pos hlt, scaleDown_eq_bitsW s.zero_lt_W (s.u_lt ra),
      hinx, State.sg]
  · rw [State.rescale, if_neg (lt_irrefl _), if_neg (lt_irrefl _)]
    simp [State.sg, bitsW_signedVal (s.u_lt ra)]

/-- An immediate scale is stored as it stands: S[rd] has its 32 bits. -/
theorem State.get_putS_toNat (s : State) (r : Reg) (n : BitVec 32) :
    (s.putS r n.toNat).sc.get r = n := by
  rw [State.get_putS, if_pos rfl, BitVec.ofNat_toNat, BitVec.setWidth_eq]

theorem State.get_rescale (s : State) (rd ra : Reg) (imm : Imm) :
    (s.rescale rd ra imm.toNat).sc.get rd = imm := by
  obtain ⟨x, b, heq⟩ := rescale_eq s rd ra imm.toNat
  rw [heq, State.setFlag_sc, State.get_putS_toNat]

section
variable {s : State} {ra : Reg} {t : Nat} (rd : Reg)

theorem State.u_rescale_of_ge (ht : s.scale ra ≤ t) :
    ((s.rescale rd ra t).u rd : Int)
      = s.sg ra * (10 : Int) ^ (t - s.scale ra) % (2 : Int) ^ s.W := by
  rw [State.rescale_of_ge rd ht, State.u_setFlag, State.u_putS, State.u_putV_same, bitsW_mod,
    natCast_bitsW, Nat.cast_pow, Nat.cast_ofNat]

theorem State.inx_rescale_of_ge (ht : s.scale ra ≤ t) : (s.rescale rd ra t).flag .inx = false := by
  rw [State.rescale_of_ge rd ht, State.flag_setFlag_same]

/-- A product in the signed range is read back exactly. -/
theorem State.sg_rescale_of_ge (ht : s.scale ra ≤ t)
    (hrange : (s.sg ra * (10 : Int) ^ (t - s.scale ra)).natAbs < 2 ^ (s.W - 1)) :
    (s.rescale rd ra t).sg rd = s.sg ra * (10 : Int) ^ (t - s.scale ra) := by
  rw [State.rescale_of_ge rd ht]
  exact (State.sg_putV_of_lt rd (bitsW_lt _ _)).trans
    (signedVal_bitsW s.zero_lt_W (by omega) (by omega))

theorem State.sg_rescale_of_le (ht : t ≤ s.scale ra) :
    (s.rescale rd ra t).sg rd = (s.sg ra).tdiv ((10 : Int) ^ (s.scale ra - t)) := by
  obtain ⟨hlo, hhi⟩ := signedVal_range s.zero_lt_W (s.u_lt ra)
  have hpow : ((10 ^ (s.scale ra - t) : Nat) : Int) = (10 : Int) ^ (s.scale ra - t) := Nat.cast_pow _ _
  rw [State.rescale_of_le rd ht, ← hpow]
  exact (State.sg_putV_of_lt rd (bitsW_lt _ _)).trans
    (signedVal_bitsW_tdiv s.zero_lt_W hlo hhi _)

theorem State.inx_rescale_of_le (ht : t ≤ s.scale ra) :
    (s.rescale rd ra t).flag .inx = true ↔ ¬((10 : Int) ^ (s.scale ra - t) ∣ s.sg ra) := by
  rw [State.rescale_of_le rd ht, State.flag_setFlag_same, decide_eq_true_iff]

end

/-- Settles O43: up, the pattern of the exact product; down, the pattern of the truncated quotient,
which is in range. -/
theorem precisionChange : Obligations.PrecisionChange := by
  intro s rd ra imm
  exact ⟨encodedAs (.dprec rd ra imm), s.rescale rd ra imm.toNat, rfl, s.get_rescale rd ra imm,
    fun hup => ⟨State.u_rescale_of_ge rd hup, State.inx_rescale_of_ge rd hup⟩,
    fun hdown => ⟨State.sg_rescale_of_le rd hdown.le, State.inx_rescale_of_le rd hdown.le⟩,
    (Unchanged.refl _ s).rescale (.head _) (.head _) (.head _) ra imm.toNat⟩

/-! ## The headroom estimate (R186) -/

/-- A magnitude with L leading zeros has W - L bits. -/
theorem lt_two_pow_sub_lzcW {p : Params} {m : Nat} (hm0 : m ≠ 0) (hm : m < 2 ^ p.width.bits) :
    lzcW p m < p.width.bits ∧ m < 2 ^ (p.width.bits - lzcW p m) := by
  have hW : 0 < p.width.bits := by cases p.width <;> decide
  have hmsb := msbW_lt hW hm
  have hbits : p.width.bits - (p.width.bits - 1 - msbW m) = msbW m + 1 := by omega
  rw [lzcW, if_neg hm0, hbits]
  exact ⟨by omega, lt_two_pow_msbW_succ m⟩

/-- "(10k+2) div 3 is the ceiling of 10k/3, an upper bound on the bits 10^k adds": 1000 ≤ 1024. -/
theorem ten_pow_le_two_pow (k : Nat) : 10 ^ k ≤ 2 ^ ((10 * k + 2) / 3) := by
  refine le_of_pow_le_pow_left₀ three_ne_zero (Nat.zero_le _) ?_
  calc (10 ^ k) ^ 3
      = (10 ^ 3) ^ k := pow_right_comm _ _ _
    _ ≤ (2 ^ 10) ^ k := Nat.pow_le_pow_left (by decide) k
    _ = 2 ^ (10 * k) := (pow_mul _ _ _).symm
    _ ≤ 2 ^ ((10 * k + 2) / 3 * 3) := Nat.pow_le_pow_right two_pos (by omega)
    _ = (2 ^ ((10 * k + 2) / 3)) ^ 3 := pow_mul _ _ _

/-- The spec's default keeps two bits of margin. -/
theorem mul_ten_pow_lt_of_default {W L k m : Nat} (hL : L < W) (hm : m < 2 ^ (W - L))
    (hok : (10 * k + 2) / 3 + 2 ≤ L) : m * 10 ^ k < 2 ^ (W - 1) :=
  calc m * 10 ^ k
      < 2 ^ (W - L) * 10 ^ k := Nat.mul_lt_mul_of_pos_right hm (Nat.pow_pos (by decide))
    _ ≤ 2 ^ (W - L) * 2 ^ ((10 * k + 2) / 3) := Nat.mul_le_mul_left _ (ten_pow_le_two_pow k)
    _ = 2 ^ (W - L + (10 * k + 2) / 3) := (pow_add _ _ _).symm
    _ ≤ 2 ^ (W - 1) := Nat.pow_le_pow_right two_pos (by omega)

theorem mul_ten_pow_lt_of_headroomSound {W L k m : Nat} (hL : L < W) (hm : m < 2 ^ (W - L))
    (hok : headroomSound W L k = true) : m * 10 ^ k < 2 ^ (W - 1) := by
  rw [headroomSound, decide_eq_false hL.not_ge, Bool.false_or, Bool.and_eq_true, decide_eq_true_iff,
    decide_eq_true_iff] at hok
  obtain ⟨-, hbound⟩ := hok
  have hle : m * 10 ^ k ≤ (2 ^ (W - L) - 1) * 10 ^ k :=
    Nat.mul_le_mul_right _ (Nat.le_sub_one_of_lt hm)
  exact (hle.trans hbound).trans_lt (Nat.sub_one_lt_of_lt (Nat.two_pow_pos _))

/-- Property P1 (R186): where the estimate allows k > 0 digits more, neither sign of the product
wraps. -/
theorem mul_ten_pow_lt_of_headroomOk {p : Params} {k m : Nat} (hk : 0 < k)
    (hok : headroomOk p (lzcW p m) k = true) (hm : m < 2 ^ p.width.bits) :
    m * 10 ^ k < 2 ^ (p.width.bits - 1) := by
  rcases eq_or_ne m 0 with rfl | hm0
  · rw [zero_mul]
    exact Nat.two_pow_pos _
  obtain ⟨hL, hmag⟩ := lt_two_pow_sub_lzcW hm0 hm
  rw [headroomOk, decide_eq_false hk.ne', Bool.false_or] at hok
  split at hok
  · exact mul_ten_pow_lt_of_default hL hmag (of_decide_eq_true hok)
  · exact mul_ten_pow_lt_of_headroomSound hL hmag (Bool.and_eq_true_iff.mp hok).1

/-! ## The checked scale change (R187) -/

theorem denotes_mul_ten_pow (x : Int) {sc t : Nat} (ht : sc ≤ t) :
    denotes (x * (10 : Int) ^ (t - sc)) t = denotes x sc := by
  have hsplit : (10 : ℚ) ^ t = 10 ^ sc * 10 ^ (t - sc) := by rw [← pow_add, Nat.add_sub_cancel' ht]
  rw [denotes, denotes, hsplit]
  push_cast
  exact mul_div_mul_right _ _ (pow_ne_zero _ (by norm_num))

/-- The product an accepted increase stores lies in the signed range. -/
theorem State.natAbs_mul_ten_pow_lt {s : State} {ra : Reg} {k : Nat} (hk : 0 < k)
    (hok : headroomOk s.params (lzcW s.params (s.sg ra).natAbs) k = true) :
    (s.sg ra * (10 : Int) ^ k).natAbs < 2 ^ (s.W - 1) := by
  have hmag : (s.sg ra).natAbs < 2 ^ s.W := s.mag_eq_natAbs_sg ra ▸ magW_lt (s.u_lt ra)
  rw [Int.natAbs_mul, Int.natAbs_pow]
  exact mul_ten_pow_lt_of_headroomOk hk hok hmag

theorem exec_dprecs_of_gt {s : State} {ra : Reg} {imm : Imm} (rd : Reg) (hup : s.scale ra < imm.toNat) :
    exec (.dprecs rd ra imm) s
      = if headroomOk s.params (lzcW s.params (s.sg ra).natAbs) (imm.toNat - s.scale ra) then
          .next ((s.rescale rd ra imm.toNat).setFlag .ok true)
        else .next (s.setFlag .ok false) := by
  rw [← s.mag_eq_natAbs_sg]
  exact if_pos hup

theorem exec_dprecs_of_le {s : State} {ra : Reg} {imm : Imm} (rd : Reg)
    (hdown : imm.toNat ≤ s.scale ra) :
    exec (.dprecs rd ra imm) s = .next ((s.rescale rd ra imm.toNat).setFlag .ok true) :=
  if_neg hdown.not_gt

/-- What a successful DPRECS adds to the scale change: OK = 1. -/
theorem exec_rescale_ok {i : Instr} {s : State} {rd ra : Reg} {imm : Imm}
    (hexec : exec i s = .next ((s.rescale rd ra imm.toNat).setFlag .ok true)) :
    ∃ t, exec i s = .next t ∧ t.flag .ok = true ∧ t.sc.get rd = imm
      ∧ t.flag .inx = (s.rescale rd ra imm.toNat).flag .inx
      ∧ t.sg rd = (s.rescale rd ra imm.toNat).sg rd
      ∧ Unchanged { v := [rd], sc := [rd], flags := [.inx, .ok] } s t :=
  ⟨_, hexec, State.flag_setFlag_same _ _ _, s.get_rescale rd ra imm,
    State.flag_setFlag_ne _ _ (by decide), rfl,
    ((Unchanged.refl _ s).rescale (.head _) (.head _) (.head _) ra _).setFlag (.tail _ (.head _)) _⟩

/-- Settles O44: an accepted increase is in range by P1, so the product is exact; a refused one writes
OK alone; every other change is DPREC's. -/
theorem checkedPrecisionChange : Obligations.CheckedPrecisionChange := by
  intro s rd ra imm
  refine ⟨encodedAs (.dprecs rd ra imm), fun hup hok => ?_, fun hup hno => ?_, fun hdown => ?_⟩
  · have hrange := State.natAbs_mul_ten_pow_lt (Nat.sub_pos_of_lt hup) hok
    obtain ⟨t, hexec, hflag, hscale, hinx, hsg, hframe⟩ :=
      exec_rescale_ok ((exec_dprecs_of_gt rd hup).trans (if_pos hok))
    rw [State.inx_rescale_of_ge rd hup.le] at hinx
    rw [State.sg_rescale_of_ge rd hup.le hrange] at hsg
    refine ⟨t, hexec, hflag, hinx, hscale, hsg, ?_, hframe⟩
    have hscale' : t.scale rd = imm.toNat := congrArg BitVec.toNat hscale
    rw [hsg, hscale', denotes_mul_ten_pow _ hup.le]
  · exact exec_setFlag_only ((exec_dprecs_of_gt rd hup).trans (if_neg (ne_true_of_eq_false hno)))
  · obtain ⟨t, hexec, hflag, hscale, hinx, hsg, hframe⟩ :=
      exec_rescale_ok (exec_dprecs_of_le rd hdown)
    exact ⟨t, hexec, hflag, hscale, hsg.trans (State.sg_rescale_of_le rd hdown),
      hinx ▸ State.inx_rescale_of_le rd hdown, hframe⟩

/-! ## SSET, SGET and DMOV (R180 to R182) -/

theorem exec_sset_value (s : State) (rd : Reg) (imm : Imm) :
    ∃ t, exec (.sset rd imm) s = .next t ∧ t.sc.get rd = imm ∧ Unchanged { sc := [rd] } s t :=
  ⟨_, rfl, s.get_putS_toNat rd imm, (Unchanged.refl _ s).putS (.head _) _⟩

theorem exec_sget_value (s : State) (ra : Reg) :
    ∃ t, exec (.sget ra) s = .next t ∧ t.res = s.sc.get ra ∧ Unchanged { res := true } s t :=
  ⟨_, rfl, (BitVec.ofNat_toNat _ _).trans (BitVec.setWidth_eq _), (Unchanged.refl _ s).putRes rfl _⟩

theorem exec_dmov_value (s : State) (rd ra : Reg) :
    ∃ t, exec (.dmov rd ra) s = .next t ∧ t.u rd = s.u ra ∧ t.sc.get rd = s.sc.get ra
      ∧ Unchanged { v := [rd], sc := [rd] } s t := by
  refine ⟨_, rfl, ?_, State.get_putS_toNat _ rd _,
    ((Unchanged.refl _ s).putV (.head _) _).putS (.head _) _⟩
  rw [State.u_putS, State.u_putV_same, Nat.mod_eq_of_lt (s.u_lt ra)]

/-- Settles O42: each is one write per location of its Writes list, of a value that fits it. -/
theorem scaleAccessAndDecimalCopy : Obligations.ScaleAccessAndDecimalCopy := by
  intro s rd ra imm
  exact ⟨⟨encodedAs (.sset rd imm), exec_sset_value s rd imm⟩,
    ⟨encodedAs (.sget ra), exec_sget_value s ra⟩,
    encodedAs (.dmov rd ra), exec_dmov_value s rd ra⟩

end Sys2Proof.Machine
end

section
/-! PROOFS. The command word's round trip, and a step that takes a word (30_encoding.md R80, R83;
60_exceptions.md R240 to R245). -/

namespace Sys2Proof.Machine

/-! ## Decoding an encoding (R70, R71, R78) -/

/-- The word of a command has no reserved bit set: the fields its format does not use are 0. -/
theorem reservedClear_encode (i : Instr) : reservedClear i (encode i) = true := by
  cases i with
  | ldraw rd addr => exact Laws.ReservedClear.ldraw rd addr
  | straw ra addr => exact Laws.ReservedClear.straw ra addr
  | _ =>
    rw [encode, reservedClear_packWord]
    rfl

/-- Settles O1: the word of a command selects it, has no reserved bit set, and names two different
destinations where the format has two. -/
theorem decodeOfEncodeIsTheCommand : Obligations.DecodeOfEncodeIsTheCommand := by
  intro i hwf
  have hdiff : i.destsDiffer = true := hwf
  simp only [decodeWord, instrOf_encode, reservedClear_encode, hdiff, if_true]

/-- Settles O5: each of the thirteen words is a literal, decoded by evaluation. -/
theorem workedEncodingsDecode : Obligations.WorkedEncodingsDecode := by
  unfold Obligations.WorkedEncodingsDecode
  decide

/-! ## Executing a command, with or without a fault (R240, R241) -/

/-- Everything a command does to FAULT and FCMD: it completes within its "Writes" list, which never
holds them, or it is rejected and takes its own fault for its own word. -/
theorem exec_next_cases {i : Instr} {s t : State} (h : exec i s = .next t) :
    Unchanged (writesOf i s) s t
    ∨ (i.destsDiffer = false ∧ t = s.takeFault .destConflict (encode i))
    ∨ (∃ an : Nat × Nat, windowOf s.W i = some an ∧ 65536 < an.1 + an.2
        ∧ t = s.takeFault .bufRange (encode i)) := by
  by_cases hacc : Accepted i s
  · obtain ⟨u, hu, hframe⟩ := hacc.completesWithinWrites
    cases h.symm.trans hu
    exact .inl hframe
  cases hd : i.destsDiffer with
  | false =>
    cases h.symm.trans (exec_destConflict s hd)
    exact .inr (.inl ⟨rfl, rfl⟩)
  | true =>
    have hpast : ∃ an : Nat × Nat, windowOf s.W i = some an ∧ 65536 < an.1 + an.2 := by
      simpa [Accepted, hd] using hacc
    obtain ⟨an, hw, hlt⟩ := hpast
    cases h.symm.trans (exec_windowPast hw hlt)
    exact .inr (.inr ⟨an, hw, hlt, rfl⟩)

theorem State.halted_congr {s t : State} (h : t.fault = s.fault) : t.halted = s.halted := by
  rw [State.halted, State.halted, h]

theorem faultCode_range (c : FaultCause) : 1 ≤ c.code ∧ c.code ≤ 4 := by
  cases c <;> decide

/-- A command that leaves a running engine halted took a fault for its own word. -/
theorem exec_halts {i : Instr} {s t : State} (hs : s.halted = false) (h : exec i s = .next t)
    (ht : t.halted = true) : ∃ c : FaultCause, t = s.takeFault c (encode i) := by
  rcases exec_next_cases h with ⟨-, hfault, -⟩ | ⟨-, rfl⟩ | ⟨-, -, -, rfl⟩
  · rw [State.halted_congr hfault, hs] at ht
    cases ht
  · exact ⟨_, rfl⟩
  · exact ⟨_, rfl⟩

/-- Settles O8: a running engine halts by a fault of the decoder, or by one of the command the word
decodes to, whose encoding is the word. -/
theorem faultsArePrecise : Obligations.FaultsArePrecise := by
  intro s t w hs hstep ht
  have precise (c : FaultCause) : ∃ code, 1 ≤ code ∧ code ≤ 4 ∧ Faulted s (s.takeFault c w) code w :=
    ⟨c.code, (faultCode_range c).1, (faultCode_range c).2, takeFault_faulted s c w⟩
  rcases acceptWord_cases s w with ⟨hh, -⟩ | ⟨-, i, hdec, hrun⟩ | ⟨-, c, -, hsettled⟩
  · cases hs.symm.trans hh
  · obtain ⟨c, rfl⟩ := exec_halts hs ((step_writeCmd_of_run hrun).symm.trans hstep) ht
    rw [encode_of_decodeWord hdec]
    exact precise c
  · cases (step_writeCmd_of_settled hsettled).symm.trans hstep
    exact precise c

/-- Settles O7: a pending write of the word is taken first; withFetchWord is one, for a 64-bit word. -/
theorem stepRunsTheDecodedCommand : Obligations.StepRunsTheDecodedCommand := by
  intro s w i hs hdec
  have hpending := step_writeCmd_command hs hdec
  refine ⟨hpending, ?_, fun rest => ?_⟩
  · have hword : BitVec.ofNat 64 (w.toNat % 2 ^ 64) = w := by
      rw [Nat.mod_eq_of_lt w.isLt, BitVec.ofNat_toNat, BitVec.setWidth_eq]
    rw [State.withFetchWord, hword, hpending]
  · exact step_writeCmd_command (s := { s with inbox := rest }) hs hdec

/-! ## The host's accesses (60_exceptions.md R242, R252) -/

/-- The host's write of a BUF byte: BUF is big enough for every 16-bit address. -/
theorem step_writeBuf (s : State) (a : Half) (b : Byte) :
    ∃ t, step (s.withPending [.writeBuf a b]) = .next t ∧ t.bufByte a.toNat = b
      ∧ Unchanged { bufAddr := a.toNat, bufLen := 1 } s t := by
  have hfit : a.toNat + [b].length ≤ bufSize := a.isLt
  exact ⟨s.putBytes a.toNat [b], rfl, s.bufByte_putBytes_add (j := 0) hfit one_pos,
    (Unchanged.refl _ s).putBytes le_rfl le_rfl hfit⟩

/-- Settles O9: the word is discarded, and the host's other actions do not ask whether the engine is
halted; a byte written to BUF leaves FAULT alone. -/
theorem haltedEngineDiscardsCommands : Obligations.HaltedEngineDiscardsCommands := by
  intro s hs
  refine ⟨fun w => step_writeCmd_halted w hs, fun _ => rfl, fun _ => rfl, fun a b => ?_⟩
  obtain ⟨t, hstep, hbyte, hframe⟩ := step_writeBuf s a b
  have hfault : t.fault = s.fault := hframe.2.1
  exact ⟨t, hstep, hbyte, (State.halted_congr hfault).trans hs, hframe⟩

/-- Settles O11: each read records the register or byte, and an empty list of actions is the wait. -/
theorem hostAccessesHaveNoOtherEffect : Obligations.HostAccessesHaveNoOtherEffect := by
  intro s
  refine ⟨rfl, rfl, rfl, rfl, fun _ => rfl, fun a b => step_writeBuf s a b, fun hempty => ?_⟩
  simp only [step, State.advance, hempty]

/-! ## Leaving the halted state (R245; 70_reset_and_hazards.md R260) -/

/-- Settles O10: a command either leaves FAULT alone or sets VALID; of the host's actions only a reset
writes one of the registers. -/
theorem onlyResetLeavesHalt : Obligations.OnlyResetLeavesHalt := by
  refine ⟨fun i s t hexec hs => ?_, fun s t hs hstep => ?_⟩
  · rcases exec_next_cases hexec with ⟨-, hfault, -⟩ | ⟨-, rfl⟩ | ⟨-, -, -, rfl⟩
    · exact (State.halted_congr hfault).trans hs
    · exact faultWord_halts s _ _
    · exact faultWord_halts s _ _
  · have kept : s.fault = s.fault ∧ s.fcmd = s.fcmd ∧ s.v = s.v ∧ s.sc = s.sc ∧ s.status = s.status
      ∧ s.res = s.res := ⟨rfl, rfl, rfl, rfl, rfl, rfl⟩
    rcases step_cases hstep with ⟨-, rfl⟩ | ⟨act, rest, hinbox, ⟨w, -, -, rfl⟩ | ⟨w, c, -, hrun, -⟩
      | ⟨w, i, -, hrun, -⟩ | ⟨p, -, rfl⟩ | ⟨a, -, rfl⟩ | ⟨a, b, -, rfl⟩ | ⟨rfl, -⟩⟩
    · exact .inl kept
    · exact .inl kept
    · cases hs.symm.trans hrun
    · cases hs.symm.trans hrun
    · exact .inl kept
    · exact .inl kept
    · exact .inl kept
    · exact .inr ⟨rest, hinbox⟩

/-- The contents of V after a reset are free, but for their width (log 4). -/
theorem toNat_get_freeVFile_lt {W : Nat} (event : Nat) (r : Reg) :
    ((freeVFile W event).get r).toNat < 2 ^ W := by
  rw [freeVFile, Vector.get_eq_getElem, Vector.getElem_ofFn, BitVec.toNat_ofNat]
  exact (Nat.mod_le _ _).trans_lt (Nat.mod_lt _ (Nat.two_pow_pos W))

/-- Settles O12: the step is assertReset, whose fields are the rule's. -/
theorem resetClearsThePortRegisters : Obligations.ResetClearsThePortRegisters := by
  intro s
  have notHalted : s.assertReset.halted = false := by simp [State.halted]
  exact ⟨s.assertReset, rfl, rfl, rfl, rfl, rfl, notHalted, toNat_get_freeVFile_lt s.fresh, rfl, rfl,
    rfl⟩

end Sys2Proof.Machine
end

section
/-! PROOFS. The invariants: the state's shape, and that FAULT and FCMD tell the truth (10_state.md). -/

namespace Sys2Proof.Machine

/-! ## What keeps the invariant -/

namespace State.Inv

/-- The reset state of a legal choice of parameters: V reads 0 there (log 1), BUF lists no byte. -/
theorem resetWith {p : Params} (hp : p.ok = true) : (State.resetWith p).Inv where
  vWidth r := by
    have hzero : (State.resetWith p).v.get r = 0#512 := Vector.getElem_replicate r.isLt
    rw [hzero, BitVec.toNat_zero]
    exact Nat.two_pow_pos _
  bufCanonical := rfl
  paramsOk := hp
  statusReserved i _ := by simp [State.resetWith]
  epochPast := Nat.one_pos

variable {s : State}

/-- The fields that the invariant does not mention, and a longer list of past events. -/
theorem congr {t : State} (h : s.Inv) (hparams : t.params = s.params) (hv : t.v = s.v)
    (hstatus : t.status = s.status) (hbuf : t.buf = s.buf) (hepoch : t.bufEpoch = s.bufEpoch)
    (hfresh : t.fresh = s.fresh) : t.Inv where
  vWidth r := by
    rw [hv, State.W, hparams]
    exact h.vWidth r
  bufCanonical := hbuf ▸ h.bufCanonical
  paramsOk := hparams ▸ h.paramsOk
  statusReserved := hstatus ▸ h.statusReserved
  epochPast := by
    rw [hepoch, hfresh]
    exact h.epochPast

theorem putV (h : s.Inv) (r : Reg) (x : Nat) : (s.putV r x).Inv where
  vWidth q := by
    by_cases hq : q = r
    · rw [hq, State.toNat_get_putV]
      exact Nat.mod_lt _ (Nat.two_pow_pos _)
    · rw [State.get_putV_ne s x hq]
      exact h.vWidth q
  bufCanonical := h.bufCanonical
  paramsOk := h.paramsOk
  statusReserved := h.statusReserved
  epochPast := h.epochPast

theorem setFlag (h : s.Inv) (f : Flag) (b : Bool) : (s.setFlag f b).Inv where
  vWidth := h.vWidth
  bufCanonical := h.bufCanonical
  paramsOk := h.paramsOk
  statusReserved i hi := by
    rw [State.status_setFlag_high s f b i hi]
    exact h.statusReserved i hi
  epochPast := h.epochPast

theorem putBytes (h : s.Inv) (addr : Nat) (bytes : List Byte) : (s.putBytes addr bytes).Inv where
  vWidth := h.vWidth
  bufCanonical := Memory.wf_putList addr bytes h.bufCanonical
  paramsOk := h.paramsOk
  statusReserved := h.statusReserved
  epochPast := h.epochPast

theorem putUnspecified (h : s.Inv) (addr n : Nat) : (s.putUnspecified addr n).Inv where
  vWidth := h.vWidth
  bufCanonical := Memory.wf_putList addr (freeBytes s.fresh addr n) h.bufCanonical
  paramsOk := h.paramsOk
  statusReserved := h.statusReserved
  epochPast := Nat.lt_succ_of_lt h.epochPast

theorem putS (h : s.Inv) (r : Reg) (n : Nat) : (s.putS r n).Inv := h.congr rfl rfl rfl rfl rfl rfl

theorem putRes (h : s.Inv) (n : Nat) : (s.putRes n).Inv := h.congr rfl rfl rfl rfl rfl rfl

theorem takeFault (h : s.Inv) (c : FaultCause) (w : CmdWord) : (s.takeFault c w).Inv :=
  h.congr rfl rfl rfl rfl rfl rfl

theorem withInbox (h : s.Inv) (rest : List HostAction) : State.Inv { s with inbox := rest } :=
  h.congr rfl rfl rfl rfl rfl rfl

theorem exported (h : s.Inv) (n : Nat) : (s.exported n).Inv := (h.putRes n).setFlag _ _

theorem exportText (h : s.Inv) (addr cap total : Nat) (text : List Byte) :
    (s.exportText addr cap total text).Inv := by
  unfold State.exportText
  split
  · exact (h.putUnspecified _ _).exported _
  · exact ((h.putBytes _ _).putUnspecified _ _).exported _

theorem parsedInto (h : s.Inv) (rd : Reg) (x : Option Nat) : (s.parsedInto rd x).Inv := by
  cases x with
  | none => exact h.setFlag _ _
  | some x => exact (h.putV _ _).setFlag _ _

theorem parsedDecInto (h : s.Inv) (rd : Reg) (xs : Option (Nat × Nat)) :
    (s.parsedDecInto rd xs).Inv := by
  cases xs with
  | none => exact h.setFlag _ _
  | some xs => exact ((h.putV _ _).putS _ _).setFlag _ _

theorem rescale (h : s.Inv) (rd ra : Reg) (n : Nat) : (s.rescale rd ra n).Inv := by
  obtain ⟨x, b, heq⟩ := rescale_eq s rd ra n
  rw [heq]
  exact ((h.putV _ _).putS _ _).setFlag _ _

/-- A reset leaves V of its width (log 4), an empty BUF, and its own event in the past. -/
theorem assertReset (h : s.Inv) : s.assertReset.Inv where
  vWidth := toNat_get_freeVFile_lt s.fresh
  bufCanonical := rfl
  paramsOk := h.paramsOk
  statusReserved i _ := by simp
  epochPast := Nat.lt_succ_self s.fresh

end State.Inv

/-! ## Every command keeps it -/

/-- Every next state of the command has the invariant. -/
def ExecKeepsInv (i : Instr) (s : State) : Prop := ∀ t, exec i s = .next t → t.Inv

namespace ExecKeepsInv

variable {i : Instr} {s : State}

theorem of_next {t : State} (hexec : exec i s = .next t) (ht : t.Inv) : ExecKeepsInv i s := by
  intro u hu
  cases hexec.symm.trans hu
  exact ht

theorem of_ite {c : Prop} [Decidable c] {t u : State}
    (hexec : exec i s = if c then .next t else .next u) (ht : t.Inv) (hu : u.Inv) :
    ExecKeepsInv i s := by
  by_cases hc : c
  · exact of_next (hexec.trans (if_pos hc)) ht
  · exact of_next (hexec.trans (if_neg hc)) hu

theorem of_inWindow {a n : Nat} {w : CmdWord} {done : State}
    (hexec : exec i s = s.inWindow a n w done) (hs : s.Inv) (hdone : done.Inv) : ExecKeepsInv i s :=
  of_ite hexec hdone (hs.takeFault _ _)

end ExecKeepsInv

open ExecKeepsInv

/-- A command is made of the shared writes, each of which keeps the invariant. -/
theorem State.Inv.execKeepsInv {s : State} (h : s.Inv) (i : Instr) : ExecKeepsInv i s := by
  cases i with
  | zero | one | ldw | mov | add | sub | mul | and | or | xor | not | shl | shr | bset | bclr | neg =>
    exact of_next rfl (h.putV _ _)
  | bget | eq | lt | slt | deq | dlt => exact of_next rfl (h.setFlag _ _)
  | msb | lzc | sget => exact of_next rfl (h.putRes _)
  | mulw => exact of_ite rfl (h.takeFault _ _) ((h.putV _ _).putV _ _)
  | div => exact of_ite rfl (h.takeFault _ _) (((h.putV _ _).putV _ _).setFlag _ _)
  | abs => exact of_next rfl ((h.putV _ _).setFlag _ _)
  | sset => exact of_next rfl (h.putS _ _)
  | dmov | dadd | dsub | dmul => exact of_next rfl ((h.putV _ _).putS _ _)
  | dadds | dsubs | dmuls =>
    exact of_ite rfl (((h.putV _ _).putS _ _).setFlag _ _) (h.setFlag _ _)
  | dprec => exact of_next rfl (h.rescale _ _ _)
  | dprecs rd ra imm =>
    have rescaled := (h.rescale rd ra imm.toNat).setFlag .ok true
    by_cases hup : s.scale ra < imm.toNat
    · exact of_ite (if_pos hup) rescaled (h.setFlag _ _)
    · exact of_next (if_neg hup) rescaled
  | ddivf | ddivw => exact of_next rfl (((h.putV _ _).putS _ _).setFlag _ _)
  | ddivs rd ra rb imm =>
    cases hq : checkedQuotient s.W (s.mag ra) (s.mag rb) (s.divDigits rb imm) with
    | none => exact of_next (exec_ddivs_none hq) (h.setFlag _ _)
    | some q =>
      exact of_next (exec_ddivs_some hq) ((((h.putV _ _).putS _ _).setFlag _ _).setFlag _ _)
  | ldraw => exact of_inWindow rfl h (h.putV _ _)
  | ldhex | lddec | ldsdec => exact of_inWindow rfl h (h.parsedInto _ _)
  | lddcm => exact of_inWindow rfl h (h.parsedDecInto _ _)
  | straw => exact of_inWindow rfl h (h.putBytes _ _)
  | stdec | stsdec | stdcm => exact of_inWindow rfl h (h.exportText _ _ _ _)
  | sthex =>
    refine of_inWindow rfl h ?_
    split
    · exact h.exported _
    · exact (h.putBytes _ _).exported _

/-- Settles O14: the default parameters are legal. -/
theorem invAtReset : Obligations.InvAtReset :=
  ⟨.resetWith (by decide), fun _ => .resetWith⟩

/-- Settles O15: by what a step can do; each command and each host action keeps the invariant. -/
theorem everyStepKeepsInv : Obligations.EveryStepKeepsInv := by
  intro s t h hstep
  rcases step_cases hstep with ⟨-, rfl⟩ | ⟨act, rest, -, ⟨w, -, -, rfl⟩ | ⟨w, c, -, -, -, rfl⟩
    | ⟨w, i, -, -, -, hexec⟩ | ⟨p, -, rfl⟩ | ⟨a, -, rfl⟩ | ⟨a, b, -, rfl⟩ | ⟨-, rfl⟩⟩
  · exact h
  · exact h.withInbox rest
  · exact (h.withInbox rest).takeFault c w
  · exact (h.withInbox rest).execKeepsInv i t hexec
  · exact h.congr rfl rfl rfl rfl rfl rfl
  · exact h.congr rfl rfl rfl rfl rfl rfl
  · exact (h.withInbox rest).putBytes _ _
  · exact (h.withInbox rest).assertReset

/-! ## FAULT and FCMD tell the truth (10_state.md R33, R34) -/

theorem State.FaultExplained.congr {s t : State} (h : s.FaultExplained)
    (hparams : t.params = s.params) (hfault : t.fault = s.fault) (hfcmd : t.fcmd = s.fcmd) :
    t.FaultExplained := by
  rw [State.FaultExplained, State.W, hparams, hfault, hfcmd]
  exact h

/-- The command that a word decodes to faults, if it does, on its window, and the word is its encoding. -/
theorem State.FaultExplained.exec {s t : State} (h : s.FaultExplained) {w : CmdWord} {i : Instr}
    (hdec : decodeWord w = .command i) (hexec : exec i s = .next t) : t.FaultExplained := by
  have henc := encode_of_decodeWord hdec
  rcases exec_next_cases hexec with ⟨hparams, hfault, hfcmd, -⟩ | ⟨hd, rfl⟩ | ⟨an, hw, hpast, rfl⟩
  · exact h.congr hparams hfault hfcmd
  · exact .inr (.inl ⟨.destConflict, rfl, decodeWord_encode_destConflict hd⟩)
  · exact .inr (.inr ⟨rfl, i, an, henc ▸ hdec, hw, hpast⟩)

/-- Settles O16: a step leaves both registers alone, takes a fault that the decoder found in the word,
executes the command of the word, or is a reset. -/
theorem faultRegistersTellTheTruth : Obligations.FaultRegistersTellTheTruth := by
  refine ⟨.inl ⟨rfl, rfl⟩, fun s t h hstep => ?_⟩
  rcases step_cases hstep with ⟨-, rfl⟩ | ⟨act, rest, -, ⟨w, -, -, rfl⟩ | ⟨w, c, -, -, hdec, rfl⟩
    | ⟨w, i, -, -, hdec, hexec⟩ | ⟨p, -, rfl⟩ | ⟨a, -, rfl⟩ | ⟨a, b, -, rfl⟩ | ⟨-, rfl⟩⟩
  · exact h
  · exact h.congr rfl rfl rfl
  · exact .inr (.inl ⟨c, rfl, hdec⟩)
  · have hrest : State.FaultExplained { s with inbox := rest } := h.congr rfl rfl rfl
    exact hrest.exec hdec hexec
  · exact h.congr rfl rfl rfl
  · exact h.congr rfl rfl rfl
  · exact h.congr rfl rfl rfl
  · exact .inl ⟨rfl, rfl⟩

end Sys2Proof.Machine
end

section
/-! PROOFS. The integer and signed commands and the scale registers (10_state.md R23). -/

namespace Sys2Proof.Machine

/-- The state with other contents of S. -/
def State.withScales (s : State) (sc' : Vector (BitVec 32) 16) : State := { s with sc := sc' }

@[simp] theorem State.withScales_u (s : State) (sc' : Vector (BitVec 32) 16) (r : Reg) :
    (s.withScales sc').u r = s.u r := rfl

/-- Every next state of the command has the old S, and with other contents of S the command does the
same to everything else. -/
def IgnoresScales (i : Instr) (s : State) (sc' : Vector (BitVec 32) 16) : Prop :=
  ∀ t, exec i s = .next t → t.sc = s.sc ∧ exec i (s.withScales sc') = .next (t.withScales sc')

namespace IgnoresScales

variable {i : Instr} {s : State} {sc' : Vector (BitVec 32) 16}

theorem of_next {t : State} (hexec : exec i s = .next t)
    (hexec' : exec i (s.withScales sc') = .next (t.withScales sc')) (hsc : t.sc = s.sc) :
    IgnoresScales i s sc' := by
  intro u hu
  cases hexec.symm.trans hu
  exact ⟨hsc, hexec'⟩

/-- A command that tests one condition, on which S has no influence. -/
theorem of_ite {c : Prop} [Decidable c] {t u : State}
    (hexec : exec i s = if c then .next t else .next u)
    (hexec' : exec i (s.withScales sc')
      = if c then .next (t.withScales sc') else .next (u.withScales sc'))
    (ht : t.sc = s.sc) (hu : u.sc = s.sc) : IgnoresScales i s sc' := by
  by_cases hc : c
  · exact of_next (hexec.trans (if_pos hc)) (hexec'.trans (if_pos hc)) ht
  · exact of_next (hexec.trans (if_neg hc)) (hexec'.trans (if_neg hc)) hu

/-- A buffer command, whose window check does not look at S. -/
theorem of_inWindow {a n : Nat} {w : CmdWord} {done done' : State}
    (hexec : exec i s = s.inWindow a n w done)
    (hexec' : exec i (s.withScales sc') = (s.withScales sc').inWindow a n w done')
    (hdone : done' = done.withScales sc') (hsc : done.sc = s.sc) : IgnoresScales i s sc' := by
  subst hdone
  exact of_ite hexec hexec' hsc rfl

end IgnoresScales

open IgnoresScales

theorem State.parsedInto_withScales (s : State) (sc' : Vector (BitVec 32) 16) (rd : Reg)
    (x : Option Nat) : (s.withScales sc').parsedInto rd x = (s.parsedInto rd x).withScales sc' := by
  cases x with
  | none => rfl
  | some x => rfl

theorem State.sc_parsedInto (s : State) (rd : Reg) (x : Option Nat) :
    (s.parsedInto rd x).sc = s.sc := by
  cases x with
  | none => rfl
  | some x => rfl

theorem State.exportText_withScales (s : State) (sc' : Vector (BitVec 32) 16) (addr cap total : Nat)
    (text : List Byte) : (s.withScales sc').exportText addr cap total text
      = (s.exportText addr cap total text).withScales sc' := by
  simp only [State.exportText, apply_ite (State.withScales · sc')]
  rfl

theorem ignoresScales_of_isIntegerCommand {i : Instr} (hi : isIntegerCommand i = true) (s : State)
    (sc' : Vector (BitVec 32) 16) : IgnoresScales i s sc' := by
  cases i with
  | zero | one | ldw | mov | add | sub | mul | and | or | xor | not | shl | shr | bset | bclr | neg
  | bget | eq | lt | slt | msb | lzc | abs => exact of_next rfl rfl rfl
  | mulw | div => exact of_ite rfl rfl rfl rfl
  | ldraw | straw => exact of_inWindow rfl rfl rfl rfl
  | ldhex | lddec | ldsdec =>
    exact of_inWindow rfl rfl (s.parsedInto_withScales sc' _ _) (s.sc_parsedInto _ _)
  | stdec | stsdec =>
    exact of_inWindow rfl rfl (s.exportText_withScales sc' _ _ _ _) (exportText_registers s _ _ _ _).2
  | sthex ra addr cap =>
    refine of_inWindow rfl rfl ?_ ?_
    · rw [State.withScales_u, apply_ite (State.withScales · sc')]
      rfl
    · split
      · rfl
      · rfl
  | _ => cases hi

/-- Settles O19: every value an integer command uses comes from V, BUF and the parameters. -/
theorem integerCommandsIgnoreScales : Obligations.IntegerCommandsIgnoreScales := by
  intro i s t sc' hi hexec
  exact ignoresScales_of_isIntegerCommand hi s sc' t hexec

end Sys2Proof.Machine
end

section
/-! PROOFS. The division laws of DIV (42_int_arith.md R131, R132). -/

namespace Sys2Proof.Machine

/-- Settles O26: the pair DIV writes is that of udiv_W, which restoring division computes. -/
theorem divisionLaws : Obligations.DivisionLaws := by
  refine ⟨fun s rd re ra rb hne => ?_, fun W a b => restoringDiv_eq_udiv⟩
  obtain ⟨t, hexec, hq, hr, hdz, -⟩ := exec_div_value s ra rb hne
  refine ⟨t, hexec, fun hb => ?_, fun hb => ?_⟩
  · rw [hq, hr, hdz, udivQ_of_ne_zero hb, udivR_of_ne_zero hb]
    exact ⟨(Nat.div_add_mod' _ _).symm, Nat.mod_lt _ (Nat.pos_of_ne_zero hb), decide_eq_false hb⟩
  · rw [hq, hr, hdz, hb, udivQ_zero, udivR_zero]
    exact ⟨rfl, rfl, rfl⟩

end Sys2Proof.Machine
end

section
/-! PROOFS. Decimal add, subtract and multiply: the signed result reduced modulo 2^W, its range, and
the number it denotes (46_dec_scale.md R186; 47_dec_arith.md). -/

namespace Sys2Proof.Machine

/-! ## The headroom estimate (R186) -/

/-- Settles O45: P1 is what a scale change relies on; the default's formula is its definition. -/
theorem headroomEstimateIsSound : Obligations.HeadroomEstimateIsSound := by
  intro p
  refine ⟨fun L => rfl, fun L k m hk hok hm hL => ?_, fun hdefault L k => ?_⟩
  · subst hL
    exact Nat.le_sub_one_of_lt (mul_ten_pow_lt_of_headroomOk hk hok hm)
  · simp [headroomOk, hdefault]

/-! ## A signed result in a register (00_scope.md R11) -/

theorem inSigned_iff {W : Nat} {x : Int} :
    InSigned W x ↔ -((2 ^ (W - 1) : Nat) : Int) ≤ x ∧ x < ((2 ^ (W - 1) : Nat) : Int) := by
  rw [InSigned, Nat.cast_pow, Nat.cast_ofNat]

theorem inSigned_of_natAbs_lt {W : Nat} {x : Int} (h : x.natAbs < 2 ^ (W - 1)) : InSigned W x :=
  inSigned_iff.mpr (by omega)

theorem State.inSigned_sg (s : State) (r : Reg) : InSigned s.W (s.sg r) :=
  inSigned_iff.mpr (signedVal_range s.zero_lt_W (s.u_lt r))

theorem State.natCast_u_putV_bitsW (s : State) (r : Reg) (x : Int) :
    ((s.putV r (bitsW s.W x)).u r : Int) = x % (2 : Int) ^ s.W := by
  rw [State.u_putV_same, bitsW_mod, natCast_bitsW, Nat.cast_pow, Nat.cast_ofNat]

/-- A register holds an integer exactly where it lies in the signed range. -/
theorem State.sg_putV_bitsW_iff (s : State) (r : Reg) (x : Int) :
    (s.putV r (bitsW s.W x)).sg r = x ↔ InSigned s.W x := by
  refine ⟨fun h => h ▸ (s.putV r (bitsW s.W x)).inSigned_sg r, fun h => ?_⟩
  obtain ⟨hlo, hhi⟩ := inSigned_iff.mp h
  rw [State.sg_putV_of_lt r (bitsW_lt _ _), signedVal_bitsW s.zero_lt_W hlo hhi]

/-- A scale of 32 bits is stored as it stands. -/
theorem State.scale_putS_of_lt (s : State) (r : Reg) {n : Nat} (hn : n < 2 ^ 32) :
    (s.putS r n).scale r = n := by
  rw [State.scale_putS_same, Nat.mod_eq_of_lt hn]

/-- The Decimal a command leaves in rd: the integer x modulo 2^W at scale n. -/
def State.putDec (s : State) (rd : Reg) (x : Int) (n : Nat) : State :=
  (s.putV rd (bitsW s.W x)).putS rd n

section
variable (s : State) (rd : Reg) (x : Int)

theorem State.natCast_u_putDec (n : Nat) : ((s.putDec rd x n).u rd : Int) = x % (2 : Int) ^ s.W :=
  s.natCast_u_putV_bitsW rd x

theorem State.sg_putDec_iff (n : Nat) : (s.putDec rd x n).sg rd = x ↔ InSigned s.W x :=
  s.sg_putV_bitsW_iff rd x

theorem State.scale_putDec {n : Nat} (hn : n < 2 ^ 32) : (s.putDec rd x n).scale rd = n :=
  State.scale_putS_of_lt _ rd hn

theorem Unchanged.putDec {w : Writes} (hv : rd ∈ w.v) (hs : rd ∈ w.sc) (n : Nat) :
    Unchanged w s (s.putDec rd x n) := ((Unchanged.refl w s).putV hv _).putS hs n

end

/-- The rule of a command that leaves a Decimal (00_scope.md R9, R13). -/
theorem exec_putDec {i : Instr} {s : State} {rd : Reg} {x : Int} {n : Nat}
    (hexec : exec i s = .next (s.putDec rd x n)) (hn : n < 2 ^ 32) :
    ∃ t, exec i s = .next t ∧ t.scale rd = n ∧ (t.u rd : Int) = x % (2 : Int) ^ s.W
      ∧ Unchanged { v := [rd], sc := [rd] } s t :=
  ⟨_, hexec, s.scale_putDec rd x hn, s.natCast_u_putDec rd x n,
    Unchanged.putDec s rd x (.head _) (.head _) n⟩

/-- The rule of a checked command that succeeds. -/
theorem exec_putDec_ok {i : Instr} {s : State} {rd : Reg} {x : Int} {n : Nat}
    (hexec : exec i s = .next ((s.putDec rd x n).setFlag .ok true)) (hn : n < 2 ^ 32) :
    ∃ t, exec i s = .next t ∧ t.flag .ok = true ∧ t.scale rd = n
      ∧ (t.u rd : Int) = x % (2 : Int) ^ s.W ∧ (t.sg rd = x ↔ InSigned s.W x)
      ∧ Unchanged { v := [rd], sc := [rd], flags := [.ok] } s t :=
  ⟨_, hexec, State.flag_setFlag_same _ _ _, s.scale_putDec rd x hn, s.natCast_u_putDec rd x n,
    s.sg_putDec_iff rd x n,
    (Unchanged.putDec s rd x (.head _) (.head _) n).setFlag (.head _) _⟩

/-! ## Aligned operands (R195) -/

/-- The operand of register r at scale m, before its reduction modulo 2^W. -/
def State.alignedInt (s : State) (r : Reg) (m : Nat) : Int := s.sg r * (10 : Int) ^ (m - s.scale r)

theorem State.aligned_eq (s : State) (r : Reg) (m : Nat) :
    s.aligned r m = bitsW s.W (s.alignedInt r m) :=
  scaleUp_eq_bitsW s.zero_lt_W (s.u_lt r) _

theorem State.alignScale_lt (s : State) (ra rb : Reg) : s.alignScale ra rb < 2 ^ 32 :=
  max_lt (s.scale_lt ra) (s.scale_lt rb)

/-- Reading a pattern back changes the integer by a multiple of 2^W at most. -/
theorem signedVal_bitsW_modEq (W : Nat) (x : Int) :
    signedVal W (bitsW W x) ≡ x [ZMOD ((2 ^ W : Nat) : Int)] := by
  rw [Int.ModEq, signedVal_emod, natCast_bitsW, Int.emod_emod]

/-- R196: the wrapped operands have the sum of the exact ones, modulo 2^W. -/
theorem State.alignedSum_eq (s : State) (rd ra rb : Reg) :
    s.alignedSum rd ra rb = s.putDec rd (s.alignedInt ra (s.alignScale ra rb)
      + s.alignedInt rb (s.alignScale ra rb)) (s.alignScale ra rb) := by
  rw [State.alignedSum, State.aligned_eq, State.aligned_eq, State.putDec,
    bitsW_congr ((signedVal_bitsW_modEq s.W _).add (signedVal_bitsW_modEq s.W _))]

/-- R197: likewise their difference. -/
theorem State.alignedDiff_eq (s : State) (rd ra rb : Reg) :
    s.alignedDiff rd ra rb = s.putDec rd (s.alignedInt ra (s.alignScale ra rb)
      - s.alignedInt rb (s.alignScale ra rb)) (s.alignScale ra rb) := by
  rw [State.alignedDiff, State.aligned_eq, State.aligned_eq, State.putDec,
    bitsW_congr ((signedVal_bitsW_modEq s.W _).sub (signedVal_bitsW_modEq s.W _))]

theorem exec_dadd_putDec (s : State) (rd ra rb : Reg) :
    exec (.dadd rd ra rb) s = .next (s.putDec rd (s.alignedInt ra (s.alignScale ra rb)
      + s.alignedInt rb (s.alignScale ra rb)) (s.alignScale ra rb)) :=
  congrArg _ (s.alignedSum_eq rd ra rb)

theorem exec_dsub_putDec (s : State) (rd ra rb : Reg) :
    exec (.dsub rd ra rb) s = .next (s.putDec rd (s.alignedInt ra (s.alignScale ra rb)
      - s.alignedInt rb (s.alignScale ra rb)) (s.alignScale ra rb)) :=
  congrArg _ (s.alignedDiff_eq rd ra rb)

/-- Settles O46: the sum and the difference of the exact aligned operands, modulo 2^W. -/
theorem decimalAddAndSubtract : Obligations.DecimalAddAndSubtract := by
  intro s rd ra rb m hm
  obtain rfl : m = s.alignScale ra rb := hm
  exact ⟨⟨encodedAs (.dadd rd ra rb), exec_putDec (exec_dadd_putDec s rd ra rb) (s.alignScale_lt ra rb)⟩,
    encodedAs (.dsub rd ra rb), exec_putDec (exec_dsub_putDec s rd ra rb) (s.alignScale_lt ra rb)⟩

/-! ## The checked sum and difference (R198 to R200) -/

/-- Whether the operand of register r needs no digit for scale m, or the estimate allows its digits. -/
def State.HasHeadroom (s : State) (r : Reg) (m : Nat) : Prop :=
  m - s.scale r = 0
    ∨ headroomOk s.params (lzcW s.params (s.sg r).natAbs) (m - s.scale r) = true

theorem State.alignOk_iff (s : State) (r : Reg) (m : Nat) : s.alignOk r m = true ↔ s.HasHeadroom r m := by
  have hmag : magW s.params.width.bits (s.u r) = (s.sg r).natAbs := s.mag_eq_natAbs_sg r
  rw [State.alignOk, scaleUpOk, hmag, Bool.or_eq_true, decide_eq_true_iff, State.HasHeadroom]

/-- By P1 an accepted operand does not wrap. -/
theorem State.HasHeadroom.inSigned {s : State} {r : Reg} {m : Nat} (h : s.HasHeadroom r m) :
    InSigned s.W (s.alignedInt r m) := by
  rcases h with hzero | hok
  · rw [State.alignedInt, hzero, pow_zero, mul_one]
    exact s.inSigned_sg r
  · rcases Nat.eq_zero_or_pos (m - s.scale r) with hzero | hpos
    · rw [State.alignedInt, hzero, pow_zero, mul_one]
      exact s.inSigned_sg r
    · exact inSigned_of_natAbs_lt (State.natAbs_mul_ten_pow_lt hpos hok)

theorem State.not_hasHeadroom {s : State} {r : Reg} {m : Nat} (hpos : 0 < m - s.scale r)
    (hno : headroomOk s.params (lzcW s.params (s.sg r).natAbs) (m - s.scale r) = false) :
    ¬s.HasHeadroom r m := by
  rintro (hzero | hok)
  · exact hpos.ne' hzero
  · cases hno.symm.trans hok

/-- Both operands have headroom. -/
def State.BothHaveHeadroom (s : State) (ra rb : Reg) : Prop :=
  ∀ r ∈ [ra, rb], s.HasHeadroom r (s.alignScale ra rb)

theorem State.bothHaveHeadroom_iff (s : State) (ra rb : Reg) :
    (s.alignOk ra (s.alignScale ra rb) && s.alignOk rb (s.alignScale ra rb)) = true
      ↔ s.BothHaveHeadroom ra rb := by
  simp [State.BothHaveHeadroom, State.alignOk_iff]

theorem exec_dadds_of_headroom {s : State} (rd : Reg) {ra rb : Reg} (h : s.BothHaveHeadroom ra rb) :
    exec (.dadds rd ra rb) s = .next ((s.putDec rd (s.alignedInt ra (s.alignScale ra rb)
      + s.alignedInt rb (s.alignScale ra rb)) (s.alignScale ra rb)).setFlag .ok true) := by
  rw [← s.alignedSum_eq]
  exact if_pos ((s.bothHaveHeadroom_iff ra rb).mpr h)

theorem exec_dsubs_of_headroom {s : State} (rd : Reg) {ra rb : Reg} (h : s.BothHaveHeadroom ra rb) :
    exec (.dsubs rd ra rb) s = .next ((s.putDec rd (s.alignedInt ra (s.alignScale ra rb)
      - s.alignedInt rb (s.alignScale ra rb)) (s.alignScale ra rb)).setFlag .ok true) := by
  rw [← s.alignedDiff_eq]
  exact if_pos ((s.bothHaveHeadroom_iff ra rb).mpr h)

theorem exec_dadds_refuses {s : State} (rd : Reg) {ra rb : Reg} (h : ¬s.BothHaveHeadroom ra rb) :
    exec (.dadds rd ra rb) s = .next (s.setFlag .ok false) :=
  if_neg (mt (s.bothHaveHeadroom_iff ra rb).mp h)

theorem exec_dsubs_refuses {s : State} (rd : Reg) {ra rb : Reg} (h : ¬s.BothHaveHeadroom ra rb) :
    exec (.dsubs rd ra rb) s = .next (s.setFlag .ok false) :=
  if_neg (mt (s.bothHaveHeadroom_iff ra rb).mp h)

/-- Settles O47: with headroom for both operands the result is the unchecked command's, from exact
operands; without it OK alone is written. -/
theorem checkedDecimalAddAndSubtract : Obligations.CheckedDecimalAddAndSubtract := by
  intro s rd ra rb m hm
  obtain rfl : m = s.alignScale ra rb := hm
  have hlt := s.alignScale_lt ra rb
  refine ⟨encodedAs (.dadds rd ra rb), encodedAs (.dsubs rd ra rb), fun h => ?_,
    fun ⟨r, hr, hpos, hno⟩ => ?_⟩
  · exact ⟨fun r hr => State.HasHeadroom.inSigned (h r hr),
      exec_putDec_ok (exec_dadds_of_headroom rd h) hlt,
      exec_putDec_ok (exec_dsubs_of_headroom rd h) hlt⟩
  · have hrefuse : ¬s.BothHaveHeadroom ra rb := fun h => State.not_hasHeadroom hpos hno (h r hr)
    exact ⟨exec_setFlag_only (exec_dadds_refuses rd hrefuse),
      exec_setFlag_only (exec_dsubs_refuses rd hrefuse)⟩

/-! ## The product (R202, R203) -/

theorem scaleSum_lt (a b : Nat) : scaleSum a b < 2 ^ 32 := Nat.mod_lt _ (Nat.two_pow_pos 32)

theorem scaleSum_of_lt {a b : Nat} (h : a + b < 2 ^ 32) : scaleSum a b = a + b := Nat.mod_eq_of_lt h

theorem fitsSigned_iff (W : Nat) (x : Int) : fitsSigned W x = true ↔ InSigned W x := by
  rw [fitsSigned, Bool.and_eq_true, decide_eq_true_iff, decide_eq_true_iff, inSigned_iff,
    Int.le_sub_one_iff]

theorem exec_dmuls_of_inSigned {s : State} (rd : Reg) {ra rb : Reg}
    (h : InSigned s.W (s.sg ra * s.sg rb)) :
    exec (.dmuls rd ra rb) s = .next ((s.putDec rd (s.sg ra * s.sg rb)
      (scaleSum (s.scale ra) (s.scale rb))).setFlag .ok true) :=
  if_pos ((fitsSigned_iff _ _).mpr h)

theorem exec_dmuls_refuses {s : State} (rd : Reg) {ra rb : Reg}
    (h : ¬InSigned s.W (s.sg ra * s.sg rb)) :
    exec (.dmuls rd ra rb) s = .next (s.setFlag .ok false) :=
  if_neg (mt (fitsSigned_iff _ _).mp h)

theorem denotes_mul (x y : Int) (a b : Nat) : denotes (x * y) (a + b) = denotes x a * denotes y b := by
  rw [denotes, denotes, denotes, div_mul_div_comm, pow_add, Int.cast_mul]

/-- Settles O48: DMUL leaves the product modulo 2^W; DMULS tests that it fits, and then it is exact. -/
theorem decimalMultiply : Obligations.DecimalMultiply := by
  intro s rd ra rb
  have hscale := scaleSum_lt (s.scale ra) (s.scale rb)
  refine ⟨⟨encodedAs (.dmul rd ra rb), ?_⟩, encodedAs (.dmuls rd ra rb), fun hin => ?_,
    fun hout => exec_setFlag_only (exec_dmuls_refuses rd hout)⟩
  · obtain ⟨t, hexec, hsc, hu, hframe⟩ :=
      exec_putDec (i := .dmul rd ra rb) (s := s) (x := s.sg ra * s.sg rb) rfl hscale
    exact ⟨t, hexec, hu, hsc, hframe⟩
  · obtain ⟨t, hexec, hok, hsc, -, hsg, hframe⟩ :=
      exec_putDec_ok (exec_dmuls_of_inSigned rd hin) hscale
    have hexact := hsg.mpr hin
    refine ⟨t, hexec, hok, hexact, hsc, fun hnowrap => ?_, hframe⟩
    rw [hexact, hsc, scaleSum_of_lt hnowrap, denotes_mul]

/-- A positive pattern below 2^(W-1) reads as itself. -/
theorem State.sg_eq_u_of_lt {s : State} {r : Reg} (h : s.u r < 2 ^ (s.W - 1)) : s.sg r = s.u r := by
  have htop : ¬topBit s.W (s.u r) = true := by
    rw [topBit_iff s.zero_lt_W (s.u_lt r)]
    exact Nat.not_le.mpr h
  exact if_neg htop

/-- Settles O49: the product has j + log2 a + 1 bits, and W - 1 of them are the positive range. -/
theorem checkedMultiplyFailsAtTheLeadingZeros : Obligations.CheckedMultiplyFailsAtTheLeadingZeros := by
  intro s rd ra rb L j hne hL hpos hj hrb
  have hrange : s.u ra < 2 ^ (s.W - 1) :=
    (lt_two_pow_msbW_succ _).trans_le (Nat.pow_le_pow_right two_pos (by unfold msbW; omega))
  have hra := State.sg_eq_u_of_lt hrange
  have hrb' : s.sg rb = (2 ^ j : Nat) := by
    rw [State.sg_eq_u_of_lt (by rw [hrb]; exact Nat.pow_lt_pow_right one_lt_two hj), hrb]
  have hproduct : s.sg ra * s.sg rb = (s.u ra * 2 ^ j : Nat) := by rw [hra, hrb', Nat.cast_mul]
  refine ⟨fun hlt => ?_, fun heq => ?_⟩
  · have hbits : s.u ra * 2 ^ j < 2 ^ (s.W - 1) :=
      calc s.u ra * 2 ^ j
          < 2 ^ (msbW (s.u ra) + 1) * 2 ^ j :=
            Nat.mul_lt_mul_of_pos_right (lt_two_pow_msbW_succ _) (Nat.two_pow_pos j)
        _ = 2 ^ (msbW (s.u ra) + 1 + j) := (pow_add _ _ _).symm
        _ ≤ 2 ^ (s.W - 1) := Nat.pow_le_pow_right two_pos (by unfold msbW; omega)
    have hin : InSigned s.W (s.sg ra * s.sg rb) :=
      inSigned_of_natAbs_lt (by rwa [hproduct, Int.natAbs_natCast])
    obtain ⟨t, hexec, hok, -, hu, -⟩ :=
      exec_putDec_ok (exec_dmuls_of_inSigned rd hin) (scaleSum_lt _ _)
    refine ⟨t, hexec, hok, ?_⟩
    have hfits : s.u ra * 2 ^ j < 2 ^ s.W :=
      hbits.trans_le (Nat.pow_le_pow_right two_pos (Nat.sub_le _ _))
    have hmod : (t.u rd : Int) = (s.u ra * 2 ^ j % 2 ^ s.W : Nat) := by
      rw [hu, hproduct, Int.natCast_mod, Nat.cast_pow, Nat.cast_ofNat]
    rw [Int.natCast_inj.mp hmod, Nat.mod_eq_of_lt hfits]
  · have hbits : 2 ^ (s.W - 1) ≤ s.u ra * 2 ^ j :=
      calc 2 ^ (s.W - 1)
          = 2 ^ msbW (s.u ra) * 2 ^ j := by rw [← pow_add]; congr 1; unfold msbW; omega
        _ ≤ s.u ra * 2 ^ j := Nat.mul_le_mul_right _ (two_pow_msbW_le hne)
    have hout : ¬InSigned s.W (s.sg ra * s.sg rb) := by
      rw [hproduct, inSigned_iff]
      omega
    exact ⟨_, exec_dmuls_refuses rd hout, State.flag_setFlag_same _ _ _, rfl⟩

/-! ## The numbers denoted (R196, R199, R203) -/

theorem denotes_add (x y : Int) (n : Nat) : denotes (x + y) n = denotes x n + denotes y n := by
  rw [denotes, denotes, denotes, ← add_div, Int.cast_add]

theorem denotes_sub (x y : Int) (n : Nat) : denotes (x - y) n = denotes x n - denotes y n := by
  rw [denotes, denotes, denotes, ← sub_div, Int.cast_sub]

theorem State.denotes_alignedInt (s : State) (r : Reg) {m : Nat} (hm : s.scale r ≤ m) :
    denotes (s.alignedInt r m) m = denotes (s.sg r) (s.scale r) := denotes_mul_ten_pow _ hm

/-- A Decimal in range denotes the number it was made of. -/
theorem denotes_putDec {s t : State} {rd : Reg} {x : Int} {n : Nat} (hin : InSigned s.W x)
    (hn : n < 2 ^ 32) (ht : t = s.putDec rd x n ∨ t = (s.putDec rd x n).setFlag .ok true) :
    denotes (t.sg rd) (t.scale rd) = denotes x n := by
  have hsg := (s.sg_putDec_iff rd x n).mpr hin
  have hsc := s.scale_putDec rd x hn
  rcases ht with rfl | rfl
  · rw [hsg, hsc]
  · exact congrArg₂ denotes hsg hsc

/-- A checked command that ends with OK = 1 did not refuse. -/
theorem of_not_refused {i : Instr} {s t u : State} {c : Prop} (hexec : exec i s = .next t)
    (hok : t.flag .ok = true) (hpass : c → exec i s = .next u)
    (hrefuse : ¬c → exec i s = .next (s.setFlag .ok false)) : c ∧ t = u := by
  by_cases hc : c
  · cases hexec.symm.trans (hpass hc)
    exact ⟨hc, rfl⟩
  · cases hexec.symm.trans (hrefuse hc)
    simp at hok

/-- Settles O50: the result is the exact one modulo 2^W, so in range it is the exact one. -/
theorem decimalResultsDenoteExactly : Obligations.DecimalResultsDenoteExactly := by
  intro s t rd ra rb m hm
  obtain rfl : m = s.alignScale ra rb := hm
  have hlt := s.alignScale_lt ra rb
  have ha := s.denotes_alignedInt ra (le_max_left (s.scale ra) (s.scale rb))
  have hb := s.denotes_alignedInt rb (le_max_right (s.scale ra) (s.scale rb))
  refine ⟨fun hin h => ?_, fun hin h => ?_, fun hnowrap h => ?_⟩
  · rw [← ha, ← hb, ← denotes_add]
    refine denotes_putDec hin hlt (h.imp (fun hexec => ?_) fun ⟨hexec, hok⟩ => ?_)
    · cases hexec.symm.trans (exec_dadd_putDec s rd ra rb)
      rfl
    · exact (of_not_refused hexec hok (exec_dadds_of_headroom rd) (exec_dadds_refuses rd)).2
  · rw [← ha, ← hb, ← denotes_sub]
    refine denotes_putDec hin hlt (h.imp (fun hexec => ?_) fun ⟨hexec, hok⟩ => ?_)
    · cases hexec.symm.trans (exec_dsub_putDec s rd ra rb)
      rfl
    · exact (of_not_refused hexec hok (exec_dsubs_of_headroom rd) (exec_dsubs_refuses rd)).2
  · rw [← denotes_mul, ← scaleSum_of_lt hnowrap]
    rcases h with ⟨hexec, hin⟩ | ⟨hexec, hok⟩
    · cases hexec
      exact denotes_putDec hin (scaleSum_lt _ _) (.inl rfl)
    · obtain ⟨hin, ht⟩ := of_not_refused hexec hok (exec_dmuls_of_inSigned rd) (exec_dmuls_refuses rd)
      exact denotes_putDec hin (scaleSum_lt _ _) (.inr ht)

end Sys2Proof.Machine
end

section
/-! PROOFS. Decimal division: the quotient of the magnitudes with the sign put back, its three
algorithms, and where it is the truncated quotient of the numbers denoted (48_dec_div.md). -/

namespace Sys2Proof.Machine

/-! ## The setup the divisions share (R210) -/

/-- The quotient q of two magnitudes, with the sign of a quotient of x by y. -/
def signedQuotient (x y : Int) (q : Nat) : Int :=
  if decide (x < 0) = decide (y < 0) then (q : Int) else -(q : Int)

theorem natAbs_signedQuotient (x y : Int) (q : Nat) : (signedQuotient x y q).natAbs = q := by
  unfold signedQuotient
  split
  · exact Int.natAbs_natCast q
  · rw [Int.natAbs_neg, Int.natAbs_natCast]

theorem State.neg_eq_decide (s : State) (r : Reg) : s.neg r = decide (s.sg r < 0) :=
  Bool.eq_iff_iff.mpr ((s.neg_iff_sg_lt_zero r).trans decide_eq_true_iff.symm)

/-- apply_sign on different signs gives the pattern of the signed quotient. -/
theorem State.applySign_quotient (s : State) (ra rb : Reg) {q : Nat} (hq : q < 2 ^ s.W) :
    applySign s.W (s.neg ra != s.neg rb) q = bitsW s.W (signedQuotient (s.sg ra) (s.sg rb) q) := by
  rw [applySign_eq _ _ hq, s.neg_eq_decide, s.neg_eq_decide, signedQuotient]
  by_cases h : decide (s.sg ra < 0) = decide (s.sg rb < 0) <;> simp [h]

/-- The writes of the divisions: a Decimal, and DZ for a zero divisor. -/
theorem State.quotientInto_eq (s : State) (rd ra rb : Reg) (imm : Imm) {q : Nat} (hq : q < 2 ^ s.W) :
    s.quotientInto rd ra rb imm q = (s.putDec rd (signedQuotient (s.sg ra) (s.sg rb) q)
      (scaleSum (s.scale ra) imm.toNat)).setFlag .dz (decide (s.sg rb = 0)) := by
  rw [State.quotientInto, s.applySign_quotient ra rb hq, s.mag_eq_natAbs_sg]
  simp only [Int.natAbs_eq_zero]
  rfl

/-- What a division leaves in rd and in DZ (R210). -/
theorem State.quotientInto_values (s : State) (rd ra rb : Reg) (imm : Imm) {q : Nat}
    (hq : q < 2 ^ s.W) :
    ((s.quotientInto rd ra rb imm q).u rd : Int)
      = signedQuotient (s.sg ra) (s.sg rb) q % (2 : Int) ^ s.W
    ∧ (s.quotientInto rd ra rb imm q).scale rd = scaleSum (s.scale ra) imm.toNat
    ∧ ((s.quotientInto rd ra rb imm q).flag .dz = true ↔ s.sg rb = 0) := by
  rw [s.quotientInto_eq rd ra rb imm hq]
  refine ⟨s.natCast_u_putDec rd _ (scaleSum (s.scale ra) imm.toNat),
    s.scale_putDec rd _ (scaleSum_lt _ _), ?_⟩
  rw [State.flag_setFlag_same, decide_eq_true_iff]

/-- The rule of an unchecked division (R212, R214). -/
theorem exec_quotientInto {i : Instr} {s : State} {rd ra rb : Reg} {imm : Imm} {q : Nat}
    (hexec : exec i s = .next (s.quotientInto rd ra rb imm q)) (hq : q < 2 ^ s.W) :
    ∃ t, exec i s = .next t
      ∧ (t.u rd : Int) = signedQuotient (s.sg ra) (s.sg rb) q % (2 : Int) ^ s.W
      ∧ t.scale rd = scaleSum (s.scale ra) imm.toNat
      ∧ (t.flag .dz = true ↔ s.sg rb = 0)
      ∧ Unchanged { v := [rd], sc := [rd], flags := [.dz] } s t := by
  obtain ⟨hu, hsc, hdz⟩ := s.quotientInto_values rd ra rb imm hq
  exact ⟨_, hexec, hu, hsc, hdz,
    (Unchanged.refl _ s).quotientInto (.head _) (.head _) (.head _) ra rb imm q⟩

/-- The rule of the checked division where it succeeds (R217). -/
theorem exec_quotientInto_ok {i : Instr} {s : State} {rd ra rb : Reg} {imm : Imm} {q : Nat}
    (hexec : exec i s = .next ((s.quotientInto rd ra rb imm q).setFlag .ok true))
    (hq : q < 2 ^ s.W) :
    ∃ t, exec i s = .next t ∧ t.flag .ok = true
      ∧ (t.u rd : Int) = signedQuotient (s.sg ra) (s.sg rb) q % (2 : Int) ^ s.W
      ∧ t.scale rd = scaleSum (s.scale ra) imm.toNat
      ∧ (t.flag .dz = true ↔ s.sg rb = 0)
      ∧ Unchanged { v := [rd], sc := [rd], flags := [.dz, .ok] } s t := by
  obtain ⟨hu, hsc, hdz⟩ := s.quotientInto_values rd ra rb imm hq
  have hdz' := State.flag_setFlag_ne (s.quotientInto rd ra rb imm q) (f := .ok) (g := .dz) true
    (by decide)
  exact ⟨_, hexec, State.flag_setFlag_same _ _ _, hu, hsc, hdz'.symm ▸ hdz,
    ((Unchanged.refl _ s).quotientInto (.head _) (.head _) (.head _) ra rb imm q).setFlag
      (.tail _ (.head _)) _⟩

/-! ## DDIVF (R212) -/

theorem fastQuotient_eq (W ma mb e : Nat) : fastQuotient W ma mb e = udivQ (ma * 10 ^ e % 2 ^ W) mb := by
  rw [fastQuotient, mulPow10_eq]

theorem exec_ddivf_quotient (s : State) (rd ra rb : Reg) (imm : Imm) :
    exec (.ddivf rd ra rb imm) s = .next (s.quotientInto rd ra rb imm
      (fastQuotient s.W (s.sg ra).natAbs (s.sg rb).natAbs (s.divDigits rb imm))) := by
  rw [← s.mag_eq_natAbs_sg, ← s.mag_eq_natAbs_sg]
  rfl

theorem State.fastQuotient_lt (s : State) (ma mb e : Nat) : fastQuotient s.W ma mb e < 2 ^ s.W :=
  udivQ_lt s.zero_lt_W (mulPow10_lt _ _ _) mb

/-- Settles O51: the quotient of the wrapped dividend fits W bits, a zero divisor included. -/
theorem fastDivisionScalesThenDivides : Obligations.FastDivisionScalesThenDivides := by
  intro s rd ra rb imm
  refine ⟨encodedAs (.ddivf rd ra rb imm), fun e q he hq => ?_⟩
  obtain rfl : e = s.divDigits rb imm := he
  rw [← fastQuotient_eq] at hq
  subst hq
  exact exec_quotientInto (exec_ddivf_quotient s rd ra rb imm) (s.fastQuotient_lt _ _ _)

/-! ## DDIVW (R214) -/

/-- The pass of the rule's loop is the model's. -/
theorem divPass_eq_widePass : divPass = widePass := rfl

theorem wideClose_lt (W mb : Nat) (qr : Nat × Nat) : wideClose W mb qr < 2 ^ W :=
  Nat.mod_lt _ (Nat.two_pow_pos W)

theorem wideQuotient_eq (W ma mb e : Nat) :
    wideQuotient W ma mb e = wideClose W mb ((widePass W mb)^[e] (0, ma)) := by
  rw [wideQuotient, iterFix_eq_iterate]

theorem exec_ddivw_quotient (s : State) (rd ra rb : Reg) (imm : Imm) :
    exec (.ddivw rd ra rb imm) s = .next (s.quotientInto rd ra rb imm
      (wideClose s.W (s.sg rb).natAbs
        ((widePass s.W (s.sg rb).natAbs)^[s.divDigits rb imm] (0, (s.sg ra).natAbs)))) := by
  rw [← wideQuotient_eq, ← s.mag_eq_natAbs_sg, ← s.mag_eq_natAbs_sg]
  rfl

/-- Settles O52: stopping at a fixed point changes nothing, so the loop is the plain iteration. -/
theorem wideDivisionGeneratesDigits : Obligations.WideDivisionGeneratesDigits := by
  intro s rd ra rb imm
  refine ⟨encodedAs (.ddivw rd ra rb imm), fun e qr q he hqr hq => ?_⟩
  subst he hqr hq
  rw [divPass_eq_widePass]
  exact exec_quotientInto (exec_ddivw_quotient s rd ra rb imm) (wideClose_lt _ _ _)

/-! ## DDIVS (R217) -/

/-- The quotient accumulated in a pass does not exceed MAXSAFE. -/
def PassSafe (W mb : Nat) (qr : Nat × Nat) : Prop := wideClose W mb qr ≤ maxSafe W

theorem checkedPass_of_safe {W mb : Nat} {qr : Nat × Nat} (h : PassSafe W mb qr) :
    checkedPass W mb (some qr) = some (widePass W mb qr) := if_neg (Nat.not_lt.mpr h)

theorem checkedPass_of_not_safe {W mb : Nat} {qr : Nat × Nat} (h : ¬PassSafe W mb qr) :
    checkedPass W mb (some qr) = none := if_pos (Nat.not_le.mp h)

/-- As long as every pass is safe the checked loop is the wide one. -/
theorem checkedPass_iterate_of_safe {W mb e : Nat} {x : Nat × Nat}
    (h : ∀ j < e, PassSafe W mb ((widePass W mb)^[j] x)) :
    (checkedPass W mb)^[e] (some x) = some ((widePass W mb)^[e] x) := by
  induction e with
  | zero => rfl
  | succ e ih =>
    rw [Function.iterate_succ_apply', Function.iterate_succ_apply',
      ih fun j hj => h j (Nat.lt_succ_of_lt hj), checkedPass_of_safe (h e e.lt_succ_self)]

/-- From the first unsafe pass on the checked loop has refused. -/
theorem checkedPass_iterate_of_not_safe {W mb e : Nat} {x : Nat × Nat}
    (h : ¬∀ j < e, PassSafe W mb ((widePass W mb)^[j] x)) :
    (checkedPass W mb)^[e] (some x) = none := by
  induction e with
  | zero => exact absurd (fun j hj => absurd hj (Nat.not_lt_zero j)) h
  | succ e ih =>
    rw [Function.iterate_succ_apply']
    by_cases hinit : ∀ j < e, PassSafe W mb ((widePass W mb)^[j] x)
    · have hlast : ¬PassSafe W mb ((widePass W mb)^[e] x) := fun hsafe =>
        h fun j hj => (Nat.lt_succ_iff_lt_or_eq.mp hj).elim (hinit j) fun heq => heq ▸ hsafe
      rw [checkedPass_iterate_of_safe hinit, checkedPass_of_not_safe hlast]
    · rw [ih hinit]
      rfl

/-- Every pass of the division is safe. -/
def State.PassesSafe (s : State) (ra rb : Reg) (imm : Imm) : Prop :=
  ∀ j < s.divDigits rb imm,
    PassSafe s.W (s.sg rb).natAbs ((widePass s.W (s.sg rb).natAbs)^[j] (0, (s.sg ra).natAbs))

theorem exec_ddivs_of_safe {s : State} (rd : Reg) {ra rb : Reg} {imm : Imm}
    (h : s.PassesSafe ra rb imm) :
    exec (.ddivs rd ra rb imm) s = .next ((s.quotientInto rd ra rb imm
      (wideClose s.W (s.sg rb).natAbs
        ((widePass s.W (s.sg rb).natAbs)^[s.divDigits rb imm] (0, (s.sg ra).natAbs)))).setFlag
          .ok true) := by
  refine exec_ddivs_some ?_
  rw [checkedQuotient, iterFix_eq_iterate, s.mag_eq_natAbs_sg, s.mag_eq_natAbs_sg,
    checkedPass_iterate_of_safe h, Option.map_some]

theorem exec_ddivs_refuses {s : State} (rd : Reg) {ra rb : Reg} {imm : Imm}
    (h : ¬s.PassesSafe ra rb imm) :
    exec (.ddivs rd ra rb imm) s = .next (s.setFlag .ok false) := by
  refine exec_ddivs_none ?_
  rw [checkedQuotient, iterFix_eq_iterate, s.mag_eq_natAbs_sg, s.mag_eq_natAbs_sg,
    checkedPass_iterate_of_not_safe h, Option.map_none]

/-- Settles O53: the checked loop refuses at the first unsafe pass, and without one it is the wide
loop. -/
theorem checkedDivisionStopsAtMaxsafe : Obligations.CheckedDivisionStopsAtMaxsafe := by
  intro s rd ra rb imm e at_ he hat
  obtain rfl : e = s.divDigits rb imm := he
  simp only [hat, divPass_eq_widePass]
  refine ⟨encodedAs (.ddivs rd ra rb imm), fun ⟨j, hj, hexceeds⟩ => ?_, fun hsafe q hq => ?_⟩
  · exact exec_setFlag_only (exec_ddivs_refuses rd fun hsafe => (hsafe j hj).not_gt hexceeds)
  · subst hq
    exact exec_quotientInto_ok (exec_ddivs_of_safe rd hsafe) (wideClose_lt _ _ _)

/-! ## Exactness (R213, R215, R218) -/

/-- The loop's invariant: the quotient is the exact one reduced modulo 2^W, and the exact one times the
divisor, plus the remainder, is the dividend times 10^j. The remainders do not wrap. -/
theorem widePass_iterate_exact {W a b : Nat} (hb : 0 < b) (hfit : 10 * (b - 1) < 2 ^ W) (j : Nat) :
    ∃ q r, (widePass W b)^[j] (0, a) = (q % 2 ^ W, r) ∧ q * b + r = a * 10 ^ j := by
  induction j with
  | zero => exact ⟨0, a, by rw [Nat.zero_mod]; rfl, by simp⟩
  | succ j ih =>
    obtain ⟨q, r, hpass, hsum⟩ := ih
    refine ⟨(q + r / b) * 10, r % b * 10, ?_, ?_⟩
    · have hrem : r % b * 10 < 2 ^ W := by
        have := Nat.mod_lt r hb
        omega
      rw [Function.iterate_succ_apply', hpass, widePass, udivQ_of_ne_zero hb.ne',
        udivR_of_ne_zero hb.ne', Nat.mod_eq_of_lt hrem, Nat.mod_add_mod, Nat.mod_mul_mod]
    · calc (q + r / b) * 10 * b + r % b * 10
          = (q * b + (r / b * b + r % b)) * 10 := by ring
        _ = a * 10 ^ (j + 1) := by rw [Nat.div_add_mod', hsum, pow_succ, mul_assoc]

/-- So DDIVW's quotient is the quotient of the dividend times 10^e, where that fits. -/
theorem wideClose_exact {W a b e : Nat} (hb : 0 < b) (hfit : 10 * (b - 1) < 2 ^ W)
    (hq : a * 10 ^ e / b < 2 ^ W) :
    wideClose W b ((widePass W b)^[e] (0, a)) = a * 10 ^ e / b := by
  obtain ⟨q, r, hpass, hsum⟩ := widePass_iterate_exact (a := a) hb hfit e
  have hquot : a * 10 ^ e / b = q + r / b := by
    rw [← hsum, Nat.add_comm, Nat.add_mul_div_right _ _ hb, Nat.add_comm]
  rw [hpass, wideClose, udivQ_of_ne_zero hb.ne', Nat.mod_add_mod, ← hquot, Nat.mod_eq_of_lt hq]

theorem fastQuotient_exact {W a b e : Nat} (hb : b ≠ 0) (hfit : a * 10 ^ e < 2 ^ W) :
    fastQuotient W a b e = a * 10 ^ e / b := by
  rw [fastQuotient_eq, Nat.mod_eq_of_lt hfit, udivQ_of_ne_zero hb]

/-! ## The truncated quotient of two numbers (00_scope.md R12) -/

theorem truncToward0_natCast_div (m k : Nat) : truncToward0 ((m : ℚ) / (k : ℚ)) = ((m / k : Nat) : Int) := by
  have hnonneg : (0 : ℚ) ≤ (m : ℚ) / (k : ℚ) := by positivity
  rw [truncToward0, if_pos hnonneg, Rat.floor_natCast_div_natCast, Int.natCast_div]

theorem truncToward0_neg (x : ℚ) : truncToward0 (-x) = -truncToward0 x := by
  rcases lt_trichotomy x 0 with hx | rfl | hx
  · rw [truncToward0, truncToward0, if_pos (by linarith), if_neg (by linarith), Int.floor_neg]
  · simp [truncToward0]
  · rw [truncToward0, truncToward0, if_neg (by linarith), if_pos hx.le, Int.ceil_neg]

/-- A quotient of integers is the quotient of the magnitudes, signed. -/
theorem intCast_div_eq_signed (x y : Int) : (x : ℚ) / (y : ℚ)
    = if decide (x < 0) = decide (y < 0) then (x.natAbs : ℚ) / (y.natAbs : ℚ)
      else -((x.natAbs : ℚ) / (y.natAbs : ℚ)) := by
  have hcast : ∀ z : Int, ((z.natAbs : Nat) : ℚ) = if z < 0 then -(z : ℚ) else (z : ℚ) := by
    intro z
    rw [Nat.cast_natAbs, Int.cast_abs]
    split
    · next h => exact abs_of_neg (by exact_mod_cast h)
    · next h => exact abs_of_nonneg (by exact_mod_cast Int.not_lt.mp h)
  rw [hcast, hcast]
  by_cases hx : x < 0 <;> by_cases hy : y < 0 <;> simp [hx, hy, neg_div, div_neg]

theorem truncToward0_intCast_div (x y : Int) :
    truncToward0 ((x : ℚ) / (y : ℚ)) = signedQuotient x y (x.natAbs / y.natAbs) := by
  rw [intCast_div_eq_signed, signedQuotient]
  split
  · exact truncToward0_natCast_div _ _
  · rw [truncToward0_neg, truncToward0_natCast_div]

/-- Dividing two Decimals and scaling the quotient up to p digits more than the dividend's. -/
theorem denotes_div_mul (x y : Int) (a b p : Nat) :
    denotes x a / denotes y b * (10 : ℚ) ^ (a + p)
      = ((x * (10 : Int) ^ (b + p) : Int) : ℚ) / (y : ℚ) := by
  rcases eq_or_ne (y : ℚ) 0 with hy | hy
  · simp [denotes, hy]
  · rw [denotes, denotes, pow_add, pow_add]
    push_cast
    field_simp

theorem signedQuotient_mul_pos {k : Int} (hk : 0 < k) (x y : Int) (q : Nat) :
    signedQuotient (x * k) y q = signedQuotient x y q := by
  have hneg : x * k < 0 ↔ x < 0 := by
    rw [← Int.neg_pos, ← Int.neg_mul, mul_pos_iff_of_pos_right hk, Int.neg_pos]
  simp only [signedQuotient, hneg]

/-- A division that found the quotient of the magnitudes, in the positive range, is exact. -/
theorem State.quotient_exact {s t u : State} {rd ra rb : Reg} {imm : Imm} {e q : Nat}
    (he : e = s.scale rb + imm.toNat) (hscale : s.scale ra + imm.toNat < 2 ^ 32)
    (hq : q = (s.sg ra).natAbs * 10 ^ e / (s.sg rb).natAbs) (hrange : q ≤ 2 ^ (s.W - 1) - 1)
    (hu : u = s.quotientInto rd ra rb imm q) (hsg : t.sg rd = u.sg rd)
    (hsc : t.scale rd = u.scale rd) :
    t.scale rd = s.scale ra + imm.toNat
    ∧ t.sg rd = truncToward0 (denotes (s.sg ra) (s.scale ra) / denotes (s.sg rb) (s.scale rb)
        * (10 : ℚ) ^ t.scale rd) := by
  have hlt : q < 2 ^ (s.W - 1) := by
    have := Nat.two_pow_pos (s.W - 1)
    omega
  have hfit : q < 2 ^ s.W := hlt.trans_le (Nat.pow_le_pow_right two_pos (Nat.sub_le _ _))
  have hin : InSigned s.W (signedQuotient (s.sg ra) (s.sg rb) q) :=
    inSigned_of_natAbs_lt (by rwa [natAbs_signedQuotient])
  rw [s.quotientInto_eq rd ra rb imm hfit] at hu
  subst hu
  have hsc' : t.scale rd = s.scale ra + imm.toNat := by
    rw [hsc, State.scale_setFlag, s.scale_putDec rd _ (scaleSum_lt _ _), scaleSum_of_lt hscale]
  have hsg' : t.sg rd = signedQuotient (s.sg ra) (s.sg rb) q :=
    hsg.trans ((s.sg_putDec_iff rd _ (scaleSum (s.scale ra) imm.toNat)).mpr hin)
  refine ⟨hsc', ?_⟩
  rw [hsc', hsg', denotes_div_mul, truncToward0_intCast_div, signedQuotient_mul_pos (by positivity),
    Int.natAbs_mul, Int.natAbs_pow, hq, he]
  rfl

/-- Settles O54: in its range each algorithm finds the quotient of |a| * 10^e by |b|, and with the sign
put back that is the quotient of the numbers, truncated toward zero. -/
theorem divisionsAreExactInTheirRange : Obligations.DivisionsAreExactInTheirRange := by
  intro s t rd ra rb imm e he hlt hscale hne h
  have hb : 0 < (s.sg rb).natAbs := Int.natAbs_pos.mpr hne
  have hdigits : s.divDigits rb imm = e := he ▸ scaleSum_of_lt (he ▸ hlt)
  have hpow : 2 ^ (s.W - 1) ≤ 2 ^ s.W := Nat.pow_le_pow_right two_pos (Nat.sub_le _ _)
  have hpos := Nat.two_pow_pos (s.W - 1)
  rcases h with ⟨hexec, hrange⟩ | ⟨hexec, hfit, hrange⟩
  · rw [exec_ddivf_quotient, hdigits, fastQuotient_exact hb.ne' (by omega)] at hexec
    cases hexec
    exact State.quotient_exact he hscale rfl ((Nat.div_le_self _ _).trans hrange) rfl rfl rfl
  · have hclose := wideClose_exact (e := e) hb hfit (by omega : (s.sg ra).natAbs * 10 ^ e / _ < _)
    rw [← hdigits] at hclose
    rcases hexec with hexec | ⟨hexec, hok⟩
    · rw [exec_ddivw_quotient, hclose, hdigits] at hexec
      cases hexec
      exact State.quotient_exact he hscale rfl hrange rfl rfl rfl
    · obtain ⟨-, rfl⟩ := of_not_refused hexec hok (exec_ddivs_of_safe rd) (exec_ddivs_refuses rd)
      rw [hclose, hdigits]
      exact State.quotient_exact he hscale rfl hrange rfl rfl rfl

end Sys2Proof.Machine
end

section
/-! PROOFS. Decimal comparison: both the executable order and the staged algorithm are the order of the
rational numbers denoted (49_dec_cmp_text.md R225 to R232). -/

namespace Sys2Proof.Machine

/-! ## Comparing denoted numbers -/

theorem compare_congr {α β : Type} [LinearOrder α] [LinearOrder β] {a b : α} {c d : β}
    (hlt : a < b ↔ c < d) (heq : a = b ↔ c = d) : compare a b = compare c d := by
  rcases lt_trichotomy a b with h | h | h
  · rw [compare_lt_iff_lt.mpr h, compare_lt_iff_lt.mpr (hlt.mp h)]
  · rw [compare_eq_iff_eq.mpr h, compare_eq_iff_eq.mpr (heq.mp h)]
  · have hcd : d < c := by
      rcases lt_trichotomy c d with h' | h' | h'
      · exact absurd (hlt.mpr h') h.asymm
      · exact absurd (heq.mpr h') h.ne'
      · exact h'
    rw [compare_gt_iff_gt.mpr h, compare_gt_iff_gt.mpr hcd]

theorem compare_swap_eq {α : Type} [LinearOrder α] (a b : α) : (compare a b).swap = compare b a :=
  Std.OrientedCmp.eq_swap.symm

theorem compare_denotes_same (x y : Int) (n : Nat) :
    compare (denotes x n) (denotes y n) = compare x y := by
  have hpos : (0 : ℚ) < 10 ^ n := by positivity
  refine compare_congr ?_ ?_
  · rw [denotes, denotes, div_lt_div_iff_of_pos_right hpos, Int.cast_lt]
  · rw [denotes, denotes, div_left_inj' hpos.ne', Int.cast_inj]

/-- Two Decimals compare as their integers at a common scale. -/
theorem compare_denotes_of_le (x y : Int) {sa sb t : Nat} (ha : sa ≤ t) (hb : sb ≤ t) :
    compare (denotes x sa) (denotes y sb)
      = compare (x * (10 : Int) ^ (t - sa)) (y * (10 : Int) ^ (t - sb)) := by
  rw [← denotes_mul_ten_pow x ha, ← denotes_mul_ten_pow y hb, compare_denotes_same]

/-- The lower scale's integer is scaled up. -/
theorem compare_denotes_left (x y : Int) {sa sb : Nat} (h : sa ≤ sb) :
    compare (denotes x sa) (denotes y sb) = compare (x * (10 : Int) ^ (sb - sa)) y := by
  rw [compare_denotes_of_le x y h le_rfl, Nat.sub_self, pow_zero, mul_one]

theorem compare_denotes_right (x y : Int) {sa sb : Nat} (h : sb ≤ sa) :
    compare (denotes x sa) (denotes y sb) = compare x (y * (10 : Int) ^ (sa - sb)) := by
  rw [compare_denotes_of_le x y le_rfl h, Nat.sub_self, pow_zero, mul_one]

/-! ## Powers of two between powers of ten (R230) -/

/-- 30102/100000 is below 59/196, and 59/196 is below log10 2. -/
theorem ten_pow_le_two_pow_of_lower (n : Nat) : 10 ^ (n * 30102 / 100000) ≤ 2 ^ n := by
  refine le_of_pow_le_pow_left₀ (by decide : 59 ≠ 0) (Nat.zero_le _) ?_
  calc (10 ^ (n * 30102 / 100000)) ^ 59
      = (10 ^ 59) ^ (n * 30102 / 100000) := pow_right_comm _ _ _
    _ ≤ (2 ^ 196) ^ (n * 30102 / 100000) := Nat.pow_le_pow_left (by norm_num) _
    _ = 2 ^ (196 * (n * 30102 / 100000)) := (pow_mul _ _ _).symm
    _ ≤ 2 ^ (n * 59) := Nat.pow_le_pow_right two_pos (by omega)
    _ = (2 ^ n) ^ 59 := pow_mul _ _ _

theorem two_pow_485_le : 2 ^ 485 ≤ 10 ^ 146 :=
  calc 2 ^ 485 = (2 ^ 97) ^ 5 := pow_mul 2 97 5
    _ ≤ (10 ^ 29) ^ 5 * 10 := by norm_num
    _ = 10 ^ 146 := by rw [← pow_mul, ← pow_succ]

/-- For at most 512 bits, 30103/100000 and one digit more reach as far as 146/485, which is above
log10 2. -/
theorem two_pow_le_ten_pow_of_upper {n : Nat} (hn : n ≤ 512) : 2 ^ n ≤ 10 ^ (n * 30103 / 100000 + 1) := by
  refine le_of_pow_le_pow_left₀ (by decide : 146 ≠ 0) (Nat.zero_le _) ?_
  calc (2 ^ n) ^ 146
      = 2 ^ (n * 146) := (pow_mul _ _ _).symm
    _ ≤ 2 ^ (485 * (n * 30103 / 100000 + 1)) := Nat.pow_le_pow_right two_pos (by omega)
    _ = (2 ^ 485) ^ (n * 30103 / 100000 + 1) := by rw [pow_mul]
    _ ≤ (10 ^ 146) ^ (n * 30103 / 100000 + 1) := Nat.pow_le_pow_left two_pow_485_le (n * 30103 / 100000 + 1)
    _ = (10 ^ (n * 30103 / 100000 + 1)) ^ 146 := pow_right_comm _ _ _

theorem Width.digMax_eq (w : Width) : w.digMax = w.bits * 30103 / 100000 + 1 := by
  cases w <;> decide

/-- DIGMAX digits hold every W-bit value (00_scope.md R7). -/
theorem two_pow_bits_le (w : Width) : 2 ^ w.bits ≤ 10 ^ w.digMax := by
  rw [Width.digMax_eq]
  exact two_pow_le_ten_pow_of_upper (Width.bits_le w)

/-! ## The executable order (R225) -/

/-- An integer scaled up past every value of the other compares by its sign. -/
theorem compare_mul_ten_pow_far {x y : Int} {k : Nat} (hx : x ≠ 0) (hy : y.natAbs < 10 ^ k) :
    compare (x * (10 : Int) ^ k) y = compare x 0 := by
  have hk : ((10 ^ k : Nat) : Int) = (10 : Int) ^ k := Nat.cast_pow _ _
  rcases lt_or_gt_of_ne hx with h | h
  · have : x * (10 : Int) ^ k ≤ -1 * (10 : Int) ^ k :=
      mul_le_mul_of_nonneg_right (by omega) (by positivity)
    rw [compare_lt_iff_lt.mpr h, compare_lt_iff_lt.mpr (by omega)]
  · have : 1 * (10 : Int) ^ k ≤ x * (10 : Int) ^ k :=
      mul_le_mul_of_nonneg_right (by omega) (by positivity)
    rw [compare_gt_iff_gt.mpr h, compare_gt_iff_gt.mpr (by omega)]

/-- A scale difference of DIGMAX or more decides by the sign, or by the other operand's where the first
is 0. -/
theorem dcmp_far {x y : Int} {D k : Nat} (hD : D ≤ k) (hy : y.natAbs < 10 ^ D) :
    (if x = 0 then compare 0 y else compare x 0) = compare (x * (10 : Int) ^ k) y := by
  by_cases hx : x = 0
  · rw [if_pos hx, hx, zero_mul]
  · rw [if_neg hx, compare_mul_ten_pow_far hx (hy.trans_le (Nat.pow_le_pow_right (by decide) hD))]

/-- dcmp is the order of the numbers denoted, for values of at most DIGMAX digits. -/
theorem dcmp_eq_compare {w : Width} {x y : Int} (sa sb : Nat) (hx : x.natAbs < 10 ^ w.digMax)
    (hy : y.natAbs < 10 ^ w.digMax) :
    dcmp w x sa y sb = compare (denotes x sa) (denotes y sb) := by
  unfold dcmp
  rcases lt_trichotomy sa sb with h | rfl | h
  · rw [if_neg h.ne, if_pos h, compare_denotes_left x y h.le, Nat.cast_pow, Nat.cast_ofNat]
    split
    · next hfar => exact dcmp_far hfar hy
    · rfl
  · rw [if_pos rfl, compare_denotes_same]
  · rw [if_neg h.ne', if_neg h.asymm, compare_denotes_right x y h.le, Nat.cast_pow, Nat.cast_ofNat]
    split
    · next hfar =>
      rw [← compare_swap_eq (y * (10 : Int) ^ (sa - sb)) x, ← dcmp_far hfar hx,
        apply_ite Ordering.swap, compare_swap_eq, compare_swap_eq]
    · rfl

theorem State.natAbs_sg_lt (s : State) (r : Reg) : (s.sg r).natAbs < 10 ^ s.params.width.digMax := by
  have hmag : (s.sg r).natAbs < 2 ^ s.W := s.mag_eq_natAbs_sg r ▸ magW_lt (s.u_lt r)
  exact hmag.trans_le (two_pow_bits_le _)

theorem State.compareDec_eq (s : State) (ra rb : Reg) : s.compareDec ra rb
    = compare (denotes (s.sg ra) (s.scale ra)) (denotes (s.sg rb) (s.scale rb)) :=
  dcmp_eq_compare _ _ (s.natAbs_sg_lt ra) (s.natAbs_sg_lt rb)

/-- Settles O55: T is the answer of dcmp, which is the order of the numbers denoted. -/
theorem decimalComparisonIsExact : Obligations.DecimalComparisonIsExact := by
  intro s ra rb
  have heq := exec_setFlag_decide (i := .deq ra rb) (s := s) rfl
  have hlt := exec_setFlag_decide (i := .dlt ra rb) (s := s) rfl
  rw [s.compareDec_eq] at heq hlt
  simp only [compare_eq_iff_eq] at heq
  simp only [compare_lt_iff_lt] at hlt
  exact ⟨⟨encodedAs (.deq ra rb), heq⟩, encodedAs (.dlt ra rb), hlt⟩

/-! ## Stage 3: orders of magnitude (R230) -/

theorem ten_zpow_magLow_le {m : Nat} (hm : m ≠ 0) (sc : Nat) :
    (10 : ℚ) ^ magLow m sc ≤ denotes (m : Int) sc := by
  have hpow : (10 : ℚ) ^ (msbW m * 30102 / 100000) ≤ (m : ℚ) := by
    exact_mod_cast (ten_pow_le_two_pow_of_lower _).trans (two_pow_msbW_le hm)
  rw [magLow, zpow_sub₀ (by norm_num), zpow_natCast, zpow_natCast, denotes, Int.cast_natCast]
  exact div_le_div_of_nonneg_right hpow (by positivity)

theorem denotes_lt_ten_zpow_magHigh {m : Nat} (hm : msbW m < 512) (sc : Nat) :
    denotes (m : Int) sc < (10 : ℚ) ^ magHigh m sc := by
  have hpow : (m : ℚ) < (10 : ℚ) ^ ((msbW m + 1) * 30103 / 100000 + 1) := by
    exact_mod_cast (lt_two_pow_msbW_succ m).trans_le (two_pow_le_ten_pow_of_upper hm)
  have hexp : magHigh m sc = (((msbW m + 1) * 30103 / 100000 + 1 : Nat) : Int) - (sc : Int) := by
    rw [magHigh, Nat.cast_add, Nat.cast_one]
  rw [hexp, zpow_sub₀ (by norm_num), zpow_natCast, zpow_natCast, denotes, Int.cast_natCast]
  exact div_lt_div_of_pos_right hpow (by positivity)

/-- Intervals that do not overlap order the numbers. -/
theorem denotes_lt_of_magHigh_le_magLow {ma mb sa sb : Nat} (ha : msbW ma < 512) (hb : mb ≠ 0)
    (h : magHigh ma sa ≤ magLow mb sb) : denotes (ma : Int) sa < denotes (mb : Int) sb :=
  calc denotes (ma : Int) sa
      < (10 : ℚ) ^ magHigh ma sa := denotes_lt_ten_zpow_magHigh ha sa
    _ ≤ (10 : ℚ) ^ magLow mb sb := zpow_le_zpow_right₀ (by norm_num) h
    _ ≤ denotes (mb : Int) sb := ten_zpow_magLow_le hb sb

/-! ## Stages 4 and 5: alignment (R231, R232) -/

/-- By P1 an accepted alignment does not wrap. -/
theorem mulPow10_of_scaleUpOk {p : Params} {v k : Nat} (hv : v < 2 ^ p.width.bits)
    (hok : scaleUpOk p v k = true) :
    mulPow10 p.width.bits (magW p.width.bits v) k = magW p.width.bits v * 10 ^ k := by
  rw [mulPow10_eq]
  refine Nat.mod_eq_of_lt ?_
  rcases Nat.eq_zero_or_pos k with rfl | hk
  · simpa using magW_lt hv
  · rw [scaleUpOk, decide_eq_false hk.ne', Bool.false_or] at hok
    exact (mul_ten_pow_lt_of_headroomOk hk hok (magW_lt hv)).trans_le
      (Nat.pow_le_pow_right two_pos (Nat.sub_le _ _))

/-- Truncating the longer magnitude, the discarded remainder breaking a tie, compares exactly. -/
theorem truncCompare_eq_compare {W ma : Nat} (hma : ma < 2 ^ W) (mb k : Nat) :
    truncCompare W ma mb k = compare ma (mb * 10 ^ k) := by
  have hpos : 0 < 10 ^ k := Nat.pow_pos (by decide)
  rw [truncCompare, divPow10_eq hma, modPow10NeZero_eq hma]
  by_cases hlt : ma / 10 ^ k < mb
  · rw [if_pos hlt, compare_lt_iff_lt.mpr ((Nat.div_lt_iff_lt_mul hpos).mp hlt)]
  rw [if_neg hlt]
  by_cases hgt : mb < ma / 10 ^ k
  · have : (mb + 1) * 10 ^ k ≤ ma := (Nat.le_div_iff_mul_le hpos).mp hgt
    rw [if_pos hgt, compare_gt_iff_gt.mpr (by linarith)]
  rw [if_neg hgt]
  have hsplit : mb * 10 ^ k + ma % 10 ^ k = ma := by
    rw [show mb = ma / 10 ^ k by omega, Nat.div_add_mod']
  by_cases hrem : ma % 10 ^ k = 0
  · rw [if_neg (by simpa using hrem), compare_eq_iff_eq.mpr (by omega)]
  · rw [if_pos (by simpa using hrem), compare_gt_iff_gt.mpr (by omega)]

theorem compare_natCast (a b : Nat) : compare (a : Int) (b : Int) = compare a b :=
  compare_congr Int.ofNat_lt Int.natCast_inj

/-- Stages 3 to 5 order the magnitudes. -/
theorem magCompare_eq_compare {p : Params} {va vb : Nat} (sa sb : Nat)
    (hva : va < 2 ^ p.width.bits) (hvb : vb < 2 ^ p.width.bits)
    (ha : magW p.width.bits va ≠ 0) (hb : magW p.width.bits vb ≠ 0) :
    magCompare p va sa vb sb = compare (denotes (magW p.width.bits va : Nat) sa)
      (denotes (magW p.width.bits vb : Nat) sb) := by
  have hW : 0 < p.width.bits := by cases p.width <;> decide
  have hmsb : ∀ {v}, v < 2 ^ p.width.bits → msbW (magW p.width.bits v) < 512 := fun hv =>
    (msbW_lt hW (magW_lt hv)).trans_le (Width.bits_le p.width)
  unfold magCompare
  dsimp only
  split
  · next hbelow =>
    rw [compare_lt_iff_lt.mpr (denotes_lt_of_magHigh_le_magLow (hmsb hva) hb hbelow)]
  split
  · next habove =>
    rw [compare_gt_iff_gt.mpr (denotes_lt_of_magHigh_le_magLow (hmsb hvb) ha habove)]
  split
  · next hok =>
    obtain ⟨hoka, hokb⟩ := Bool.and_eq_true_iff.mp hok
    rw [mulPow10_of_scaleUpOk hva hoka, mulPow10_of_scaleUpOk hvb hokb,
      compare_denotes_of_le _ _ (le_max_left sa sb) (le_max_right sa sb), ← compare_natCast]
    push_cast
    rfl
  split
  · next h =>
    rw [truncCompare_eq_compare (magW_lt hva), compare_denotes_right _ _ h.le, ← compare_natCast]
    push_cast
    rfl
  · next h =>
    rw [truncCompare_eq_compare (magW_lt hvb), compare_swap_eq, compare_denotes_left _ _ (by omega),
      ← compare_natCast]
    push_cast
    rfl

/-! ## Stages 1 and 2 (R228, R229) -/

theorem signedVal_eq_zero_iff {W v : Nat} (hW : 0 < W) (hv : v < 2 ^ W) : signedVal W v = 0 ↔ v = 0 := by
  have htop := topBit_iff hW hv
  have hhalf := two_pow_pred hW
  unfold signedVal
  split
  · next h =>
    have := htop.mp h
    omega
  · exact Int.natCast_eq_zero

/-- Stage 2's class is the sign of the number denoted. -/
theorem signClass_eq_sign {W v : Nat} (hW : 0 < W) (hv : v < 2 ^ W) (sc : Nat) :
    signClass W v = (SignType.sign (denotes (signedVal W v) sc) : Int) := by
  have hpos : (0 : ℚ) < 10 ^ sc := by positivity
  unfold signClass denotes
  split
  · next h =>
    have hneg : (signedVal W v : ℚ) < 0 := by exact_mod_cast (signedVal_neg_iff hW hv).mp h
    rw [sign_neg (div_neg_of_neg_of_pos hneg hpos)]
    rfl
  · next h =>
    have hnonneg : 0 ≤ signedVal W v := not_lt.mp (mt (signedVal_neg_iff hW hv).mpr h)
    split
    · next hzero => simp [(signedVal_eq_zero_iff hW hv).mpr hzero]
    · next hne =>
      have hne' : signedVal W v ≠ 0 := mt (signedVal_eq_zero_iff hW hv).mp hne
      have hgt : (0 : ℚ) < signedVal W v := by exact_mod_cast lt_of_le_of_ne hnonneg hne'.symm
      rw [sign_pos (div_pos hgt hpos)]
      rfl

theorem signType_intCast_lt : ∀ {a b : SignType}, (a : Int) < b → a < b := by decide

/-- Numbers of different signs compare as their signs. -/
theorem compare_of_sign_ne {x y : ℚ} (h : (SignType.sign x : Int) ≠ SignType.sign y) :
    compare (SignType.sign x : Int) (SignType.sign y) = compare x y := by
  rcases lt_or_gt_of_ne h with hlt | hgt
  · have hxy : x < y := SignType.sign.monotone.reflect_lt (signType_intCast_lt hlt)
    rw [compare_lt_iff_lt.mpr hlt, compare_lt_iff_lt.mpr hxy]
  · have hyx : y < x := SignType.sign.monotone.reflect_lt (signType_intCast_lt hgt)
    rw [compare_gt_iff_gt.mpr hgt, compare_gt_iff_gt.mpr hyx]

theorem signClass_eq_neg_one_iff (W v : Nat) : signClass W v = -1 ↔ topBit W v = true := by
  unfold signClass
  split
  · next h => simp [h]
  · next h => split <;> simp [h]

theorem signClass_eq_zero_iff (W v : Nat) : signClass W v = 0 ↔ v = 0 := by
  unfold signClass
  split
  · next h =>
    have hne : v ≠ 0 := by
      rintro rfl
      simp [topBit] at h
    simp [hne]
  · split <;> simp [*]

/-! ## The staged algorithm (R228 to R232) -/

theorem denotes_neg (x : Int) (n : Nat) : denotes (-x) n = -denotes x n := by
  rw [denotes, denotes, Int.cast_neg, neg_div]

theorem compare_neg_neg (x y : ℚ) : compare (-x) (-y) = compare y x :=
  compare_congr neg_lt_neg_iff (neg_inj.trans eq_comm)

theorem stagedCompare_eq_compare {p : Params} {va vb : Nat} (sa sb : Nat)
    (hva : va < 2 ^ p.width.bits) (hvb : vb < 2 ^ p.width.bits) :
    stagedCompare p va sa vb sb = compare (denotes (signedVal p.width.bits va) sa)
      (denotes (signedVal p.width.bits vb) sb) := by
  have hW : 0 < p.width.bits := by cases p.width <;> decide
  have hmag : ∀ {v}, v < 2 ^ p.width.bits → v ≠ 0 → magW p.width.bits v ≠ 0 := fun hv hne => by
    rw [magW_eq hW hv]
    exact Int.natAbs_ne_zero.mpr (mt (signedVal_eq_zero_iff hW hv).mp hne)
  unfold stagedCompare
  dsimp only
  split
  · next hscale =>
    rw [hscale, compare_denotes_same]
  split
  · next hclass =>
    rw [signClass_eq_sign hW hva sa, signClass_eq_sign hW hvb sb] at hclass ⊢
    exact compare_of_sign_ne hclass
  next hclass =>
  have hclass' : signClass p.width.bits va = signClass p.width.bits vb := not_not.mp hclass
  have hzero : va = 0 ↔ vb = 0 := by
    rw [← signClass_eq_zero_iff p.width.bits va, hclass', signClass_eq_zero_iff]
  have htop : topBit p.width.bits va = true ↔ topBit p.width.bits vb = true := by
    rw [← signClass_eq_neg_one_iff, hclass', signClass_eq_neg_one_iff]
  split
  · next hva0 =>
    rw [(signedVal_eq_zero_iff hW hva).mpr hva0, (signedVal_eq_zero_iff hW hvb).mpr (hzero.mp hva0)]
    simp [denotes]
  next hva0 =>
  have hmagCompare := magCompare_eq_compare sa sb hva hvb (hmag hva hva0)
    (hmag hvb (mt hzero.mpr hva0))
  rw [signedVal_eq_sign_mag hW hva, signedVal_eq_sign_mag hW hvb, hmagCompare]
  split
  · next hneg =>
    rw [if_pos (htop.mp hneg), denotes_neg, denotes_neg, compare_neg_neg, compare_swap_eq]
  · next hpos =>
    rw [if_neg (mt htop.mpr hpos)]

/-- Settles O56: the staged algorithm computes the order of the numbers denoted. -/
theorem stagedComparisonAgrees : Obligations.StagedComparisonAgrees := by
  intro p va sa vb sb hva hvb
  rw [stagedCompare_eq_compare sa sb hva hvb, compare_lt_iff_lt, compare_eq_iff_eq]
  exact ⟨Iff.rfl, Iff.rfl⟩

end Sys2Proof.Machine
end

section
/-! PROOFS. Decimal-with-scale text: LDDCM as a parse of the digits with the point taken out, STDCM as
the digits with the point put in (49_dec_cmp_text.md R234, R235). -/

namespace Sys2Proof.Machine

/-! ## Parsing around a point (R234) -/

theorem digitOf_charPoint : digitOf charPoint 10 = none := by decide

/-- A string of digits has no point in it. -/
theorem State.charPoint_notMem_window {s : State} {a n : Nat} (h : s.allDigits 10 a n) :
    charPoint ∉ s.window a n := fun hmem =>
  (s.not_allDigits_iff 10 a n).mpr ⟨charPoint, hmem, digitOf_charPoint⟩ h

/-- After the point only digits are acceptable, and each adds one to the scale. -/
theorem parsePoint_seen (M acc sc : Nat) (cs : List Byte) :
    parsePoint M acc true sc cs = (parseDigits 10 M acc cs).map fun x => (x, sc + cs.length) := by
  induction cs generalizing acc sc with
  | nil => rfl
  | cons c cs ih =>
    by_cases hpoint : c = charPoint
    · simp [parsePoint, parseDigits, hpoint, digitOf_charPoint]
    · cases hc : digitOf c 10 with
      | none => simp [parsePoint, parseDigits, hpoint, hc]
      | some d => simp [parsePoint, parseDigits, hpoint, hc, ih, Nat.add_assoc, Nat.add_comm]

/-- Without a point the scale is 0. -/
theorem parsePoint_of_notMem {cs : List Byte} (h : charPoint ∉ cs) (M acc : Nat) :
    parsePoint M acc false 0 cs = (parseDigits 10 M acc cs).map fun x => (x, 0) := by
  induction cs generalizing acc with
  | nil => rfl
  | cons c cs ih =>
    rw [List.mem_cons, not_or] at h
    obtain ⟨hc, hcs⟩ := h
    have hpoint : c ≠ charPoint := fun heq => hc heq.symm
    cases hd : digitOf c 10 with
    | none => simp [parsePoint, parseDigits, hpoint, hd]
    | some d => simp [parsePoint, parseDigits, hpoint, hd, ih hcs]

/-- With a point the digits on both sides make one number, and those after it the scale. -/
theorem parsePoint_append_point {xs : List Byte} (h : charPoint ∉ xs) (M acc : Nat) (ys : List Byte) :
    parsePoint M acc false 0 (xs ++ charPoint :: ys)
      = (parseDigits 10 M acc (xs ++ ys)).map fun x => (x, ys.length) := by
  induction xs generalizing acc with
  | nil => simp [parsePoint, parsePoint_seen]
  | cons c xs ih =>
    rw [List.mem_cons, not_or] at h
    obtain ⟨hc, hxs⟩ := h
    have hpoint : c ≠ charPoint := fun heq => hc heq.symm
    cases hd : digitOf c 10 with
    | none => simp [parsePoint, parseDigits, hpoint, hd]
    | some d => simp [parsePoint, parseDigits, hpoint, hd, ih hxs]

/-! ## Windows of characters -/

theorem State.window_add (s : State) (a m n : Nat) :
    s.window a (m + n) = s.window a m ++ s.window (a + m) n := by
  simp [State.window, List.range_add, Nat.add_assoc]

theorem State.window_split {s : State} {n p : Nat} (a : Nat) (hp : p < n) :
    s.window a n = s.window a p ++ s.bufByte (a + p) :: s.window (a + p + 1) (n - p - 1) := by
  have hn : n = p + (n - p - 1 + 1) := by omega
  rw [← State.window_succ_eq_cons, ← State.window_add, ← hn]

/-- Digits read after a number append to it. -/
theorem parseDigits_window_from {s : State} {base a n : Nat} (M acc : Nat)
    (h : s.allDigits base a n) : parseDigits base M (acc % M) (s.window a n)
      = some ((acc * base ^ n + s.digitsValue base a n) % M) := by
  induction n with
  | zero => simp [parseDigits, State.digitsValue]
  | succ n ih =>
    have hinit : s.allDigits base a n := fun j hj => h j (Nat.lt_succ_of_lt hj)
    have hlast := State.digitOf_eq_some_digitAt (h n n.lt_succ_self)
    have hvalue : acc * base ^ (n + 1) + s.digitsValue base a (n + 1)
        = (acc * base ^ n + s.digitsValue base a n) * base + s.digitAt base (a + n) := by
      rw [State.digitsValue_succ, pow_succ]
      ring
    rw [State.window_succ, parseDigits_append, ih hinit, hvalue]
    simp [parseDigits, hlast, Nat.add_mod, Nat.mul_mod]

/-- The number of two strings of digits, one after the other. -/
theorem parseDigits_window_append {s : State} {a b p f : Nat} (M : Nat) (ha : s.allDigits 10 a p)
    (hb : s.allDigits 10 b f) : parseDigits 10 M 0 (s.window a p ++ s.window b f)
      = some ((s.digitsValue 10 a p * 10 ^ f + s.digitsValue 10 b f) % M) := by
  rw [parseDigits_append, parseDigits_window_of_allDigits M ha, Option.bind_some,
    parseDigits_window_from M _ hb]

section
variable {s : State} {a n : Nat} (M : Nat)

theorem parsePoint_window_of_allDigits (h : s.allDigits 10 a n) :
    parsePoint M 0 false 0 (s.window a n) = some (s.digitsValue 10 a n % M, 0) := by
  rw [parsePoint_of_notMem (State.charPoint_notMem_window h), parseDigits_window_of_allDigits M h,
    Option.map_some]

theorem parsePoint_window_of_pointedDigits {p : Nat} (h : s.pointedDigits a n p) :
    parsePoint M 0 false 0 (s.window a n)
      = some ((s.digitsValue 10 a p * 10 ^ (n - p - 1) + s.digitsValue 10 (a + p + 1) (n - p - 1)) % M,
          n - p - 1) := by
  obtain ⟨hp, hpoint, hint, hfrac⟩ := h
  rw [State.window_split a hp, hpoint]
  refine (parsePoint_append_point (State.charPoint_notMem_window hint) M 0 _).trans ?_
  rw [parseDigits_window_append M hint hfrac, Option.map_some, State.window_length]

/-- The first point of a window. -/
theorem State.exists_first_point (h : charPoint ∈ s.window a n) :
    ∃ p < n, s.bufByte (a + p) = charPoint ∧ charPoint ∉ s.window a p := by
  induction n with
  | zero => cases h
  | succ n ih =>
    by_cases hinit : charPoint ∈ s.window a n
    · obtain ⟨p, hp, hfirst⟩ := ih hinit
      exact ⟨p, hp.trans n.lt_succ_self, hfirst⟩
    · rw [State.window_succ, List.mem_append, List.mem_singleton] at h
      exact ⟨n, n.lt_succ_self, (h.resolve_left hinit).symm, hinit⟩

/-- Neither digits alone nor digits around one point: a character is not acceptable, or a second point
stands. -/
theorem parsePoint_window_eq_none (hdigits : ¬s.allDigits 10 a n)
    (hpointed : ∀ p, ¬s.pointedDigits a n p) : parsePoint M 0 false 0 (s.window a n) = none := by
  by_cases hmem : charPoint ∈ s.window a n
  · obtain ⟨p, hp, hpoint, hfirst⟩ := State.exists_first_point hmem
    rw [State.window_split a hp, hpoint, parsePoint_append_point hfirst, Option.map_eq_none_iff,
      parseDigits_eq_none_iff]
    by_cases hint : s.allDigits 10 a p
    · have hfrac : ¬s.allDigits 10 (a + p + 1) (n - p - 1) := fun hfrac =>
        hpointed p ⟨hp, hpoint, hint, hfrac⟩
      obtain ⟨c, hc, hnone⟩ := (s.not_allDigits_iff _ _ _).mp hfrac
      exact ⟨c, List.mem_append_right _ hc, hnone⟩
    · obtain ⟨c, hc, hnone⟩ := (s.not_allDigits_iff _ _ _).mp hint
      exact ⟨c, List.mem_append_left _ hc, hnone⟩
  · rw [parsePoint_of_notMem hmem, parseDigits_window_of_not_allDigits M 0 hdigits, Option.map_none]

end

/-! ## LDDCM (R234) -/

/-- What LDDCM makes of the characters after the sign. -/
def State.lddcmResult (s : State) (addr len i : Nat) : Option (Nat × Nat) :=
  (parsePoint (2 ^ s.W) 0 false 0 (s.window (addr + i) (len - i))).map fun xs =>
    (applySign s.W (hasMinus (s.window addr len)) xs.1, xs.2)

theorem exec_lddcm_afterSign (s : State) (rd : Reg) {addr len : Half}
    (hfit : addr.toNat + len.toNat ≤ 65536) {i : Nat} (hi : i = s.signLength addr.toNat len.toNat) :
    exec (.lddcm rd addr len) s
      = .next (s.parsedDecInto rd (s.lddcmResult addr.toNat len.toNat i)) := by
  rw [State.lddcmResult, hi, ← dropSign_window]
  exact inWindow_fits s _ _ hfit

/-- A number x at scale n is negated last, and leaves a Decimal. -/
theorem exec_lddcm_of_parsed {s : State} {addr len : Half} {i x n : Nat} (rd : Reg)
    (hfit : addr.toNat + len.toNat ≤ 65536) (hi : i = s.signLength addr.toNat len.toNat)
    (hparse : parsePoint (2 ^ s.W) 0 false 0 (s.window (addr.toNat + i) (len.toNat - i))
      = some (x % 2 ^ s.W, n)) :
    exec (.lddcm rd addr len) s = .next ((s.putDec rd
      (s.signFactor addr.toNat len.toNat * (x : Int)) n).setFlag .ok true) := by
  rw [exec_lddcm_afterSign s rd hfit hi, State.lddcmResult, hparse, Option.map_some,
    applySign_hasMinus_window]
  rfl

/-- The rule of an LDDCM that succeeds: a window has fewer characters than a scale has values. -/
theorem exec_lddcm_ok {s : State} {addr len : Half} {i x n : Nat} (rd : Reg)
    (hfit : addr.toNat + len.toNat ≤ 65536) (hi : i = s.signLength addr.toNat len.toNat)
    (hparse : parsePoint (2 ^ s.W) 0 false 0 (s.window (addr.toNat + i) (len.toNat - i))
      = some (x % 2 ^ s.W, n)) (hn : n ≤ len.toNat) :
    ∃ t, exec (.lddcm rd addr len) s = .next t ∧ t.flag .ok = true ∧ t.scale rd = n
      ∧ (t.u rd : Int) = s.signFactor addr.toNat len.toNat * (x : Int) % (2 : Int) ^ s.W
      ∧ Unchanged { v := [rd], sc := [rd], flags := [.ok] } s t := by
  have hscale : n < 2 ^ 32 := hn.trans_lt (len.isLt.trans (by decide))
  obtain ⟨t, hexec, hok, hsc, hu, -, hframe⟩ :=
    exec_putDec_ok (exec_lddcm_of_parsed rd hfit hi hparse) hscale
  exact ⟨t, hexec, hok, hsc, hu, hframe⟩

/-- Settles O57: the characters after the sign are digits alone, digits around one point, or neither. -/
theorem decimalWithScaleParses : Obligations.DecimalWithScaleParses := by
  intro s rd addr len
  refine ⟨encodedAs (.lddcm rd addr len), exec_windowPast_faulted rfl, fun hfit i n hi hn => ?_⟩
  subst hn
  refine ⟨fun hdigits => ?_, fun p hpointed => ?_, fun hdigits hpointed => ?_⟩
  · exact exec_lddcm_ok rd hfit hi (parsePoint_window_of_allDigits _ hdigits) (Nat.zero_le _)
  · exact exec_lddcm_ok rd hfit hi (parsePoint_window_of_pointedDigits _ hpointed) (by omega)
  · have hexec := exec_lddcm_afterSign s rd hfit hi
    rw [State.lddcmResult, parsePoint_window_eq_none _ hdigits hpointed, Option.map_none] at hexec
    exact exec_setFlag_only hexec

/-! ## STDCM (R235) -/

/-- The character of STDCM's body at each position. -/
theorem pointChars_getElem? {m sc j : Nat} (hj : j < pointLength m sc) :
    (pointChars m sc)[j]? = some (bodyChar m (ndig m) sc j) := by
  unfold pointLength at hj
  unfold pointChars bodyChar
  dsimp only
  split
  · next hzero =>
    rw [hzero] at hj
    have := ndig_pos m
    exact decChars_getElem? (by simpa [Nat.max_eq_left this] using hj)
  next hzero =>
  rw [if_pos (Nat.pos_of_ne_zero hzero)] at hj
  split
  · next hlt =>
    have hlen : ((decChars m).take (ndig m - sc)).length = ndig m - sc := by simp
    by_cases hbefore : j < ndig m - sc
    · rw [if_pos hbefore, List.getElem?_append_left (by omega), List.getElem?_take_of_lt hbefore,
        decChars_getElem? (by omega)]
    rw [if_neg hbefore, List.getElem?_append_right (by omega), hlen]
    by_cases hat : j = ndig m - sc
    · rw [if_pos hat, hat, Nat.sub_self, List.getElem?_cons_zero]
      rfl
    · have hshift : j - (ndig m - sc) = j - 1 - (ndig m - sc) + 1 := by omega
      have hback : ndig m - sc + (j - 1 - (ndig m - sc)) = j - 1 := by omega
      rw [if_neg hat, hshift, List.getElem?_cons_succ, List.getElem?_drop, hback,
        decChars_getElem? (by omega)]
  · next hge =>
    match j with
    | 0 =>
      rw [if_neg (by decide), if_pos (by omega)]
      rfl
    | 1 => rfl
    | j + 2 =>
      rw [if_neg (by omega), List.getElem?_cons_succ, List.getElem?_cons_succ]
      by_cases hpad : j < sc - ndig m
      · rw [if_pos (by omega), List.getElem?_append_left (by simpa using hpad),
          List.getElem?_replicate, if_pos hpad]
        rfl
      · have hrest : j + 2 - 2 - (sc - ndig m) = j - (sc - ndig m) := by omega
        rw [if_neg (by omega), List.getElem?_append_right (by simpa using hpad),
          List.length_replicate, hrest, decChars_getElem? (by omega)]

theorem exec_stdcm_export {s : State} {ra : Reg} {addr cap : Half}
    (hfit : addr.toNat + cap.toNat ≤ 65536) :
    exec (.stdcm ra addr cap) s = .next (s.exportText addr.toNat cap.toNat
      ((s.neg ra).toNat + pointLength (s.sg ra).natAbs (s.scale ra))
      (signed (s.neg ra) (pointChars (s.sg ra).natAbs (s.scale ra)))) := by
  rw [← s.mag_eq_natAbs_sg]
  exact inWindow_fits s _ _ hfit

theorem pointLength_pos (m sc : Nat) : 0 < pointLength m sc := by
  have := ndig_pos m
  unfold pointLength
  omega

/-- The rule of a signed export whose text fits: '-' for a negative value, then the body. -/
theorem exec_signedExport_of_le {i : Instr} {s : State} {a n : Nat} {cap : Half} {b : Bool}
    {body : List Byte}
    (hexec : exec i s = .next (s.exportText a cap.toNat (b.toNat + n) (signed b body)))
    (hfit : a + cap.toNat ≤ 65536) (hcap : b.toNat + n ≤ cap.toNat) (hpos : 0 < n)
    (hlen : body.length = n) :
    ∃ t, exec i s = .next t ∧ (b = true → t.bufByte a = charMinus)
      ∧ (∀ j < n, body[j]? = some (t.bufByte (a + b.toNat + j)))
      ∧ t.res.toNat = b.toNat + n ∧ t.flag .ok = true
      ∧ Unchanged { flags := [.ok], res := true, bufAddr := a, bufLen := cap.toNat } s t := by
  obtain ⟨t, ht, hbytes, hreport⟩ :=
    exec_exportText_of_le hexec hfit hcap (by omega) (by rw [signed_length, hlen])
  refine ⟨t, ht, fun hneg => ?_, fun j hj => ?_, hreport⟩
  · have hminus := hbytes 0 (by omega)
    rw [hneg] at hminus
    exact (Option.some.inj hminus).symm
  · have hchar := hbytes (b.toNat + j) (by omega)
    rwa [signed_getElem?_add, ← Nat.add_assoc] at hchar

/-- Settles O58: the digit count is ndig of the magnitude, and the text its body behind the sign. -/
theorem decimalWithScalePrints : Obligations.DecimalWithScalePrints := by
  intro s ra addr cap
  refine ⟨encodedAs (.stdcm ra addr cap), exec_windowPast_faulted rfl, fun hfit =>
    ⟨ndig (s.sg ra).natAbs, (decDigits_eq _).1, fun n body hn hbody => ?_⟩⟩
  obtain rfl : n = (s.neg ra).toNat := hn.trans (s.toNat_neg ra).symm
  obtain rfl : body = pointLength (s.sg ra).natAbs (s.scale ra) := hbody
  have hexport := exec_stdcm_export (s := s) (ra := ra) hfit
  refine ⟨exec_exportText_of_lt hexport hfit, fun hcap => ?_⟩
  obtain ⟨t, hexec, hminus, hbytes, hreport⟩ := exec_signedExport_of_le hexport hfit hcap
    (pointLength_pos _ _) (pointChars_length _ _)
  refine ⟨t, hexec, fun hneg => hminus ((s.neg_iff_sg_lt_zero ra).mpr hneg), fun j hj => ?_, hreport⟩
  exact Option.some.inj ((hbytes j hj).symm.trans (pointChars_getElem? hj))

end Sys2Proof.Machine
end

section
/-! PROOFS. The round trips: what an export leaves in BUF, the texts of a number as digits in a base, and
their parse (44_int_raw_text.md R156, R162; 45_signed.md R174; 49_dec_cmp_text.md R236). -/

namespace Sys2Proof.Machine

/-! ## The digits of a number in a base, most significant first -/

/-- The characters of the lowest n digits of v. -/
def baseChars (base v n : Nat) : List Byte :=
  (List.range n).map fun j => charOfDigit (v / base ^ (n - 1 - j) % base)

theorem hexChars_eq_baseChars (v n : Nat) : hexChars v n = baseChars 16 v n := rfl

theorem decChars_eq_baseChars (x : Nat) : decChars x = baseChars 10 x (ndig x) := by
  rw [decChars, (decDigits_eq x).2, List.map_map]
  rfl

@[simp] theorem baseChars_length (base v n : Nat) : (baseChars base v n).length = n := by
  simp [baseChars]

theorem baseChars_getElem? {base v n j : Nat} (hj : j < n) :
    (baseChars base v n)[j]? = some (charOfDigit (v / base ^ (n - 1 - j) % base)) := by
  rw [baseChars, List.getElem?_map, List.getElem?_range hj, Option.map_some]

theorem decChars_getElem?_base {x j : Nat} (hj : j < ndig x) :
    (decChars x)[j]? = some (charOfDigit (x / 10 ^ (ndig x - 1 - j) % 10)) := by
  rw [decChars_eq_baseChars, baseChars_getElem? hj]

/-- The digits above the lowest f are those of the quotient by base^f. -/
theorem baseChars_add (base v n f : Nat) :
    baseChars base v (n + f) = baseChars base (v / base ^ f) n ++ baseChars base v f := by
  have hhigh : ∀ j ∈ List.range n, charOfDigit (v / base ^ (n + f - 1 - j) % base)
      = charOfDigit (v / base ^ f / base ^ (n - 1 - j) % base) := fun j hj => by
    have hexp : n + f - 1 - j = f + (n - 1 - j) := by
      have := List.mem_range.mp hj
      omega
    rw [hexp, pow_add, Nat.div_div_eq_div_mul]
  have hlow : ∀ j, n + f - 1 - (n + j) = f - 1 - j := by omega
  rw [baseChars, List.range_add, List.map_append, List.map_congr_left hhigh, List.map_map]
  simp only [Function.comp_def, hlow]
  rfl

theorem baseChars_succ (base v n : Nat) :
    baseChars base v (n + 1) = baseChars base (v / base) n ++ [charOfDigit (v % base)] := by
  rw [baseChars_add, pow_one]
  simp [baseChars]

/-- A multiple of base^n does not show in the lowest n digits. -/
theorem baseChars_mul_add {base : Nat} (hbase : 0 < base) (u v n : Nat) :
    baseChars base (u * base ^ n + v) n = baseChars base v n := by
  refine List.map_congr_left fun j hj => ?_
  obtain ⟨e, he⟩ : ∃ e, n = (n - 1 - j) + (e + 1) := ⟨j, by have := List.mem_range.mp hj; omega⟩
  generalize n - 1 - j = d at he ⊢
  subst he
  have hmul : u * base ^ (d + (e + 1)) = base ^ d * (base * (u * base ^ e)) := by
    rw [pow_add, pow_succ]
    ring
  rw [hmul, Nat.mul_add_div (Nat.pow_pos hbase), Nat.mul_add_mod]

theorem baseChars_zero_value (base n : Nat) : baseChars base 0 n = List.replicate n charZero := by
  have hzero : ∀ j ∈ List.range n, charOfDigit (0 / base ^ (n - 1 - j) % base) = charZero := fun j _ => by
    rw [Nat.zero_div, Nat.zero_mod]
    rfl
  rw [baseChars, List.map_congr_left hzero, List.map_const', List.length_range]

theorem exists_digit_of_mem_baseChars {base v n : Nat} {c : Byte} (hbase : 0 < base)
    (h : c ∈ baseChars base v n) : ∃ d < base, c = charOfDigit d := by
  obtain ⟨j, -, rfl⟩ := List.mem_map.mp h
  exact ⟨_, Nat.mod_lt _ hbase, rfl⟩

/-! ## Parsing them -/

theorem digitOf_charOfDigit {d base : Nat} (hd : d < base) (hbase : base ≤ 36) :
    digitOf (charOfDigit d) base = some d := by
  rw [digitOf_eq_some_iff, toNat_charOfDigit (by omega)]
  split <;> omega

/-- A decimal digit has one character (R90). -/
theorem eq_charOfDigit_of_digitOf {c : Byte} {d : Nat} (h : digitOf c 10 = some d) :
    c = charOfDigit d := by
  obtain ⟨hd, hcode⟩ := (digitOf_eq_some_iff c 10 d).mp h
  refine BitVec.eq_of_toNat_eq ?_
  rw [toNat_charOfDigit (by omega), if_pos hd]
  omega

theorem charPoint_notMem_baseChars (v n : Nat) : charPoint ∉ baseChars 10 v n := fun hmem => by
  obtain ⟨d, hd, hc⟩ := exists_digit_of_mem_baseChars (by decide) hmem
  have hdigit := digitOf_charOfDigit hd (by decide)
  rw [← hc, digitOf_charPoint] at hdigit
  cases hdigit

theorem parseDigits_baseChars {base : Nat} (hpos : 0 < base) (hbase : base ≤ 36) (M v n : Nat) :
    parseDigits base M 0 (baseChars base v n) = some (v % base ^ n % M) := by
  induction n generalizing v with
  | zero => simp [baseChars, parseDigits, Nat.mod_one]
  | succ n ih =>
    have hdigit := digitOf_charOfDigit (Nat.mod_lt v hpos) hbase
    have hvalue : v % base ^ (n + 1) = v / base % base ^ n * base + v % base := by
      rw [pow_succ', Nat.mod_mul, Nat.mul_comm, Nat.add_comm]
    rw [baseChars_succ, parseDigits_append, ih, hvalue]
    simp [parseDigits, hdigit, Nat.add_mod, Nat.mul_mod]

theorem lt_ten_pow_ndig (x : Nat) : x < 10 ^ ndig x := (decDigits_eq x).1.2.1

theorem parseDigits_decChars (M x : Nat) : parseDigits 10 M 0 (decChars x) = some (x % M) := by
  rw [decChars_eq_baseChars, parseDigits_baseChars (by decide) (by decide),
    Nat.mod_eq_of_lt (lt_ten_pow_ndig x)]

/-! ## The body of STDCM (R235) -/

/-- What follows the integer digits: nothing at scale 0, else the point and the digits after it. -/
def pointTail (m sc : Nat) : List Byte := if sc = 0 then [] else charPoint :: baseChars 10 m sc

theorem isDigitCount_div {m sc : Nat} (h : sc < ndig m) : ndig (m / 10 ^ sc) = ndig m - sc := by
  obtain ⟨-, hlt, hge⟩ := (decDigits_eq m).1
  have hpos : 0 < 10 ^ sc := Nat.pow_pos (by decide)
  refine (decDigits_eq (m / 10 ^ sc)).1.unique ⟨by omega, ?_, ?_⟩
  · rw [Nat.div_lt_iff_lt_mul hpos, ← pow_add, Nat.sub_add_cancel h.le]
    exact hlt
  · rcases Nat.eq_or_lt_of_le (Nat.succ_le_of_lt h) with heq | hlt'
    · exact .inl (by omega)
    · refine .inr ((Nat.le_div_iff_mul_le hpos).mpr ?_)
      rw [← pow_add, show ndig m - sc - 1 + sc = ndig m - 1 by omega]
      exact hge.resolve_left (by omega)

/-- The point stands after the digits of the integer part, which has one digit at least. -/
theorem pointChars_eq (m sc : Nat) : pointChars m sc = decChars (m / 10 ^ sc) ++ pointTail m sc := by
  unfold pointChars pointTail
  dsimp only
  split
  · next hzero => rw [hzero, pow_zero, Nat.div_one, List.append_nil]
  split
  · next hlt =>
    have hsplit : decChars m = decChars (m / 10 ^ sc) ++ baseChars 10 m sc := by
      rw [decChars_eq_baseChars, decChars_eq_baseChars, isDigitCount_div hlt, ← baseChars_add,
        Nat.sub_add_cancel hlt.le]
    have hlen : (decChars (m / 10 ^ sc)).length = ndig m - sc := by
      rw [decChars_length, isDigitCount_div hlt]
    rw [hsplit, List.take_left' hlen, List.drop_left' hlen]
  · next hge =>
    have hle : ndig m ≤ sc := Nat.not_lt.mp hge
    have hint : m / 10 ^ sc = 0 :=
      Nat.div_eq_of_lt ((lt_ten_pow_ndig m).trans_le (Nat.pow_le_pow_right (by decide) hle))
    have hfrac : baseChars 10 m sc = List.replicate (sc - ndig m) charZero ++ decChars m := by
      rw [decChars_eq_baseChars, ← baseChars_zero_value 10 (sc - ndig m),
        ← Nat.div_eq_of_lt (lt_ten_pow_ndig m), ← baseChars_add, Nat.sub_add_cancel hle]
    rw [hint, hfrac]
    rfl

theorem parsePoint_pointChars (M m sc : Nat) :
    parsePoint M 0 false 0 (pointChars m sc) = some (m % M, sc) := by
  have hint := charPoint_notMem_baseChars (m / 10 ^ sc) (ndig (m / 10 ^ sc))
  rw [← decChars_eq_baseChars] at hint
  rw [pointChars_eq, pointTail]
  split
  · next hzero =>
    rw [hzero, pow_zero, Nat.div_one] at hint ⊢
    rw [List.append_nil, parsePoint_of_notMem hint, parseDigits_decChars, Option.map_some]
  · have hlt : m < 10 ^ (ndig (m / 10 ^ sc) + sc) := by
      rw [pow_add, ← Nat.div_lt_iff_lt_mul (Nat.pow_pos (by decide))]
      exact lt_ten_pow_ndig _
    rw [parsePoint_append_point hint, decChars_eq_baseChars, ← baseChars_add,
      parseDigits_baseChars (by decide) (by decide), Nat.mod_eq_of_lt hlt, Option.map_some,
      baseChars_length]

/-! ## A sign before digits -/

/-- The text begins with a digit, so with no sign. -/
def BeginsWithDigit (text : List Byte) : Prop := ∃ d < 10, ∃ rest, text = charOfDigit d :: rest

theorem beginsWithDigit_decChars_append (x : Nat) (rest : List Byte) :
    BeginsWithDigit (decChars x ++ rest) := by
  obtain ⟨n, hn⟩ : ∃ n, ndig x = n + 1 := ⟨ndig x - 1, by have := ndig_pos x; omega⟩
  rw [decChars_eq_baseChars, hn, baseChars, List.range_succ_eq_map]
  exact ⟨_, Nat.mod_lt _ (by decide), _, rfl⟩

theorem charOfDigit_ne_sign : ∀ d < 10, charOfDigit d ≠ charMinus ∧ charOfDigit d ≠ charPlus := by
  decide

theorem dropSign_signed {body : List Byte} (h : BeginsWithDigit body) (b : Bool) :
    dropSign (signed b body) = body := by
  obtain ⟨d, hd, rest, rfl⟩ := h
  obtain ⟨hminus, hplus⟩ := charOfDigit_ne_sign d hd
  cases b <;> simp [signed, dropSign, hminus, hplus]

theorem hasMinus_signed {body : List Byte} (h : BeginsWithDigit body) (b : Bool) :
    hasMinus (signed b body) = b := by
  obtain ⟨d, hd, rest, rfl⟩ := h
  obtain ⟨hminus, -⟩ := charOfDigit_ne_sign d hd
  cases b <;> simp [signed, hasMinus, hminus]

/-- Sign and magnitude of a register make its pattern. -/
theorem State.applySign_neg_natAbs (s : State) (r : Reg) :
    applySign s.W (s.neg r) ((s.sg r).natAbs % 2 ^ s.W) = s.u r := by
  rw [applySign_mod, ← s.mag_eq_natAbs_sg]
  exact (congrArg (bitsW s.W) (signedVal_eq_sign_mag s.zero_lt_W (s.u_lt r)).symm).trans
    (bitsW_signedVal (s.u_lt r))

/-! ## The text an export leaves (R157 (d)) -/

/-- The text stands in BUF at a, and RES is its length, which a len field can hold. -/
def State.HoldsText (t : State) (a : Nat) (text : List Byte) : Prop :=
  (∀ j < text.length, text[j]? = some (t.bufByte (a + j))) ∧ t.res.toNat = text.length
    ∧ a + text.length ≤ 65536 ∧ text.length < 65536

namespace State.HoldsText

variable {t : State} {a : Nat} {text : List Byte}

theorem toNat_len (h : t.HoldsText a text) : (t.res.setWidth 16).toNat = text.length := by
  obtain ⟨-, hres, -, hlt⟩ := h
  rw [BitVec.toNat_setWidth, hres, Nat.mod_eq_of_lt (by omega)]

theorem window (h : t.HoldsText a text) : t.window a (t.res.setWidth 16).toNat = text := by
  rw [h.toNat_len]
  refine List.ext_getElem (by simp) fun j hj hj' => ?_
  rw [State.window_getElem]
  exact Option.some.inj ((h.1 j hj').symm.trans (List.getElem?_eq_getElem hj'))

theorem fits (h : t.HoldsText a text) : a + (t.res.setWidth 16).toNat ≤ 65536 := by
  rw [h.toNat_len]
  exact h.2.2.1

/-- The rule of a buffer command that takes the RES characters just reported. -/
theorem inWindow (h : t.HoldsText a text) (w : CmdWord) (done : State) :
    t.inWindow a (t.res.setWidth 16).toNat w done = .next done := inWindow_fits t w done h.fits

end State.HoldsText

/-- A decimal export that ends with OK = 1 has written its text. -/
theorem holdsText_of_exportText {i : Instr} {s t : State} {a total : Nat} {cap : Half}
    {text : List Byte} (hexec : exec i s = .next (s.exportText a cap.toNat total text))
    (ht : exec i s = .next t) (hok : t.flag .ok = true) (hfit : a + cap.toNat ≤ 65536)
    (hpos : 0 < total) (hlen : text.length = total) :
    t.HoldsText a text ∧ t.W = s.W := by
  rcases Nat.lt_or_ge cap.toNat total with hcap | hcap
  · obtain ⟨u, hu, -, hnot, -⟩ := exec_exportText_of_lt hexec hfit hcap
    cases ht.symm.trans hu
    cases hok.symm.trans hnot
  · obtain ⟨u, hu, hbytes, hres, -, hparams, -⟩ := exec_exportText_of_le hexec hfit hcap hpos hlen
    cases ht.symm.trans hu
    have := cap.isLt
    exact ⟨⟨hlen ▸ hbytes, hlen ▸ hres, by omega, by omega⟩, congrArg (·.width.bits) hparams⟩

/-- STHEX that ends with OK = 1 has written its digits. -/
theorem holdsText_of_sthex {s t : State} {ra : Reg} {addr cap : Half}
    (ht : exec (.sthex ra addr cap) s = .next t) (hok : t.flag .ok = true)
    (hfit : addr.toNat + cap.toNat ≤ 65536) :
    t.HoldsText addr.toNat (hexChars (s.u ra) (msbW (s.u ra) / 4 + 1)) ∧ t.W = s.W := by
  rcases Nat.lt_or_ge cap.toNat (msbW (s.u ra) / 4 + 1) with hcap | hcap
  · cases ht.symm.trans (exec_sthex_of_lt hfit hcap)
    rw [State.flag_ok_exported] at hok
    cases hok
  · cases ht.symm.trans (exec_sthex_of_le hfit hcap)
    have htext : addr.toNat + (hexChars (s.u ra) (msbW (s.u ra) / 4 + 1)).length ≤ bufSize := by
      rw [hexChars_length, bufSize]
      omega
    have := cap.isLt
    refine ⟨⟨fun j hj => ?_, ?_, htext, by rw [hexChars_length]; omega⟩, rfl⟩
    · rw [State.bufByte_exported, State.bufByte_putBytes_add s htext hj, List.getElem?_eq_getElem hj]
    · rw [State.toNat_res_exported _ hcap, hexChars_length]

/-! ## Value to value (R156, R162, R174, R236) -/

theorem leValue_leBytes (v n : Nat) : leValue (leBytes v n) = v % 256 ^ n := by
  induction n generalizing v with
  | zero => simp [leBytes, leValue, Nat.mod_one]
  | succ n ih =>
    have hcons : leBytes v (n + 1) = BitVec.ofNat 8 v :: leBytes (v / 256) n := by
      simp [leBytes, List.range_succ_eq_map, pow_succ', Nat.div_div_eq_div_mul, Function.comp_def]
    rw [hcons, leValue, ih, pow_succ', Nat.mod_mul, BitVec.toNat_ofNat]

/-- W/8 bytes hold a register. -/
theorem ldraw_of_straw {s t : State} {r q : Reg} {addr : Half}
    (hfit : addr.toNat + s.W / 8 ≤ 65536) (ht : exec (.straw r addr) s = .next t) :
    ∃ t', exec (.ldraw q addr) t = .next t' ∧ t'.u q = s.u r := by
  cases ht.symm.trans (inWindow_fits s _ _ hfit)
  have htext : addr.toNat + (leBytes (s.u r) (s.W / 8)).length ≤ bufSize := by rwa [leBytes_length]
  have hwindow : (s.putBytes addr.toNat (leBytes (s.u r) (s.W / 8))).window addr.toNat (s.W / 8)
      = leBytes (s.u r) (s.W / 8) := by
    refine List.ext_getElem (by simp) fun j _ hj => ?_
    rw [State.window_getElem, State.bufByte_putBytes_add s htext hj]
  have hpow : 256 ^ (s.W / 8) = 2 ^ s.W := by
    rw [show 256 = 2 ^ 8 from rfl, ← pow_mul, s.eight_mul_W_div]
  refine ⟨_, inWindow_fits _ _ _ hfit, ?_⟩
  rw [State.u_putV_same, State.putBytes_W, hwindow, leValue_leBytes, hpow, Nat.mod_mod,
    Nat.mod_eq_of_lt (s.u_lt r)]

/-- The digits of STHEX reach the highest 1 bit (R159). -/
theorem lt_sixteen_pow_msbW (v : Nat) : v < 16 ^ (msbW v / 4 + 1) :=
  calc v < 2 ^ (msbW v + 1) := lt_two_pow_msbW_succ v
    _ ≤ 2 ^ (4 * (msbW v / 4 + 1)) := Nat.pow_le_pow_right two_pos (by omega)
    _ = 16 ^ (msbW v / 4 + 1) := pow_mul 2 4 _

theorem ldhex_of_sthex {s t : State} {r q : Reg} {addr cap : Half}
    (hfit : addr.toNat + cap.toNat ≤ 65536) (ht : exec (.sthex r addr cap) s = .next t)
    (hok : t.flag .ok = true) :
    ∃ t', exec (.ldhex q addr (t.res.setWidth 16)) t = .next t' ∧ t'.flag .ok = true
      ∧ t'.u q = s.u r := by
  obtain ⟨htext, hW⟩ := holdsText_of_sthex ht hok hfit
  have hlen : (t.res.setWidth 16).toNat = msbW (s.u r) / 4 + 1 := by
    rw [htext.toNat_len, hexChars_length]
  have hall : (t.res.setWidth 16).toNat = min (t.res.setWidth 16).toNat (t.W / 4) := by
    have := s.msbW_u_lt r
    have := s.eight_mul_W_div
    omega
  have hexec := exec_ldhex_rightmost t q htext.fits hall
  rw [Nat.add_sub_cancel, htext.window, hexChars_eq_baseChars,
    parseDigits_baseChars (by decide) (by decide), Nat.mod_eq_of_lt (lt_sixteen_pow_msbW _), hW,
    Nat.mod_eq_of_lt (s.u_lt r)] at hexec
  obtain ⟨t', ht', hok', hu, -⟩ := exec_parsedInto_some hexec
  exact ⟨t', ht', hok', by rw [hu, hW, Nat.mod_eq_of_lt (s.u_lt r)]⟩

theorem lddec_of_stdec {s t : State} {r q : Reg} {addr cap : Half}
    (hfit : addr.toNat + cap.toNat ≤ 65536) (ht : exec (.stdec r addr cap) s = .next t)
    (hok : t.flag .ok = true) :
    ∃ t', exec (.lddec q addr (t.res.setWidth 16)) t = .next t' ∧ t'.flag .ok = true
      ∧ t'.u q = s.u r := by
  obtain ⟨htext, hW⟩ := holdsText_of_exportText (exec_stdec_export hfit) ht hok hfit (ndig_pos _)
    (decChars_length _)
  have hexec : exec (.lddec q addr (t.res.setWidth 16)) t = .next (t.parsedInto q _) :=
    htext.inWindow _ _
  rw [htext.window, parseDigits_decChars, hW, Nat.mod_eq_of_lt (s.u_lt r)] at hexec
  obtain ⟨t', ht', hok', hu, -⟩ := exec_parsedInto_some hexec
  exact ⟨t', ht', hok', by rw [hu, hW, Nat.mod_eq_of_lt (s.u_lt r)]⟩

theorem ldsdec_of_stsdec {s t : State} {r q : Reg} {addr cap : Half}
    (hfit : addr.toNat + cap.toNat ≤ 65536) (ht : exec (.stsdec r addr cap) s = .next t)
    (hok : t.flag .ok = true) :
    ∃ t', exec (.ldsdec q addr (t.res.setWidth 16)) t = .next t' ∧ t'.flag .ok = true
      ∧ t'.u q = s.u r := by
  have hpos := ndig_pos (s.sg r).natAbs
  obtain ⟨htext, hW⟩ := holdsText_of_exportText (exec_stsdec_export hfit) ht hok hfit (by omega)
    (by simp)
  have hdigit : BeginsWithDigit (decChars (s.sg r).natAbs) := by
    simpa using beginsWithDigit_decChars_append (s.sg r).natAbs []
  have hexec : exec (.ldsdec q addr (t.res.setWidth 16)) t = .next (t.parsedInto q _) :=
    htext.inWindow _ _
  rw [htext.window, dropSign_signed hdigit, hasMinus_signed hdigit, parseDigits_decChars, hW,
    Option.map_some, s.applySign_neg_natAbs] at hexec
  obtain ⟨t', ht', hok', hu, -⟩ := exec_parsedInto_some hexec
  exact ⟨t', ht', hok', by rw [hu, hW, Nat.mod_eq_of_lt (s.u_lt r)]⟩

theorem lddcm_of_stdcm {s t : State} {r q : Reg} {addr cap : Half}
    (hfit : addr.toNat + cap.toNat ≤ 65536) (ht : exec (.stdcm r addr cap) s = .next t)
    (hok : t.flag .ok = true) :
    ∃ t', exec (.lddcm q addr (t.res.setWidth 16)) t = .next t' ∧ t'.flag .ok = true
      ∧ t'.u q = s.u r ∧ t'.scale q = s.scale r := by
  have hpos := pointLength_pos (s.sg r).natAbs (s.scale r)
  obtain ⟨htext, hW⟩ := holdsText_of_exportText (exec_stdcm_export hfit) ht hok hfit (by omega)
    (by simp)
  have hdigit : BeginsWithDigit (pointChars (s.sg r).natAbs (s.scale r)) := by
    rw [pointChars_eq]
    exact beginsWithDigit_decChars_append _ _
  have hexec : exec (.lddcm q addr (t.res.setWidth 16)) t = .next (t.parsedDecInto q _) :=
    htext.inWindow _ _
  rw [htext.window, dropSign_signed hdigit, hasMinus_signed hdigit, parsePoint_pointChars, hW,
    Option.map_some, s.applySign_neg_natAbs] at hexec
  refine ⟨_, hexec, State.flag_setFlag_same _ _ _, ?_, State.scale_putS_of_lt _ q (s.scale_lt r)⟩
  exact (State.u_putV_same t q _).trans (by rw [hW, Nat.mod_eq_of_lt (s.u_lt r)])

/-- Settles O37: the RES characters are the text printed, and its parse is the value again. -/
theorem exportThenParseRestoresTheValue : Obligations.ExportThenParseRestoresTheValue := by
  intro s t r q addr cap
  exact ⟨ldraw_of_straw, ldhex_of_sthex, lddec_of_stdec, ldsdec_of_stsdec, lddcm_of_stdcm⟩

end Sys2Proof.Machine
end

section
/-! PROOFS. Text to text: a number text parsed and printed again comes out in canonical form
(44_int_raw_text.md R162; 45_signed.md R174; 49_dec_cmp_text.md R236). -/

namespace Sys2Proof.Machine

/-! ## The digits read are the digits of the number -/

theorem State.digitAt_eq (s : State) {base : Nat} (hbase : 0 < base) (a : Nat) {n j : Nat}
    (hj : j < n) : s.digitAt base (a + j) = s.digitsValue base a n / base ^ (n - 1 - j) % base := by
  induction n with
  | zero => cases hj
  | succ n ih =>
    have hlt := s.digitAt_lt hbase (a + n)
    rw [State.digitsValue_succ, Nat.add_sub_cancel]
    rcases Nat.lt_succ_iff_lt_or_eq.mp hj with hlower | rfl
    · rw [ih hlower, show n - j = 1 + (n - 1 - j) by omega, pow_add, pow_one,
        ← Nat.div_div_eq_div_mul, Nat.mul_comm, Nat.mul_add_div hbase, Nat.div_eq_of_lt hlt,
        Nat.add_zero]
    · rw [Nat.sub_self, pow_zero, Nat.div_one, Nat.mul_comm, Nat.mul_add_mod, Nat.mod_eq_of_lt hlt]

/-- k is the number of digits of x in a base: no leading zero, one digit for 0. -/
def IsBaseDigitCount (base x k : Nat) : Prop :=
  1 ≤ k ∧ x < base ^ k ∧ (k = 1 ∨ base ^ (k - 1) ≤ x)

theorem isBaseDigitCount_ndig (x : Nat) : IsBaseDigitCount 10 x (ndig x) := (decDigits_eq x).1

/-- The text "0" for 0, and for other values the digit of the highest 1 bit first (R159). -/
theorem isBaseDigitCount_msbW (v : Nat) : IsBaseDigitCount 16 v (msbW v / 4 + 1) := by
  refine ⟨Nat.le_add_left _ _, lt_sixteen_pow_msbW v, ?_⟩
  by_cases hone : msbW v / 4 = 0
  · exact .inl (by rw [hone])
  · have hv : v ≠ 0 := by
      rintro rfl
      exact hone rfl
    refine .inr ?_
    calc 16 ^ (msbW v / 4) = 2 ^ (4 * (msbW v / 4)) := (pow_mul 2 4 _).symm
      _ ≤ 2 ^ msbW v := Nat.pow_le_pow_right two_pos (by omega)
      _ ≤ v := two_pow_msbW_le hv

/-- A number has no more digits than the string that denotes it. -/
theorem IsBaseDigitCount.le {base x k n : Nat} (hbase : 0 < base) (h : IsBaseDigitCount base x k)
    (hx : x < base ^ n) (hn : 0 < n) : k ≤ n := by
  obtain ⟨-, -, hone | hlead⟩ := h
  · omega
  · by_contra hlt
    have hpow : base ^ n ≤ base ^ (k - 1) := Nat.pow_le_pow_right hbase (by omega)
    omega

/-- The first of the digits of a number of two digits or more is not 0. -/
theorem IsBaseDigitCount.lead_ne_zero {base x k : Nat} (hbase : 0 < base)
    (h : IsBaseDigitCount base x k) : k = 1 ∨ x / base ^ (k - 1) % base ≠ 0 := by
  obtain ⟨hk, hlt, hone | hlead⟩ := h
  · exact .inl hone
  · have hquot : x / base ^ (k - 1) < base := by
      rw [Nat.div_lt_iff_lt_mul (Nat.pow_pos hbase), ← pow_succ', Nat.sub_add_cancel hk]
      exact hlt
    rw [Nat.mod_eq_of_lt hquot]
    exact .inr (Nat.div_pos hlead (Nat.pow_pos hbase)).ne'

/-- Printing the number of a string of digits strips its leading zeros. -/
theorem printsStripped_of_chars {s t : State} {base : Nat} {ch : Nat → Byte} {src len dst k : Nat}
    (hbase : 0 < base) (hk : IsBaseDigitCount base (s.digitsValue base src len) k)
    (hch : ∀ j < len, ch (src + j) = charOfDigit (s.digitAt base (src + j)))
    (hchars : ∀ j < k, t.bufByte (dst + j)
      = charOfDigit (s.digitsValue base src len / base ^ (k - 1 - j) % base)) :
    PrintsStripped s t base ch src len dst k := by
  have hlt := s.digitsValue_lt hbase src len
  refine ⟨?_, fun hpos => ?_⟩
  · rintro rfl
    have hzero : s.digitsValue base src 0 = 0 := by simpa using hlt
    rw [hzero] at hk hchars
    obtain ⟨h1, -, hone | hlead⟩ := hk
    · refine ⟨hone, (hchars 0 h1).trans ?_⟩
      rw [Nat.zero_div, Nat.zero_mod]
      rfl
    · exact absurd hlead (Nat.not_le.mpr (Nat.pow_pos hbase))
  · have hle := hk.le hbase hlt hpos
    have hdigit : ∀ j < k, s.digitAt base (src + (len - k + j))
        = s.digitsValue base src len / base ^ (k - 1 - j) % base := fun j hj => by
      rw [s.digitAt_eq hbase src (by omega : len - k + j < len),
        show len - 1 - (len - k + j) = k - 1 - j by omega]
    refine ⟨hk.1, hle, fun j hj => ?_, ?_, fun j hj => ?_⟩
    · have hpow : base ^ k ≤ base ^ (len - 1 - j) := Nat.pow_le_pow_right hbase (by omega)
      rw [s.digitAt_eq hbase src (by omega : j < len), Nat.div_eq_of_lt (hk.2.1.trans_le hpow),
        Nat.zero_mod]
    · have hlead := hdigit 0 hk.1
      rw [Nat.add_zero, Nat.sub_zero] at hlead
      rw [hlead]
      exact hk.lead_ne_zero hbase
    · rw [hchars j hj, hch _ (by omega), hdigit j hj]

/-- In base 10 a digit has one character, so the characters read are the ones printed. -/
theorem State.bufByte_eq_charOfDigit {s : State} {a n : Nat} (h : s.allDigits 10 a n) :
    ∀ j < n, s.bufByte (a + j) = charOfDigit (s.digitAt 10 (a + j)) := fun j hj =>
  eq_charOfDigit_of_digitOf (State.digitOf_eq_some_digitAt (h j hj))

/-- The decimal digits of the number of a digit string, printed at dst. -/
theorem printsStripped_of_decChars {s t : State} {src len dst : Nat} (hdigits : s.allDigits 10 src len)
    (hchars : ∀ j < ndig (s.digitsValue 10 src len),
      (decChars (s.digitsValue 10 src len))[j]? = some (t.bufByte (dst + j))) :
    PrintsStripped s t 10 s.bufByte src len dst (ndig (s.digitsValue 10 src len)) :=
  printsStripped_of_chars (by decide) (isBaseDigitCount_ndig _) (State.bufByte_eq_charOfDigit hdigits)
    fun j hj => Option.some.inj ((hchars j hj).symm.trans (decChars_getElem?_base hj))

/-! ## LDDEC then STDEC, LDHEX then STHEX (R162) -/

theorem stdec_of_lddec {s t t' : State} {r : Reg} {addr len addr' cap : Half}
    (hfit : addr.toNat + len.toNat ≤ 65536) (hfit' : addr'.toNat + cap.toNat ≤ 65536)
    (hdigits : s.allDigits 10 addr.toNat len.toNat)
    (hvalue : s.digitsValue 10 addr.toNat len.toNat < 2 ^ s.W)
    (ht : exec (.lddec r addr len) s = .next t) (ht' : exec (.stdec r addr' cap) t = .next t')
    (hok : t'.flag .ok = true) :
    PrintsStripped s t' 10 s.bufByte addr.toNat len.toNat addr'.toNat t'.res.toNat := by
  obtain ⟨-, -, hparse⟩ := decimalTextParses s r addr len
  obtain ⟨u, hu, -, hval, -⟩ := (hparse hfit).1 hdigits
  cases ht.symm.trans hu
  rw [Nat.mod_eq_of_lt hvalue] at hval
  obtain ⟨⟨hchars, hres, -⟩, -⟩ := holdsText_of_exportText (exec_stdec_export hfit') ht' hok hfit'
    (ndig_pos _) (decChars_length _)
  rw [hval, decChars_length] at hchars hres
  rw [hres]
  exact printsStripped_of_decChars hdigits hchars

theorem sthex_of_ldhex {s t t' : State} {r : Reg} {addr len addr' cap : Half}
    (hfit : addr.toNat + len.toNat ≤ 65536) (hfit' : addr'.toNat + cap.toNat ≤ 65536)
    (hdigits : s.allDigits 16 addr.toNat len.toNat) (hlen : len.toNat ≤ s.W / 4)
    (ht : exec (.ldhex r addr len) s = .next t) (ht' : exec (.sthex r addr' cap) t = .next t')
    (hok : t'.flag .ok = true) :
    PrintsStripped s t' 16 (fun a => charOfDigit (s.digitAt 16 a)) addr.toNat len.toNat
      addr'.toNat t'.res.toNat := by
  obtain ⟨-, -, hparse⟩ := hexTextParses s r addr len
  have hall := (hparse hfit len.toNat (min_eq_left hlen).symm).1
  rw [Nat.add_sub_cancel] at hall
  obtain ⟨u, hu, -, hval, -⟩ := hall hdigits
  cases ht.symm.trans hu
  obtain ⟨⟨hchars, hres, -⟩, -⟩ := holdsText_of_sthex ht' hok hfit'
  rw [hval, hexChars_length] at hchars hres
  rw [hres]
  refine printsStripped_of_chars (by decide) (isBaseDigitCount_msbW _) (fun _ _ => rfl) fun j hj => ?_
  have hchar := hchars j hj
  rw [hexChars_eq_baseChars, baseChars_getElem? hj] at hchar
  exact (Option.some.inj hchar).symm

/-! ## Signed texts (R174, R236) -/

theorem State.natAbs_signFactor_mul (s : State) (a n x : Nat) :
    (s.signFactor a n * (x : Int)).natAbs = x := by
  unfold State.signFactor
  split <;> simp

/-- A '-' is printed before a negative value. -/
theorem State.minusLength_eq (s : State) (a n x : Nat) :
    s.minusLength a n x = if s.signFactor a n * (x : Int) < 0 then 1 else 0 := by
  refine if_congr ?_ rfl rfl
  unfold State.signFactor
  split <;> simp [Nat.pos_iff_ne_zero]

/-- A register whose pattern is that of an integer in range holds the integer. -/
theorem State.sg_of_natCast_u {t : State} {r : Reg} {y : Int}
    (hu : (t.u r : Int) = y % (2 : Int) ^ t.W) (hin : InSigned t.W y) : t.sg r = y := by
  have hpattern : t.u r = bitsW t.W y := by
    rw [← Int.natCast_inj, hu, natCast_bitsW, Nat.cast_pow, Nat.cast_ofNat]
  obtain ⟨hlo, hhi⟩ := inSigned_iff.mp hin
  rw [State.sg, hpattern, signedVal_bitsW t.zero_lt_W hlo hhi]

/-- The characters of a successful signed export of a register, behind m characters of sign. -/
theorem chars_of_signedExport {i : Instr} {t t' : State} {r : Reg} {a n m : Nat} {cap : Half}
    {body : List Byte} (hm : m = (t.neg r).toNat)
    (hexec : exec i t
      = .next (t.exportText a cap.toNat ((t.neg r).toNat + n) (signed (t.neg r) body)))
    (ht' : exec i t = .next t') (hok : t'.flag .ok = true) (hfit : a + cap.toNat ≤ 65536)
    (hpos : 0 < n) (hlen : body.length = n) :
    t'.res.toNat = m + n ∧ (m = 1 → t'.bufByte a = charMinus)
      ∧ ∀ j < n, body[j]? = some (t'.bufByte (a + m + j)) := by
  subst hm
  obtain ⟨⟨hchars, hres, -⟩, -⟩ := holdsText_of_exportText hexec ht' hok hfit (by omega)
    (by rw [signed_length, hlen])
  rw [signed_length, hlen] at hres hchars
  refine ⟨hres, fun hone => ?_, fun j hj => ?_⟩
  · have hminus := hchars 0 (by omega)
    rw [Bool.toNat_eq_one.mp hone] at hminus
    exact (Option.some.inj hminus).symm
  · have hchar := hchars ((t.neg r).toNat + j) (by omega)
    rwa [signed_getElem?_add, ← Nat.add_assoc] at hchar

section
variable {s t t' : State} {r : Reg} {addr len addr' cap : Half} {i n x m : Nat}

theorem State.neg_toNat_of_sg (hsg : t.sg r = s.signFactor addr.toNat len.toNat * (x : Int))
    (hm : m = s.minusLength addr.toNat len.toNat x) : m = (t.neg r).toNat := by
  rw [hm, s.minusLength_eq, ← hsg, t.toNat_neg]

theorem State.natAbs_of_sg (hsg : t.sg r = s.signFactor addr.toNat len.toNat * (x : Int)) :
    (t.sg r).natAbs = x := by
  rw [hsg, s.natAbs_signFactor_mul]

/-- LDSDEC reads a number in range exactly. -/
theorem sg_of_ldsdec (hfit : addr.toNat + len.toNat ≤ 65536)
    (hi : i = s.signLength addr.toNat len.toNat)
    (hdigits : s.allDigits 10 (addr.toNat + i) (len.toNat - i))
    (hin : InSigned s.W (s.signFactor addr.toNat len.toNat
      * (s.digitsValue 10 (addr.toNat + i) (len.toNat - i) : Int)))
    (ht : exec (.ldsdec r addr len) s = .next t) :
    t.sg r = s.signFactor addr.toNat len.toNat
      * (s.digitsValue 10 (addr.toNat + i) (len.toNat - i) : Int) := by
  obtain ⟨-, -, hparse⟩ := signedDecimalTextParses s r addr len
  obtain ⟨u, hexec, -, hu, hparams, -⟩ := (hparse hfit i hi).1 hdigits
  cases ht.symm.trans hexec
  have hW : t.W = s.W := congrArg (·.width.bits) hparams
  rw [← hW] at hu hin
  exact State.sg_of_natCast_u hu hin

/-- LDDCM reads a number whose digits are below 2^(W-1) exactly. -/
theorem decimal_of_lddcm {f : Nat} (hfit : addr.toNat + len.toNat ≤ 65536)
    (hi : i = s.signLength addr.toNat len.toNat)
    (hparse : parsePoint (2 ^ s.W) 0 false 0 (s.window (addr.toNat + i) (len.toNat - i))
      = some (x % 2 ^ s.W, f)) (hf : f ≤ len.toNat) (hx : x < 2 ^ (s.W - 1))
    (ht : exec (.lddcm r addr len) s = .next t) :
    t.sg r = s.signFactor addr.toNat len.toNat * (x : Int) ∧ t.scale r = f := by
  obtain ⟨u, hexec, -, hsc, hu, hparams, -⟩ := exec_lddcm_ok r hfit hi hparse hf
  cases ht.symm.trans hexec
  have hW : t.W = s.W := congrArg (·.width.bits) hparams
  rw [← hW] at hu hx
  exact ⟨State.sg_of_natCast_u hu (inSigned_of_natAbs_lt (by rwa [s.natAbs_signFactor_mul])), hsc⟩

/-- Digits alone, read exactly: a '-' before a nonzero negative value, and the digits stripped. -/
theorem canonical_of_digits {instr : Instr} (hfit' : addr'.toNat + cap.toNat ≤ 65536)
    (hdigits : s.allDigits 10 (addr.toNat + i) n) (hx : x = s.digitsValue 10 (addr.toNat + i) n)
    (hm : m = s.minusLength addr.toNat len.toNat x)
    (hsg : t.sg r = s.signFactor addr.toNat len.toNat * (x : Int))
    (hexec : exec instr t = .next (t.exportText addr'.toNat cap.toNat
      ((t.neg r).toNat + ndig (t.sg r).natAbs) (signed (t.neg r) (decChars (t.sg r).natAbs))))
    (ht' : exec instr t = .next t') (hok : t'.flag .ok = true) :
    ∃ k, t'.res.toNat = m + k ∧ (m = 1 → t'.bufByte addr'.toNat = 0x2D#8)
      ∧ PrintsStripped s t' 10 s.bufByte (addr.toNat + i) n (addr'.toNat + m) k := by
  rw [State.natAbs_of_sg hsg] at hexec
  obtain ⟨hres, hminus, hchars⟩ := chars_of_signedExport (State.neg_toNat_of_sg hsg hm) hexec ht' hok
    hfit' (ndig_pos x) (decChars_length x)
  subst hx
  exact ⟨_, hres, hminus, printsStripped_of_decChars hdigits hchars⟩

theorem exec_stdcm_export_zero (hfit' : addr'.toNat + cap.toNat ≤ 65536) (hsc : t.scale r = 0) :
    exec (.stdcm r addr' cap) t = .next (t.exportText addr'.toNat cap.toNat
      ((t.neg r).toNat + ndig (t.sg r).natAbs) (signed (t.neg r) (decChars (t.sg r).natAbs))) := by
  have hbody : pointChars (t.sg r).natAbs 0 = decChars (t.sg r).natAbs := by
    rw [pointChars_eq, pow_zero, Nat.div_one]
    exact List.append_nil _
  have hlen : pointLength (t.sg r).natAbs 0 = ndig (t.sg r).natAbs := by
    rw [← pointChars_length, hbody, decChars_length]
  rw [exec_stdcm_export hfit', hsc, hbody, hlen]

/-- Digits around a point: the integer digits stripped, and where digits follow it the point and those
digits as they are. -/
theorem canonical_of_pointed {p f : Nat} (hfit : addr.toNat + len.toNat ≤ 65536)
    (hfit' : addr'.toNat + cap.toNat ≤ 65536) (hi : i = s.signLength addr.toNat len.toNat)
    (hpointed : s.pointedDigits (addr.toNat + i) (len.toNat - i) p) (hf : f = len.toNat - i - p - 1)
    (hx : x = s.digitsValue 10 (addr.toNat + i) p * 10 ^ f
      + s.digitsValue 10 (addr.toNat + i + p + 1) f) (hrange : x < 2 ^ (s.W - 1))
    (hm : m = s.minusLength addr.toNat len.toNat x) (ht : exec (.lddcm r addr len) s = .next t)
    (ht' : exec (.stdcm r addr' cap) t = .next t') (hok : t'.flag .ok = true) :
    ∃ k, PrintsStripped s t' 10 s.bufByte (addr.toNat + i) p (addr'.toNat + m) k
      ∧ (m = 1 → t'.bufByte addr'.toNat = 0x2D#8)
      ∧ (f = 0 → t'.res.toNat = m + k)
      ∧ (0 < f → t'.res.toNat = m + k + 1 + f ∧ t'.bufByte (addr'.toNat + m + k) = 0x2E#8
        ∧ ∀ j < f, t'.bufByte (addr'.toNat + m + k + 1 + j)
            = s.bufByte (addr.toNat + i + p + 1 + j)) := by
  have hparse := parsePoint_window_of_pointedDigits (2 ^ s.W) hpointed
  obtain ⟨-, -, hint, hfrac⟩ := hpointed
  rw [← hf] at hparse hfrac
  rw [← hx] at hparse
  obtain ⟨hsg, hsc⟩ := decimal_of_lddcm hfit hi hparse (by omega) hrange ht
  have hexec := exec_stdcm_export (s := t) (ra := r) hfit'
  rw [State.natAbs_of_sg hsg, hsc] at hexec
  obtain ⟨hres, hminus, hchars⟩ := chars_of_signedExport (State.neg_toNat_of_sg hsg hm) hexec ht' hok
    hfit' (pointLength_pos x f) (pointChars_length x f)
  have hfracLt := s.digitsValue_lt (base := 10) (by decide) (addr.toNat + i + p + 1) f
  have hquot : x / 10 ^ f = s.digitsValue 10 (addr.toNat + i) p := by
    rw [hx, Nat.mul_comm, Nat.mul_add_div (Nat.pow_pos (by decide)), Nat.div_eq_of_lt hfracLt,
      Nat.add_zero]
  have htail : baseChars 10 x f = baseChars 10 (s.digitsValue 10 (addr.toNat + i + p + 1) f) f := by
    rw [hx, baseChars_mul_add (by decide)]
  have hbody := pointChars_eq x f
  rw [hquot] at hbody
  have hlen : pointLength x f = ndig (s.digitsValue 10 (addr.toNat + i) p) + (pointTail x f).length := by
    rw [← pointChars_length, hbody, List.length_append, decChars_length]
  rw [hbody, hlen] at hchars
  rw [hlen] at hres
  refine ⟨ndig (s.digitsValue 10 (addr.toNat + i) p), printsStripped_of_decChars hint fun j hj => ?_,
    hminus, fun hzero => ?_, fun hpos => ?_⟩
  · rw [← hchars j (by omega), List.getElem?_append_left (by rwa [decChars_length])]
  · rw [hres, pointTail, if_pos hzero]
    rfl
  · have htailEq : pointTail x f = charPoint :: baseChars 10 x f := if_neg hpos.ne'
    have htailChars : ∀ j ≤ f, (charPoint :: baseChars 10 x f)[j]?
        = some (t'.bufByte (addr'.toNat + m + ndig (s.digitsValue 10 (addr.toNat + i) p) + j)) := by
      intro j hj
      rw [Nat.add_assoc _ (ndig _) j, ← hchars _ (by rw [htailEq]; simpa using by omega),
        List.getElem?_append_right (by simp), decChars_length, Nat.add_sub_cancel_left, htailEq]
    refine ⟨?_, (Option.some.inj (htailChars 0 (Nat.zero_le f))).symm, fun j hj => ?_⟩
    · rw [hres, htailEq, List.length_cons, baseChars_length]
      omega
    · have hchar := htailChars (j + 1) hj
      rw [List.getElem?_cons_succ, htail, baseChars_getElem? hj] at hchar
      rw [State.bufByte_eq_charOfDigit hfrac j hj, s.digitAt_eq (by decide) _ hj,
        Option.some.inj hchar]
      congr 1
      omega

end

/-- Settles O38: each parse reads the number exactly, and each print writes its digits. -/
theorem parseThenPrintIsCanonical : Obligations.ParseThenPrintIsCanonical := by
  intro s t t' r addr len addr' cap i n hfit hfit' hi hn
  subst hn
  refine ⟨stdec_of_lddec hfit hfit', sthex_of_ldhex hfit hfit', ?_, ?_⟩
  · intro x m hdigits hx hm hrun hok
    rcases hrun with ⟨hin, ht, ht'⟩ | ⟨hrange, ht, ht'⟩
    · have hsg := sg_of_ldsdec hfit hi hdigits (hx ▸ hin) ht
      rw [← hx] at hsg
      exact canonical_of_digits hfit' hdigits hx hm hsg (exec_stsdec_export hfit') ht' hok
    · have hparse := parsePoint_window_of_allDigits (2 ^ s.W) hdigits
      rw [← hx] at hparse
      obtain ⟨hsg, hsc⟩ := decimal_of_lddcm hfit hi hparse (Nat.zero_le _) hrange ht
      exact canonical_of_digits hfit' hdigits hx hm hsg (exec_stdcm_export_zero hfit' hsc) ht' hok
  · intro p f x m hpointed hf hx hrange hm
    exact canonical_of_pointed hfit hfit' hi hpointed hf hx hrange hm

end Sys2Proof.Machine
end

section
/-! PROOFS. The cell-level arithmetic: ripple add and subtract, schoolbook multiply and the cellwise
logic (42_int_arith.md R123, R126; 43_int_logic_shift_bit_cmp.md R139). -/

namespace Sys2Proof.Machine

/-! ## Cells of a value (00_scope.md R10) -/

theorem two_pow_mul_succ (C N : Nat) : 2 ^ (C * (N + 1)) = 2 ^ C * 2 ^ (C * N) := by
  rw [Nat.mul_succ, Nat.add_comm, pow_add]

@[simp] theorem toCells_length (C N v : Nat) : (toCells C N v).length = N := by simp [toCells]

theorem cellOf_succ (C v i : Nat) : cellOf C v (i + 1) = cellOf C (v / 2 ^ C) i := by
  rw [cellOf, cellOf, Nat.div_div_eq_div_mul, two_pow_mul_succ]

theorem cellOf_lt (C v i : Nat) : cellOf C v i < 2 ^ C := Nat.mod_lt _ (Nat.two_pow_pos C)

theorem toCells_succ (C N v : Nat) : toCells C (N + 1) v = v % 2 ^ C :: toCells C N (v / 2 ^ C) := by
  have hhead : cellOf C v 0 = v % 2 ^ C := by rw [cellOf, Nat.mul_zero, pow_zero, Nat.div_one]
  rw [toCells, List.range_succ_eq_map, List.map_cons, List.map_map, hhead]
  exact congrArg _ (List.map_congr_left fun i _ => cellOf_succ C v i)

/-- Cells hold the low C * N bits of a value. -/
theorem ofCells_toCells (C N v : Nat) : ofCells C (toCells C N v) = v % 2 ^ (C * N) := by
  induction N generalizing v with
  | zero => simp [toCells, ofCells, Nat.mod_one]
  | succ N ih => rw [toCells_succ, ofCells, ih, two_pow_mul_succ, Nat.mod_mul]

/-- The cells below a position, and the cell at it. -/
theorem mod_cells_succ (C v n : Nat) :
    v % 2 ^ (C * (n + 1)) = v % 2 ^ (C * n) + 2 ^ (C * n) * cellOf C v n := by
  rw [Nat.mul_succ, pow_add, Nat.mod_mul, cellOf]

/-! ## ADD and SUB by cells (R123) -/

/-- The carry of a cell is the carry of the values' low parts. -/
theorem ofCells_rippleAdd (C N a b c : Nat) :
    ofCells C (rippleAdd C (toCells C N a) (toCells C N b) c) = (a + b + c) % 2 ^ (C * N) := by
  induction N generalizing a b c with
  | zero => simp [toCells, rippleAdd, ofCells, Nat.mod_one]
  | succ N ih =>
    have hsplit : a + b + c = a % 2 ^ C + b % 2 ^ C + c + 2 ^ C * (a / 2 ^ C + b / 2 ^ C) := by
      have ha := Nat.mod_add_div a (2 ^ C)
      have hb := Nat.mod_add_div b (2 ^ C)
      rw [Nat.mul_add]
      omega
    have hcarry : (a + b + c) / 2 ^ C
        = a / 2 ^ C + b / 2 ^ C + (a % 2 ^ C + b % 2 ^ C + c) / 2 ^ C := by
      rw [hsplit, Nat.add_mul_div_left _ _ (Nat.two_pow_pos C), Nat.add_comm]
    have hcell : (a + b + c) % 2 ^ C = (a % 2 ^ C + b % 2 ^ C + c) % 2 ^ C := by
      rw [hsplit, Nat.add_mul_mod_self_left]
    rw [toCells_succ, toCells_succ, rippleAdd, ofCells, ih, two_pow_mul_succ, Nat.mod_mul, hcarry,
      hcell, cellAdd]

theorem addByCells_eq (C N a b : Nat) : addByCells C N a b = (a + b) % 2 ^ (C * N) :=
  ofCells_rippleAdd C N a b 0

theorem emod_natCast_mul (x : Int) (a b : Nat) :
    x % ((a * b : Nat) : Int) = x % (a : Int) + a * (x / (a : Int) % (b : Int)) := by
  rw [Nat.cast_mul, Int.emod_def, Int.emod_def, Int.emod_def,
    ← Int.ediv_ediv_of_nonneg (Int.natCast_nonneg a)]
  ring

/-- The borrow out of a cell is the difference's quotient by 2^C, negated (R94). -/
theorem natCast_cellSub_borrow {C a b c : Nat} (hb : b < 2 ^ C) (ha : a < 2 ^ C) (hc : c ≤ 1) :
    ((cellSub C a b c).2 : Int) = -(((a : Int) - b - c) / ((2 ^ C : Nat) : Int)) ∧ (cellSub C a b c).2 ≤ 1 := by
  have hpos : (0 : Int) < ((2 ^ C : Nat) : Int) := by exact_mod_cast Nat.two_pow_pos C
  unfold cellSub
  dsimp only
  split
  · have hquot : ((a : Int) - b - c) / ((2 ^ C : Nat) : Int) = -1 :=
      (Int.ediv_eq_iff_of_pos hpos).mpr ⟨by omega, by omega⟩
    rw [hquot]
    exact ⟨rfl, le_rfl⟩
  · have hquot : ((a : Int) - b - c) / ((2 ^ C : Nat) : Int) = 0 :=
      Int.ediv_eq_zero_of_lt (by omega) (by omega)
    rw [hquot]
    exact ⟨rfl, Nat.zero_le 1⟩

theorem ofCells_rippleSub (C N a b : Nat) {c : Nat} (hc : c ≤ 1) :
    (ofCells C (rippleSub C (toCells C N a) (toCells C N b) c) : Int)
      = ((a : Int) - b - c) % ((2 ^ (C * N) : Nat) : Int) := by
  induction N generalizing a b c with
  | zero => simp [toCells, rippleSub, ofCells]
  | succ N ih =>
    have hpos : ((2 ^ C : Nat) : Int) ≠ 0 := by exact_mod_cast (Nat.two_pow_pos C).ne'
    obtain ⟨hborrow, hle⟩ := natCast_cellSub_borrow (Nat.mod_lt b (Nat.two_pow_pos C))
      (Nat.mod_lt a (Nat.two_pow_pos C)) hc
    have hsplit : (a : Int) - b - c = ((a % 2 ^ C : Nat) : Int) - (b % 2 ^ C : Nat) - c
        + ((2 ^ C : Nat) : Int) * ((a / 2 ^ C : Nat) - (b / 2 ^ C : Nat)) := by
      have ha : (a : Int) = _ := congrArg Nat.cast (Nat.mod_add_div a (2 ^ C)).symm
      have hb : (b : Int) = _ := congrArg Nat.cast (Nat.mod_add_div b (2 ^ C)).symm
      rw [ha, hb]
      push_cast
      ring
    have hquot : ((a : Int) - b - c) / ((2 ^ C : Nat) : Int)
        = ((a / 2 ^ C : Nat) : Int) - (b / 2 ^ C : Nat)
          - (cellSub C (a % 2 ^ C) (b % 2 ^ C) c).2 := by
      rw [hsplit, Int.add_mul_ediv_left _ _ hpos, hborrow]
      ring
    have hcell : ((cellSub C (a % 2 ^ C) (b % 2 ^ C) c).1 : Int)
        = ((a : Int) - b - c) % ((2 ^ C : Nat) : Int) := by
      rw [cellSub, natCast_bitsW, hsplit, Int.add_mul_emod_self_left]
    rw [toCells_succ, toCells_succ, rippleSub, ofCells, Nat.cast_add, Nat.cast_mul, ih _ _ hle,
      two_pow_mul_succ, emod_natCast_mul, hquot, hcell]

theorem natCast_subByCells (C N a b : Nat) :
    (subByCells C N a b : Int) = ((a : Int) - (b : Int)) % (2 : Int) ^ (C * N) := by
  rw [subByCells, ofCells_rippleSub C N a b (Nat.zero_le 1), Nat.cast_zero, sub_zero, Nat.cast_pow,
    Nat.cast_ofNat]

/-! ## MUL and MULW by cells (R126) -/

/-- Replacing a cell. -/
theorem ofCells_set (C : Nat) {l : List Nat} {k : Nat} (x : Nat) (hk : k < l.length) :
    ofCells C (l.set k x) + l.getD k 0 * 2 ^ (C * k) = ofCells C l + x * 2 ^ (C * k) := by
  induction l generalizing k with
  | nil => cases hk
  | cons c l ih =>
    cases k with
    | zero => simp [ofCells]; omega
    | succ k =>
      have hrest := ih (Nat.lt_of_succ_lt_succ hk)
      simp only [List.set_cons_succ, List.getD_cons_succ, ofCells, two_pow_mul_succ]
      calc c + 2 ^ C * ofCells C (l.set k x) + l.getD k 0 * (2 ^ C * 2 ^ (C * k))
          = c + 2 ^ C * (ofCells C (l.set k x) + l.getD k 0 * 2 ^ (C * k)) := by ring
        _ = c + 2 ^ C * ofCells C l + x * (2 ^ C * 2 ^ (C * k)) := by rw [hrest]; ring

/-- Adding into a cell: what the sum cell loses, the carry is worth one cell higher (R93). -/
theorem ofCells_set_cellAdd (C : Nat) {l : List Nat} {k : Nat} (x cin : Nat) (hk : k < l.length) :
    ofCells C (l.set k (cellAdd C (l.getD k 0) x cin).1)
        + (cellAdd C (l.getD k 0) x cin).2 * 2 ^ (C * (k + 1))
      = ofCells C l + (x + cin) * 2 ^ (C * k) := by
  have hset := ofCells_set C (cellAdd C (l.getD k 0) x cin).1 hk
  have hsum : (cellAdd C (l.getD k 0) x cin).1 + 2 ^ C * (cellAdd C (l.getD k 0) x cin).2
      = l.getD k 0 + x + cin := Nat.mod_add_div _ _
  generalize cellAdd C (l.getD k 0) x cin = sum at hset hsum ⊢
  have hscaled := congrArg (· * 2 ^ (C * k)) hsum
  simp only [Nat.add_mul] at hscaled
  rw [two_pow_mul_succ, Nat.add_mul]
  have hassoc : sum.2 * (2 ^ C * 2 ^ (C * k)) = 2 ^ C * sum.2 * 2 ^ (C * k) := by ring
  omega

/-- The value the accumulator stands for. -/
def MulAcc.value (C : Nat) (acc : MulAcc) : Nat := ofCells C acc.res + ofCells C acc.aux

/-- The accumulator has R cells of each kind. -/
def MulAcc.HasCells (R : Nat) (acc : MulAcc) : Prop := acc.res.length = R ∧ acc.aux.length = R

theorem two_pow_cells_dvd (C x : Nat) {R m : Nat} (h : R ≤ m) : 2 ^ (C * R) ∣ x * 2 ^ (C * m) :=
  (pow_dvd_pow 2 (Nat.mul_le_mul_left C h)).mul_left x

/-- One pair adds its product at its position, but for what passes the R cells. -/
theorem mulPair_value (C R a b : Nat) {acc : MulAcc} (ij : Nat × Nat) (h : acc.HasCells R) :
    (mulPair C R a b acc ij).HasCells R
    ∧ ∃ d, 2 ^ (C * R) ∣ d ∧ (mulPair C R a b acc ij).value C + d
        = acc.value C + cellOf C a ij.1 * cellOf C b ij.2 * 2 ^ (C * (ij.1 + ij.2)) := by
  obtain ⟨hres, haux⟩ := h
  have hproduct : (cellMul C (cellOf C a ij.1) (cellOf C b ij.2)).2
      + 2 ^ C * (cellMul C (cellOf C a ij.1) (cellOf C b ij.2)).1
      = cellOf C a ij.1 * cellOf C b ij.2 := Nat.mod_add_div _ _
  unfold mulPair
  dsimp only
  generalize cellMul C (cellOf C a ij.1) (cellOf C b ij.2) = p at hproduct ⊢
  generalize ij.1 + ij.2 = k
  rw [← hproduct]
  split
  · next hk => exact ⟨⟨hres, haux⟩, _, two_pow_cells_dvd C _ hk, rfl⟩
  next hk =>
  have hlow := ofCells_set_cellAdd C p.2 0 (by omega : k < acc.res.length)
  generalize cellAdd C (acc.res.getD k 0) p.2 0 = low at hlow ⊢
  have hhighPart : 2 ^ C * p.1 * 2 ^ (C * k) = p.1 * 2 ^ (C * (k + 1)) := by
    rw [two_pow_mul_succ]
    ring
  have hlen : (acc.res.set k low.1).length = R := by rw [List.length_set, hres]
  split
  · next hk1 =>
    have hhigh := ofCells_set_cellAdd C p.1 low.2 (by omega : k + 1 < (acc.res.set k low.1).length)
    generalize cellAdd C ((acc.res.set k low.1).getD (k + 1) 0) p.1 low.2 = high at hhigh ⊢
    change _ + high.2 * 2 ^ (C * (k + 2)) = _ at hhigh
    split
    · next hk2 =>
      have hauxSet := ofCells_set C (acc.aux.getD (k + 2) 0 + high.2) (by omega : k + 2 < acc.aux.length)
      refine ⟨⟨by simp [hres], by simp [haux]⟩, 0, dvd_zero _, ?_⟩
      simp only [MulAcc.value, Nat.add_mul, hhighPart] at *
      omega
    · next hk2 =>
      refine ⟨⟨by simp [hres], haux⟩, high.2 * 2 ^ (C * (k + 2)),
        two_pow_cells_dvd C _ (by omega), ?_⟩
      simp only [MulAcc.value, Nat.add_mul, hhighPart] at *
      omega
  · next hk1 =>
    refine ⟨⟨hlen, haux⟩, (low.2 + p.1) * 2 ^ (C * (k + 1)), two_pow_cells_dvd C _ (by omega), ?_⟩
    simp only [MulAcc.value, Nat.add_mul, hhighPart] at *
    omega

/-- All pairs add their products, modulo 2^(C * R). -/
theorem foldl_mulPair_modEq (C R a b : Nat) (pairs : List (Nat × Nat)) {acc : MulAcc}
    (h : acc.HasCells R) :
    (pairs.foldl (mulPair C R a b) acc).value C ≡ acc.value C + (pairs.map fun ij =>
      cellOf C a ij.1 * cellOf C b ij.2 * 2 ^ (C * (ij.1 + ij.2))).sum [MOD 2 ^ (C * R)] := by
  induction pairs generalizing acc with
  | nil => exact Nat.ModEq.refl _
  | cons ij pairs ih =>
    obtain ⟨hcells, d, hdvd, hvalue⟩ := mulPair_value C R a b ij h
    have hstep : (mulPair C R a b acc ij).value C
        ≡ acc.value C + cellOf C a ij.1 * cellOf C b ij.2 * 2 ^ (C * (ij.1 + ij.2))
          [MOD 2 ^ (C * R)] := by
      rw [← hvalue]
      exact (Nat.modEq_zero_iff_dvd.mpr hdvd).symm.add_left _
    rw [List.foldl_cons, List.map_cons, List.sum_cons, ← Nat.add_assoc]
    exact (ih hcells).trans (hstep.add_right _)

theorem sum_cells (C N v : Nat) :
    ((List.range N).map fun i => cellOf C v i * 2 ^ (C * i)).sum = v % 2 ^ (C * N) := by
  induction N with
  | zero => simp [Nat.mod_one]
  | succ N ih =>
    rw [List.range_succ, List.map_append, List.sum_append, ih, mod_cells_succ]
    simp [Nat.mul_comm]

/-- The products of all pairs of cells sum up to the product. -/
theorem sum_cellPairs (C N a b : Nat) :
    ((cellPairs N).map fun ij => cellOf C a ij.1 * cellOf C b ij.2 * 2 ^ (C * (ij.1 + ij.2))).sum
      = a % 2 ^ (C * N) * (b % 2 ^ (C * N)) := by
  have hrow : ∀ i, ((List.range N).map fun j =>
      cellOf C a i * cellOf C b j * 2 ^ (C * (i + j))).sum
        = cellOf C a i * 2 ^ (C * i) * (b % 2 ^ (C * N)) := by
    intro i
    rw [← sum_cells, ← List.sum_map_mul_left]
    refine congrArg List.sum (List.map_congr_left fun j _ => ?_)
    rw [Nat.mul_add, pow_add]
    ring
  rw [cellPairs, List.map_flatMap, List.flatMap, List.sum_flatten, List.map_map]
  simp only [Function.comp_def, List.map_map, hrow]
  rw [List.sum_map_mul_right, sum_cells]

theorem ofCells_replicate_zero (C R : Nat) : ofCells C (List.replicate R 0) = 0 := by
  induction R with
  | zero => rfl
  | succ R ih => rw [List.replicate_succ, ofCells, ih, Nat.mul_zero]

theorem mulByCells_eq (C N R a b : Nat) :
    mulByCells C N R a b = a % 2 ^ (C * N) * (b % 2 ^ (C * N)) % 2 ^ (C * R) := by
  have hstart : MulAcc.HasCells R ⟨List.replicate R 0, List.replicate R 0⟩ := by
    simp [MulAcc.HasCells]
  have hsum := foldl_mulPair_modEq C R a b (cellPairs N) hstart
  have hzero : MulAcc.value C ⟨List.replicate R 0, List.replicate R 0⟩ = 0 := by
    simp [MulAcc.value, ofCells_replicate_zero]
  rw [sum_cellPairs, hzero, Nat.zero_add, Nat.ModEq, Nat.mul_comm C R] at hsum
  rw [Nat.mul_comm C R]
  exact hsum

/-! ## AND, OR, XOR and NOT by cells (R139) -/

/-- An operation that acts on the low C bits and on the others apart is the operation on the cells. -/
theorem bitwiseByCells_eq {f : Nat → Nat → Nat} {C : Nat} (hzero : f 0 0 = 0)
    (hmod : ∀ x y, f x y % 2 ^ C = f (x % 2 ^ C) (y % 2 ^ C))
    (hdiv : ∀ x y, f x y / 2 ^ C = f (x / 2 ^ C) (y / 2 ^ C)) {N a b : Nat} (ha : a < 2 ^ (C * N))
    (hb : b < 2 ^ (C * N)) : bitwiseByCells f C N a b = f a b := by
  induction N generalizing a b with
  | zero =>
    obtain rfl : a = 0 := by simpa using ha
    obtain rfl : b = 0 := by simpa using hb
    exact hzero.symm
  | succ N ih =>
    rw [two_pow_mul_succ] at ha hb
    have hrest : ofCells C (List.zipWith f (toCells C N (a / 2 ^ C)) (toCells C N (b / 2 ^ C)))
        = f (a / 2 ^ C) (b / 2 ^ C) := ih (Nat.div_lt_of_lt_mul ha) (Nat.div_lt_of_lt_mul hb)
    rw [bitwiseByCells, toCells_succ, toCells_succ, List.zipWith_cons_cons, ofCells, hrest, ← hmod,
      ← hdiv, Nat.mod_add_div]

theorem notByCells_eq {C N a : Nat} (ha : a < 2 ^ (C * N)) :
    bitwiseByCells (fun x _ => 2 ^ C - 1 - x) C N a a = 2 ^ (C * N) - 1 - a := by
  induction N generalizing a with
  | zero =>
    obtain rfl : a = 0 := by simpa using ha
    rfl
  | succ N ih =>
    rw [two_pow_mul_succ] at ha ⊢
    have hquot : a / 2 ^ C < 2 ^ (C * N) := Nat.div_lt_of_lt_mul ha
    have hrest : ofCells C (List.zipWith (fun x _ => 2 ^ C - 1 - x) (toCells C N (a / 2 ^ C))
        (toCells C N (a / 2 ^ C))) = 2 ^ (C * N) - 1 - a / 2 ^ C := ih hquot
    have hcell := Nat.mod_lt a (Nat.two_pow_pos C)
    have hsplit := Nat.mod_add_div a (2 ^ C)
    have hexpand : 2 ^ C * (2 ^ (C * N) - 1 - a / 2 ^ C) + 2 ^ C * (a / 2 ^ C) + 2 ^ C
        = 2 ^ C * 2 ^ (C * N) := by
      rw [← Nat.mul_add, ← Nat.mul_succ]
      congr 1
      omega
    rw [bitwiseByCells, toCells_succ, List.zipWith_cons_cons, ofCells, hrest]
    omega

/-- Settles O59: each by induction on the cells, the carry of a cell being the carry of the low parts. -/
theorem cellArithmeticIsTheCommandsFunction : Obligations.CellArithmeticIsTheCommandsFunction := by
  intro C N a b hC ha hb
  have hproduct : a * b < 2 ^ (C * (2 * N)) := by
    rw [show C * (2 * N) = C * N + C * N by ring, pow_add]
    exact Nat.mul_lt_mul'' ha hb
  refine ⟨addByCells_eq C N a b, natCast_subByCells C N a b, ?_, ?_, ?_, ?_, ?_, notByCells_eq ha⟩
  · rw [mulByCells_eq, Nat.mod_eq_of_lt ha, Nat.mod_eq_of_lt hb]
  · rw [mulByCells_eq, Nat.mod_eq_of_lt ha, Nat.mod_eq_of_lt hb, Nat.mod_eq_of_lt hproduct]
  · exact bitwiseByCells_eq rfl (fun _ _ => Nat.and_mod_two_pow) (fun _ _ => Nat.and_div_two_pow) ha hb
  · exact bitwiseByCells_eq rfl (fun _ _ => Nat.or_mod_two_pow) (fun _ _ => Nat.or_div_two_pow) ha hb
  · exact bitwiseByCells_eq rfl (fun _ _ => Nat.xor_mod_two_pow) (fun _ _ => Nat.xor_div_two_pow) ha hb

end Sys2Proof.Machine
end

section
/-! PROOFS. The cell-split shifts, the comparison and the bit scan by cells, and the stepping of a scale
change (43_int_logic_shift_bit_cmp.md R142, R147; 40_primitives.md R98; 46_dec_scale.md R185). -/

namespace Sys2Proof.Machine

/-! ## Cells of an OR -/

theorem cellOf_or (C v w i : Nat) : cellOf C (v ||| w) i = cellOf C v i ||| cellOf C w i := by
  rw [cellOf, Nat.or_div_two_pow, Nat.or_mod_two_pow, cellOf, cellOf]

theorem cell_mul_two_pow_lt {C x k m : Nat} (hx : x < 2 ^ C) (hm : C + C * k ≤ m) :
    x * 2 ^ (C * k) < 2 ^ m := by
  calc x * 2 ^ (C * k) < 2 ^ C * 2 ^ (C * k) := Nat.mul_lt_mul_of_pos_right hx (Nat.two_pow_pos _)
    _ = 2 ^ (C + C * k) := (pow_add 2 C (C * k)).symm
    _ ≤ 2 ^ m := Nat.pow_le_pow_right (by decide) hm

/-- A value that fits a cell, placed at cell k, shows in that cell alone. -/
theorem cellOf_mul_two_pow {C x : Nat} (k i : Nat) (hx : x < 2 ^ C) :
    cellOf C (x * 2 ^ (C * k)) i = if i = k then x else 0 := by
  rcases Nat.lt_trichotomy i k with hlt | rfl | hgt
  · obtain ⟨d, rfl⟩ := Nat.exists_eq_add_of_lt hlt
    have hsplit : x * 2 ^ (C * (i + d + 1)) = x * 2 ^ (C * d) * 2 ^ C * 2 ^ (C * i) := by ring
    rw [cellOf, hsplit, Nat.mul_div_cancel _ (Nat.two_pow_pos _), Nat.mul_mod_left, if_neg hlt.ne]
  · rw [cellOf, Nat.mul_div_cancel _ (Nat.two_pow_pos _), Nat.mod_eq_of_lt hx, if_pos rfl]
  · have hle : C + C * k ≤ C * i := by
      rw [Nat.add_comm, ← Nat.mul_succ]
      exact Nat.mul_le_mul_left C hgt
    rw [cellOf, Nat.div_eq_of_lt (cell_mul_two_pow_lt hx hle), Nat.zero_mod, if_neg hgt.ne']

theorem toCells_getD (C N v : Nat) {k : Nat} (hk : k < N) : (toCells C N v).getD k 0 = cellOf C v k := by
  simp [toCells, hk]

/-- ORing into a cell is ORing the value; past the last cell neither side shows it. -/
theorem orInto_toCells (C N v k : Nat) {x : Nat} (hx : x < 2 ^ C) :
    orInto N (toCells C N v) k x = toCells C N (v ||| x * 2 ^ (C * k)) := by
  have hcell : ∀ i, cellOf C (v ||| x * 2 ^ (C * k)) i
      = if i = k then cellOf C v k ||| x else cellOf C v i := by
    intro i
    rw [cellOf_or, cellOf_mul_two_pow k i hx]
    split
    · next h => rw [h]
    · rw [Nat.or_zero]
  unfold orInto
  split
  · next hk =>
    refine List.ext_getElem (by simp) fun i hi _ => ?_
    simp only [toCells_getD C N v hk]
    simp only [List.getElem_set, toCells, List.getElem_map, List.getElem_range, hcell, eq_comm]
  · next hk =>
    refine (List.map_congr_left fun i hi => ?_).symm
    rw [hcell, if_neg (by have := List.mem_range.mp hi; omega)]

theorem toCells_zero_eq_replicate (C N : Nat) : List.replicate N 0 = toCells C N 0 := by
  refine (List.eq_replicate_iff.mpr ⟨toCells_length C N 0, fun c hc => ?_⟩).symm
  obtain ⟨i, -, rfl⟩ := List.mem_map.mp hc
  rw [cellOf, Nat.zero_div, Nat.zero_mod]

/-- The value below cell m + 1 is what is below cell m with cell m put on it. -/
theorem mod_cells_succ_or (C v m : Nat) :
    v % 2 ^ (C * (m + 1)) = v % 2 ^ (C * m) ||| cellOf C v m * 2 ^ (C * m) := by
  rw [mod_cells_succ, Nat.add_comm, Nat.two_pow_add_eq_or_of_lt (Nat.mod_lt _ (Nat.two_pow_pos _)),
    Nat.lor_comm, Nat.mul_comm (cellOf C v m)]

/-! ## SHL and SHR by cells (R142) -/

/-- One source cell of the left shift. -/
def shlStep (C N a n : Nat) (dst : List Nat) (i : Nat) : List Nat :=
  let s := cellSplit (cellOf C a i) (C - n % C)
  orInto N (orInto N dst (i + n / C) (s.2 * 2 ^ (n % C))) (i + n / C + 1) s.1

/-- One source cell of the right shift. -/
def shrStep (C N a n : Nat) (dst : List Nat) (i : Nat) : List Nat :=
  let s := cellSplit (cellOf C a i) (n % C)
  let dst1 := if n / C ≤ i then orInto N dst (i - n / C) s.1 else dst
  if n / C + 1 ≤ i then orInto N dst1 (i - n / C - 1) (s.2 * 2 ^ (C - n % C)) else dst1

theorem shlByCells_eq_foldl (C N a n : Nat) :
    shlByCells C N a n = ofCells C ((List.range N).foldl (shlStep C N a n) (List.replicate N 0)) := rfl

theorem shrByCells_eq_foldl (C N a n : Nat) :
    shrByCells C N a n = ofCells C ((List.range N).foldl (shrStep C N a n) (List.replicate N 0)) := rfl

theorem or_mul_two_pow (x y k : Nat) : (x ||| y) * 2 ^ k = x * 2 ^ k ||| y * 2 ^ k := by
  simp only [← Nat.shiftLeft_eq, Nat.shiftLeft_or_distrib]

/-- A cell is its low part with its high part on it. -/
theorem cellSplit_or (w p : Nat) : (cellSplit w p).2 ||| (cellSplit w p).1 * 2 ^ p = w := by
  have hlow : w % 2 ^ p < 2 ^ p := Nat.mod_lt _ (Nat.two_pow_pos p)
  rw [cellSplit, Nat.mul_comm, Nat.lor_comm, ← Nat.two_pow_add_eq_or_of_lt hlow, Nat.div_add_mod]

theorem cellSplit_high_lt {C w : Nat} (p : Nat) (hw : w < 2 ^ C) : (cellSplit w p).1 < 2 ^ C :=
  (Nat.div_le_self _ _).trans_lt hw

/-- The low p bits of a cell, moved up by the C - p others, fit the cell. -/
theorem cellSplit_low_mul_lt {C p k : Nat} (w : Nat) (h : p + k = C) :
    (cellSplit w p).2 * 2 ^ k < 2 ^ C := by
  rw [← h, pow_add]
  exact Nat.mul_lt_mul_of_pos_right (Nat.mod_lt _ (Nat.two_pow_pos p)) (Nat.two_pow_pos k)

/-- A source cell lands n bits higher. -/
theorem shlStep_toCells {C : Nat} (N a n v i : Nat) (hC : 0 < C) :
    shlStep C N a n (toCells C N v) i = toCells C N (v ||| cellOf C a i * 2 ^ (C * i) * 2 ^ n) := by
  have hr := Nat.mod_lt n hC
  have hn := Nat.div_add_mod n C
  have hlow := cellSplit_low_mul_lt (cellOf C a i) (by omega : C - n % C + n % C = C)
  have hhigh := cellSplit_high_lt (C - n % C) (cellOf_lt C a i)
  have hcell := cellSplit_or (cellOf C a i) (C - n % C)
  unfold shlStep
  dsimp only
  generalize cellOf C a i = w at hlow hhigh hcell ⊢
  rw [orInto_toCells C N v _ hlow, orInto_toCells C N _ _ hhigh, Nat.lor_assoc]
  have hlowPlace : n % C + C * (i + n / C) = C * i + n := by rw [Nat.mul_add]; omega
  have hhighPlace : C * (i + n / C + 1) = C - n % C + (C * i + n) := by
    rw [Nat.mul_add, Nat.mul_add]; omega
  rw [Nat.mul_assoc _ (2 ^ (n % C)), ← pow_add, hlowPlace, hhighPlace, pow_add 2 (C - n % C),
    ← Nat.mul_assoc _ (2 ^ (C - n % C)), ← or_mul_two_pow, hcell, Nat.mul_assoc, ← pow_add]

/-- A source cell lands n bits lower, what passes the lowest bit falling off. -/
theorem shrStep_toCells {C : Nat} (N a n v i : Nat) (hC : 0 < C) :
    shrStep C N a n (toCells C N v) i = toCells C N (v ||| cellOf C a i * 2 ^ (C * i) / 2 ^ n) := by
  have hr := Nat.mod_lt n hC
  have hn := Nat.div_add_mod n C
  have hw := cellOf_lt C a i
  have hlow := cellSplit_low_mul_lt (cellOf C a i) (by omega : n % C + (C - n % C) = C)
  have hhigh := cellSplit_high_lt (n % C) hw
  have hcell := cellSplit_or (cellOf C a i) (n % C)
  unfold shrStep
  dsimp only
  generalize cellOf C a i = w at hw hlow hhigh hcell ⊢
  by_cases hi : n / C ≤ i
  · obtain ⟨d, rfl⟩ := Nat.exists_eq_add_of_le hi
    rw [if_pos hi, orInto_toCells C N v _ hhigh, Nat.add_sub_cancel_left, Nat.mul_add]
    cases d with
    | zero =>
      have hplace : w * 2 ^ (C * (n / C) + C * 0) / 2 ^ n = (cellSplit w (n % C)).1 := by
        have hexp : (2 : Nat) ^ n = 2 ^ (n % C) * 2 ^ (C * (n / C)) := by rw [← pow_add, Nat.add_comm, hn]
        rw [hexp, Nat.mul_zero, Nat.add_zero, Nat.mul_div_mul_right _ _ (Nat.two_pow_pos _)]
        rfl
      rw [if_neg (by omega), hplace, Nat.mul_zero, pow_zero, Nat.mul_one]
    | succ e =>
      have hplace : w * 2 ^ (C * (n / C) + C * (e + 1)) / 2 ^ n = w * 2 ^ (C - n % C + C * e) := by
        have hexp : C * (n / C) + C * (e + 1) = C - n % C + C * e + n := by rw [Nat.mul_succ]; omega
        rw [hexp, pow_add _ _ n, ← Nat.mul_assoc, Nat.mul_div_cancel _ (Nat.two_pow_pos n)]
      have hhighPlace : C * (e + 1) = n % C + (C - n % C + C * e) := by rw [Nat.mul_succ]; omega
      rw [if_pos (by omega), Nat.add_sub_cancel, orInto_toCells C N _ _ hlow, hplace, Nat.lor_assoc,
        Nat.lor_comm (_ * 2 ^ (C * (e + 1))), hhighPlace, pow_add 2 (n % C),
        ← Nat.mul_assoc _ (2 ^ (n % C)), Nat.mul_assoc _ (2 ^ (C - n % C)), ← pow_add,
        ← or_mul_two_pow, hcell]
  · have hle : C + C * i ≤ n := by
      have hbelow := Nat.mul_le_mul_left C (Nat.succ_le_of_lt (Nat.lt_of_not_le hi))
      rw [Nat.mul_succ] at hbelow
      omega
    rw [if_neg hi, if_neg (by omega), Nat.div_eq_of_lt (cell_mul_two_pow_lt hw hle), Nat.or_zero]

/-- The OR of the moved cells below m, whatever the move does to each. -/
theorem foldl_toCells {C N : Nat} (a : Nat) {step : List Nat → Nat → List Nat} {move : Nat → Nat}
    (hzero : move 0 = 0) (hor : ∀ x y, move (x ||| y) = move x ||| move y)
    (hstep : ∀ v i, step (toCells C N v) i = toCells C N (v ||| move (cellOf C a i * 2 ^ (C * i))))
    (m : Nat) :
    (List.range m).foldl step (List.replicate N 0) = toCells C N (move (a % 2 ^ (C * m))) := by
  induction m with
  | zero => rw [Nat.mul_zero, pow_zero, Nat.mod_one, hzero]; exact toCells_zero_eq_replicate C N
  | succ m ih =>
    rw [List.range_succ, List.foldl_append, ih, List.foldl_cons, List.foldl_nil, hstep, ← hor,
      ← mod_cells_succ_or]

theorem shlByCells_eq {C N a : Nat} (n : Nat) (hC : 0 < C) (ha : a < 2 ^ (C * N)) :
    shlByCells C N a n = a * 2 ^ n % 2 ^ (C * N) := by
  rw [shlByCells_eq_foldl, foldl_toCells (move := (· * 2 ^ n)) a (Nat.zero_mul _)
    (fun x y => or_mul_two_pow x y n) (fun v i => shlStep_toCells N a n v i hC), ofCells_toCells,
    Nat.mod_eq_of_lt ha]

theorem shrByCells_eq {C N a : Nat} (n : Nat) (hC : 0 < C) (ha : a < 2 ^ (C * N)) :
    shrByCells C N a n = a / 2 ^ n := by
  rw [shrByCells_eq_foldl, foldl_toCells (move := (· / 2 ^ n)) a (Nat.zero_div _)
    (fun _ _ => Nat.or_div_two_pow) (fun v i => shrStep_toCells N a n v i hC), ofCells_toCells,
    Nat.mod_eq_of_lt ha, Nat.mod_eq_of_lt ((Nat.div_le_self _ _).trans_lt ha)]

/-! ## Comparison and bit scan by cells (R147, R98) -/

/-- The highest cell that differs decides. -/
theorem cmpScan_eq (C a b n : Nat) :
    cmpScan C a b n = (decide (a % 2 ^ (C * n) = b % 2 ^ (C * n)), decide (a % 2 ^ (C * n) < b % 2 ^ (C * n))) := by
  induction n with
  | zero => simp [cmpScan, Nat.mod_one]
  | succ n ih =>
    have ha := Nat.mod_lt a (Nat.two_pow_pos (C * n))
    have hb := Nat.mod_lt b (Nat.two_pow_pos (C * n))
    rw [cmpScan, ih, mod_cells_succ, mod_cells_succ]
    split
    · next heq => simp [heq]
    · next hne =>
      rcases Nat.lt_or_gt_of_ne hne with hlt | hgt
      · have hlt' : a % 2 ^ (C * n) + 2 ^ (C * n) * cellOf C a n
            < b % 2 ^ (C * n) + 2 ^ (C * n) * cellOf C b n := by
          have := Nat.mul_le_mul_left (2 ^ (C * n)) hlt
          rw [Nat.mul_succ] at this
          omega
        simp [hlt, hlt', hlt'.ne]
      · have hgt' : b % 2 ^ (C * n) + 2 ^ (C * n) * cellOf C b n
            < a % 2 ^ (C * n) + 2 ^ (C * n) * cellOf C a n := by
          have := Nat.mul_le_mul_left (2 ^ (C * n)) hgt
          rw [Nat.mul_succ] at this
          omega
        simp [hgt.not_gt, hgt'.not_gt, hgt'.ne']

theorem log2_add_two_pow_mul {x k c : Nat} (hx : x < 2 ^ k) (hc : c ≠ 0) :
    Nat.log2 (x + 2 ^ k * c) = k + Nat.log2 c := by
  have hpos := Nat.mul_pos (Nat.two_pow_pos k) (Nat.pos_of_ne_zero hc)
  have hlow := Nat.mul_le_mul_left (2 ^ k) (Nat.log2_self_le hc)
  have hhigh := Nat.mul_le_mul_left (2 ^ k) (Nat.succ_le_of_lt (Nat.lt_log2_self (n := c)))
  rw [Nat.mul_succ] at hhigh
  rw [Nat.log2_eq_iff (by omega), Nat.add_assoc, pow_add, pow_add 2 k]
  omega

/-- The highest cell that is not zero holds the highest 1 bit. -/
theorem msbScan_eq (C v n : Nat) : msbScan C v n = Nat.log2 (v % 2 ^ (C * n)) := by
  induction n with
  | zero => simp [msbScan, Nat.mod_one]
  | succ n ih =>
    rw [msbScan, ih, mod_cells_succ]
    split
    · next hzero => rw [hzero, Nat.mul_zero, Nat.add_zero]
    · next hne =>
      rw [log2_add_two_pow_mul (Nat.mod_lt v (Nat.two_pow_pos (C * n))) hne, cellMsb, Nat.mul_comm n]

/-! ## The stepping of a scale change (R185) -/

theorem ten_pow_add_three (k : Nat) : 10 ^ (k + 3) = 1000 * 10 ^ k := by ring

theorem stepUp_eq {W k m : Nat} (hm : m < 2 ^ W) : stepUp W k m = m * 10 ^ k % 2 ^ W := by
  induction k using Nat.strongRecOn generalizing m with
  | _ k ih =>
    match k with
    | 0 => rw [stepUp, pow_zero, Nat.mul_one, Nat.mod_eq_of_lt hm]
    | 1 => rfl
    | 2 => rfl
    | k + 3 =>
      rw [stepUp, ih k (by omega) (Nat.mod_lt _ (Nat.two_pow_pos W)), Nat.mod_mul_mod, ten_pow_add_three,
        Nat.mul_assoc]

theorem stepDown_eq (k m : Nat) : stepDown k m = (m / 10 ^ k, decide (m % 10 ^ k ≠ 0)) := by
  induction k using Nat.strongRecOn generalizing m with
  | _ k ih =>
    match k with
    | 0 => simp [stepDown, Nat.mod_one]
    | 1 => rfl
    | 2 => rfl
    | k + 3 =>
      rw [stepDown, ih k (by omega), ten_pow_add_three, Nat.div_div_eq_div_mul, Nat.mod_mul]
      simp

/-- Settles O60: each scan and shift by induction on the cells, the stepping by its own recursion. -/
theorem cellShiftsAndScansAreTheCommandsFunction :
    Obligations.CellShiftsAndScansAreTheCommandsFunction := by
  refine ⟨fun C N a b n hC ha hb => ⟨shlByCells_eq n hC ha, shrByCells_eq n hC ha, ?_, ?_⟩,
    fun W k m hm => stepUp_eq hm, stepDown_eq⟩
  · rw [cmpScan_eq, Nat.mod_eq_of_lt ha, Nat.mod_eq_of_lt hb]
  · rw [msbScan_eq, Nat.mod_eq_of_lt ha]

end Sys2Proof.Machine
end
